-- ==== Sys2Proof/Word.lean ====
section
/-! DEFINITION. The two widths every other file uses (spec/00_scope.md R5, R6): a register is 32 bits, a symbol code and
a buffer entry are 8 bits. Every quantity of the block is unsigned (R6). -/

namespace Sys2Proof

/-- One buffer entry, one symbol code, one limb: 8 bits (R5 `SYMW`, R60). -/
abbrev Byte := BitVec 8

/-- One host-visible register or one command word: 32 bits (R5 `REGW`, R80). -/
abbrev Word := BitVec 32

end Sys2Proof
end

