-- ==== Sys2Proof/Syntax.lean ====
section
/-! DEFINITION. The four commands of the block, one constructor per row of spec/opcode_table.json (spec/30_encoding.md
R84). The block has no other instruction: it fetches none (spec/10_state.md R35); a command is one 32-bit word that the
host writes to `CMD` (R80). -/

namespace Sys2Proof

/-- A command (R84). `len` is the operand `LEN` of format CL, a natural number (R83); R82 bounds it by its 24 bits, which
`Instr.wf` checks. -/
inductive Instr where
  | configure
  | encode (len : Nat)
  | decode (len : Nat)
  | clear
  deriving DecidableEq, Repr

end Sys2Proof
end

