-- ==== Sys2Proof/WellFormed.lean ====
section
/-! DEFINITION. Which terms of `Instr` are commands of the block: the ones whose operand fits its field
(spec/30_encoding.md R82, R83). -/

namespace Sys2Proof

/-- `LEN` is 24 bits wide: 0 to 2^24 − 1 (R82, R83). Format C0 has no operand (R81). -/
def Instr.wf : Instr → Bool
  | .configure => true
  | .encode len => decide (len < 16777216)
  | .decode len => decide (len < 16777216)
  | .clear => true

end Sys2Proof
end

