-- ==== Sys2Proof/Decode.lean ====
section
/-! DEFINITION. From the 32-bit word written to `CMD` to a command, and back (spec/30_encoding.md R80 to R90). The decoder
is total: every word is one of the four commands or is illegal, by name (R85, R86). No state takes part (R90). The word is
moved as one 32-bit value, so no byte order arises (spec/20_memory.md R66). -/

namespace Sys2Proof

/-- Why a word is illegal (R85). Either way the block reports IllegalCommand (spec/60_exceptions.md R197). -/
inductive IllegalWord where
  /-- `w[7:0]` is 0x00 or 0x05 to 0xFF. -/
  | reservedOpcode (opc : Byte)
  /-- `w[7:0]` is 0x01 or 0x04, format C0, and `w[31:8]` is not 0. -/
  | nonzeroOperand (opc : Byte) (imm : Nat)
  deriving DecidableEq, Repr

/-- `OPC` = `w[7:0]` (R81, R82). -/
def opcodeField (w : Word) : Byte := w.extractLsb' 0 8

/-- `zext(w[31:8])`, a natural number: not sign-extended, not scaled (R83). -/
def operandField (w : Word) : Nat := (w.extractLsb' 8 24).toNat

/-- The decoding procedure of R90. -/
def decodeWord (w : Word) : Except IllegalWord Instr :=
  let opc := opcodeField w
  let imm := operandField w
  if opc = 0x01#8 then (if imm = 0 then .ok .configure else .error (.nonzeroOperand opc imm))
  else if opc = 0x02#8 then .ok (.encode imm)
  else if opc = 0x03#8 then .ok (.decode imm)
  else if opc = 0x04#8 then (if imm = 0 then .ok .clear else .error (.nonzeroOperand opc imm))
  else .error (.reservedOpcode opc)

/-- The word of an operand field above an opcode (R81, R82). -/
def commandWord (imm : Nat) (opc : Byte) : Word := BitVec.ofNat 24 imm ++ opc

/-- The word of a well-formed command, from the table of R84. -/
def encodeInstr : Instr → Word
  | .configure => commandWord 0 0x01#8
  | .encode len => commandWord len 0x02#8
  | .decode len => commandWord len 0x03#8
  | .clear => commandWord 0 0x04#8

/-- One row of the opcode map of R84. -/
structure OpcodeRow where
  mnemonic : String
  pattern : Word
  mask : Word
  deriving DecidableEq, Repr

/-- The opcode map of R84: a word `w` selects a row exactly when `w & mask == match`. -/
def opcodeRows : List OpcodeRow :=
  [ ⟨"CONFIGURE", 0x00000001#32, 0xFFFFFFFF#32⟩,
    ⟨"ENCODE", 0x00000002#32, 0x000000FF#32⟩,
    ⟨"DECODE", 0x00000003#32, 0x000000FF#32⟩,
    ⟨"CLEAR", 0x00000004#32, 0xFFFFFFFF#32⟩ ]

/-- `w & mask == match` (R84). -/
def OpcodeRow.selects (r : OpcodeRow) (w : Word) : Bool := w &&& r.mask == r.pattern

/-- The table's mnemonic of a command (R84). -/
def Instr.mnemonic : Instr → String
  | .configure => "CONFIGURE"
  | .encode _ => "ENCODE"
  | .decode _ => "DECODE"
  | .clear => "CLEAR"

/-- The command word that the low `nbits` bits of `w` make, every bit above them 0. A command is one 32-bit word and has
one length (R80), so the table's numbering is the word's own. -/
def tableWord (nbits w : Nat) : Word := BitVec.ofNat 32 (w % 2 ^ nbits)

/-- What the decoder reads from a word numbered as spec/opcode_table.json numbers it. -/
def decodeTableWord (nbits w : Nat) : Option Instr :=
  match decodeWord (tableWord nbits w) with
  | .ok i => some i
  | .error _ => none

end Sys2Proof
end

