-- ==== Sys2Proof/Config.lean ====
section
/-! DEFINITION. What one instance of the block fixes (the open parameters of spec/00_scope.md R5) and the free values of
the model (spec/00_scope.md R10, spec/20_memory.md R74). Every constant declared `opaque` has no body: nothing can be
proved of its value beyond its type, so a theorem about it holds whatever the value is. -/

namespace Sys2Proof.Config

/-- `IBUF_BYTES` − 1. R5: `IBUF_BYTES` is OPEN, 1 ≤ `IBUF_BYTES` ≤ 2^24 − 1 (log entry 1). -/
opaque ibufParam : Fin 16777215

/-- `OBUF_BYTES` − 1. R5: `OBUF_BYTES` is OPEN, 1 ≤ `OBUF_BYTES` ≤ 2^28 (log entry 1). -/
opaque obufParam : Fin 268435456

/-- `IBUF_BYTES` of R5: the capacity of the input buffer, in bytes. -/
def ibufBytes : Nat := ibufParam.val + 1

/-- `OBUF_BYTES` of R5: the capacity of the output buffer, in bytes. -/
def obufBytes : Nat := obufParam.val + 1

/-- The unknown content of a `SYM` entry that nothing has written since reset: one value per reset and entry, held until
the entry's first write (R74, R37). First argument: how many reset events there have been; second: the index
(log entry 2). -/
opaque coldSym : Nat → Nat → Byte

/-- The unknown content of an `IBUF` entry that nothing has written since reset, held like `coldSym` (R74, R39;
log entry 2). -/
opaque coldIbuf : Nat → Nat → Byte

/-- The unknown value one read of an unspecified `OBUF` entry returns: not held, each read draws anew (R40, R68, R74).
First argument: the number of draws so far; second: the index (log entry 3). -/
opaque staleObuf : Nat → Nat → Byte

end Sys2Proof.Config
end

