-- ==== Sys2Proof/Machine/State.lean ====
section
/-! DEFINITION. The state of one instance of the block as plain data (spec/10_state.md R20 to R43), the host operations
that drive it (spec/20_memory.md R61), why a step can be refused, and the state after reset (R43). -/

namespace Sys2Proof.Machine

/-- A byte memory: the entries that hold a known byte, by strictly rising index. An index that is not listed holds an
unspecified value (R74, R40), which is no particular byte (log entry 4). -/
abbrev Memory := List Host.Cell

/-- The three byte-wide spaces of R60. The fourth space, `REG`, is reached by word operations only (R62). -/
inductive Space where
  | sym
  | ibuf
  | obuf
  deriving DecidableEq, Repr

/-- The ten host-visible registers of R21, by name. -/
inductive RegName where
  | radix
  | alen
  | cfg
  | padsym
  | cmd
  | status
  | olen
  | errpos
  | capIbuf
  | capObuf
  deriving DecidableEq, Repr

/-- The size of an access on the flat map of spec/20_memory.md R67; R62 admits words for `REG` and bytes elsewhere. -/
inductive AccessWidth where
  | byte
  | half
  | word
  deriving DecidableEq, Repr

/-- The data of a write on the flat map, with its size. -/
inductive BusData where
  | byte (b : Byte)
  | half (h : BitVec 16)
  | word (w : Word)
  deriving DecidableEq, Repr

/-- What the outside world can do to the block: the host operations of R61, the same through the flat address map of
R67, and the reset event of spec/70_reset_and_hazards.md R220. -/
inductive HostOp where
  /-- `RegRead(off)`. -/
  | regRead (off : Nat)
  /-- `RegWrite(off, w)`; at offset 0x10 it issues a command (R101). -/
  | regWrite (off : Nat) (w : Word)
  /-- `ByteRead(space, i)`. -/
  | byteRead (sp : Space) (i : Nat)
  /-- `ByteWrite(space, i, b)`; to `OBUF` it is ignored. -/
  | byteWrite (sp : Space) (i : Nat) (b : Byte)
  /-- A read at a flat address (R67). -/
  | busRead (addr : Word) (width : AccessWidth)
  /-- A write at a flat address (R67). -/
  | busWrite (addr : Word) (data : BusData)
  /-- The reset event, between two host operations (R220). -/
  | reset
  /-- The reset event while the command that the `CMD` write of `w` issued is running: the command is abandoned and its
  effects are lost (R220). -/
  | resetDuring (w : Word)
  deriving DecidableEq, Repr

/-- How the last host operation ended, as the host sees it: the completion of its own access is the only signal the block
gives (spec/60_exceptions.md R205). -/
inductive Reply where
  /-- No host operation has completed since reset. -/
  | none
  /-- A write completed; for a `CMD` write, the command has ended (R100). -/
  | ack
  /-- A `RegRead` returned this word. -/
  | word (w : Word)
  /-- A `ByteRead` returned this byte. -/
  | byte (b : Byte)
  deriving DecidableEq, Repr

/-- `STATUS.MODE`: 0 = BPC, 1 = BRC (R27). -/
inductive Mode where
  | bpc
  | brc
  deriving DecidableEq, Repr

/-- `CFG.CODEC`: 0 AUTO, 1 BITPACK, 2 BIGRADIX, 3 reserved (R24). -/
inductive Codec where
  | auto
  | bitpack
  | bigradix
  | reserved
  deriving DecidableEq, Repr

/-- `STATUS.ERR`: success and the nine errors, codes 0 to 9; codes 10 to 15 are never produced
(spec/60_exceptions.md R191). -/
inductive ErrCode where
  | noError
  | invalidRadix
  | invalidAlphabet
  | invalidSymbol
  | invalidPadding
  | trailingBits
  | illegalCommand
  | notConfigured
  | inputLength
  | outputOverflow
  deriving DecidableEq, Repr

/-- The four fields of `STATUS` (R27); its other bits read 0, and the host cannot write any of it. -/
structure Status where
  cfgValid : Bool
  mode : Mode
  bits : BitVec 4
  err : ErrCode
  deriving DecidableEq, Repr

/-- The valid entries of `RLUT`, each a normalised symbol code and the index it maps to, in the order they were entered;
a code that is not listed has its valid bit 0 (R38). -/
abbrev Rlut := List (Byte × Byte)

/-- The state of one instance (R20), and below it three fields of the model's own that stand for the outside world and
for values the spec leaves unspecified. `CMD` stores nothing (R26), so it has no field. -/
structure State where
  /-- `RADIX`, implemented bits [8:0] (R22). -/
  radix : BitVec 9
  /-- `ALEN`, implemented bits [8:0] (R23). -/
  alen : BitVec 9
  /-- `CFG`, implemented bits [5:0] (R24). -/
  cfg : BitVec 6
  /-- `PADSYM`, implemented bits [7:0] (R25). -/
  padsym : Byte
  /-- `STATUS` (R27). -/
  status : Status
  /-- `OLEN` (R28). -/
  olen : Word
  /-- `ERRPOS`, implemented bits [23:0] (R29). -/
  errpos : BitVec 24
  /-- `CAP_IBUF`, the constant `IBUF_BYTES` of this instance (R30). -/
  capIbuf : Word
  /-- `CAP_OBUF`, the constant `OBUF_BYTES` of this instance (R31). -/
  capObuf : Word
  /-- `SYM` (R37). -/
  sym : Memory
  /-- `RLUT` (R38). -/
  rlut : Rlut
  /-- `IBUF` (R39). -/
  ibuf : Memory
  /-- `OBUF` (R40). -/
  obuf : Memory
  /-- The model's own: how many reset events there have been, which says what unknown contents the never-written `SYM`
  and `IBUF` entries hold (log entry 2). -/
  epoch : Nat
  /-- The model's own: how many unspecified `OBUF` bytes the host has read (log entry 3). -/
  draws : Nat
  /-- The model's own: the host operations still to come, the next one first (log entry 5). -/
  host : List HostOp
  /-- The model's own: how the last host operation ended (log entry 6). -/
  reply : Reply
  deriving DecidableEq, Repr

/-- Why the machine could stop with a fault: never. "No error stops the block, locks a register or needs acknowledging"
(spec/60_exceptions.md R190): an error is a code in `STATUS.ERR` and a next state. The type has no constructor, so no
step can fault (safe: it rules out nothing the spec allows). -/
inductive Fault where
  deriving DecidableEq, Repr

/-- Why a step has no meaning: the host access is outside the interface contract and "a model gives it no step"
(spec/00_scope.md R10; log entry 7). No command is ever refused. -/
inductive Refusal where
  /-- An instruction whose meaning has not been written; raised by `exec`'s arm for it (none in this model). Safe. -/
  | notModelled (mnemonic : String)
  /-- A `REG` access at an offset that is not a multiple of 4 (R62); raised by `hostRegRead`, `hostRegWrite`. Safe. -/
  | misalignedReg (off : Nat)
  /-- An index outside its space's range: a `REG` offset above 0xFC, `SYM` at or above 256, `IBUF` at or above
  `IBUF_BYTES`, `OBUF` at or above `OBUF_BYTES` (R61); raised by the four host operations. Safe. -/
  | outOfRange (i : Nat)
  /-- An access on the flat map of a size its space does not admit (R62); raised by `hostBusRead`, `hostBusWrite`. Safe. -/
  | badWidth (width : AccessWidth)
  /-- A flat address with no space at it (R67); raised by `hostBusRead`, `hostBusWrite`. Safe. -/
  | unmapped (addr : Word)
  deriving DecidableEq, Repr

/-- The reset state of R43 and R221: every register 0 but for the two capacity constants, every byte of the three
memories unspecified (nothing listed), `RLUT` unspecified (log entry 8), the engine idle (R220). -/
def State.reset : State where
  radix := 0
  alen := 0
  cfg := 0
  padsym := 0
  status := { cfgValid := false, mode := .bpc, bits := 0, err := .noError }
  olen := 0
  errpos := 0
  capIbuf := BitVec.ofNat 32 Config.ibufBytes
  capObuf := BitVec.ofNat 32 Config.obufBytes
  sym := []
  rlut := []
  ibuf := []
  obuf := []
  epoch := 0
  draws := 0
  host := []
  reply := .none

end Sys2Proof.Machine
end

