-- ==== Sys2Proof/Machine/Flags.lean ====
section
/-! DEFINITION. The fields of `STATUS` and `CFG`: how each register reads as a 32-bit word and what its bits mean
(spec/10_state.md R24, R27, R36; spec/60_exceptions.md R191). The block has no arithmetic condition codes (R36). -/

namespace Sys2Proof.Machine

/-- The 4-bit code of each outcome (R191). -/
def ErrCode.code : ErrCode → BitVec 4
  | .noError => 0
  | .invalidRadix => 1
  | .invalidAlphabet => 2
  | .invalidSymbol => 3
  | .invalidPadding => 4
  | .trailingBits => 5
  | .illegalCommand => 6
  | .notConfigured => 7
  | .inputLength => 8
  | .outputOverflow => 9

/-- `STATUS.MODE` as its bit: 0 = BPC, 1 = BRC (R27). -/
def Mode.code : Mode → BitVec 1
  | .bpc => 0
  | .brc => 1

/-- `STATUS.CFG_VALID` as its bit (R27). -/
def cfgValidBit (v : Bool) : BitVec 1 := if v then 1 else 0

/-- `STATUS` as the host reads it (R27): `ERR` in [11:8], `BITS` in [5:2], `MODE` in [1], `CFG_VALID` in [0], every other
bit 0. -/
def Status.word (st : Status) : Word :=
  (0 : BitVec 20) ++ st.err.code ++ (0 : BitVec 2) ++ st.bits ++ st.mode.code ++ cfgValidBit st.cfgValid

/-- The three fields of `STATUS` that say whether and how the block is configured, all 0 (R27, R33); `ERR` is kept. -/
def Status.unconfigured (st : Status) : Status := { st with cfgValid := false, mode := .bpc, bits := 0 }

/-- `STATUS` with a new `ERR` (R110, R202). -/
def Status.withErr (st : Status) (e : ErrCode) : Status := { st with err := e }

/-- `STATUS` of a configuration that has just been validated (R102), `ERR` kept. -/
def Status.configured (st : Status) (m : Mode) (b : BitVec 4) : Status :=
  { st with cfgValid := true, mode := m, bits := b }

/-- `CFG.PAD_EN`, bit 0 (R24). -/
def cfgPadEn (cfg : BitVec 6) : Bool := cfg.getLsbD 0

/-- `CFG.PAD_STRICT`, bit 1 (R24). -/
def cfgPadStrict (cfg : BitVec 6) : Bool := cfg.getLsbD 1

/-- `CFG.CASE_INS`, bit 2 (R24). -/
def cfgCaseIns (cfg : BitVec 6) : Bool := cfg.getLsbD 2

/-- `CFG.LENIENT`, bit 3 (R24). -/
def cfgLenient (cfg : BitVec 6) : Bool := cfg.getLsbD 3

/-- `CFG.CODEC`, bits [5:4] (R24). -/
def cfgCodec (cfg : BitVec 6) : Codec :=
  match cfg.getLsbD 5, cfg.getLsbD 4 with
  | false, false => .auto
  | false, true => .bitpack
  | true, false => .bigradix
  | true, true => .reserved

end Sys2Proof.Machine
end

