-- ==== Sys2Proof/Machine/Ops.lean ====
section
/-! DEFINITION. The operations every command and host access is made of: reading and writing one entry of a memory
(spec/20_memory.md R60, R72, R74), ending a command with success (spec/40_commands.md R110) or with an error
(spec/60_exceptions.md R202), dropping a configuration (spec/10_state.md R33), and the registers as the host sees them
(R21).

An error is this block's exception: `raiseErr` is its entry. There is no return from one: "There is no return instruction
and nothing to restore" (R203); the next command simply runs. -/

namespace Sys2Proof.Machine

/-! ### One memory -/

/-- The known byte at an index, if the entry holds one (R74). -/
def Memory.find : Memory → Nat → Option Byte
  | [], _ => none
  | (k, b) :: m, a => if k = a then some b else Memory.find m a

/-- Writes one byte, keeping the entries in rising order of index. -/
def Memory.store : Memory → Nat → Byte → Memory
  | [], a, v => [(a, v)]
  | (k, b) :: m, a, v =>
    if a < k then (a, v) :: (k, b) :: m
    else if a = k then (a, v) :: m
    else (k, b) :: Memory.store m a v

/-- The memory in which the bytes of a sequence stand at consecutive indices from `base` and nothing else is known:
`for i: OBUF[i] <- t[i]`, every other entry unspecified (spec/10_state.md R40). -/
def Memory.ofBytes (base : Nat) : List Byte → Memory
  | [] => []
  | b :: bs => (base, b) :: Memory.ofBytes (base + 1) bs

/-- The canonical form: indices strictly rising (log entry 4). -/
abbrev Memory.wf (m : Memory) : Prop := m.Pairwise (fun c d => c.1 < d.1)

/-! ### The three byte-wide spaces -/

/-- What an index that is not listed reads as (R74): the unknown byte a never-written `SYM` or `IBUF` entry has held
since the last reset, and for `OBUF` a new draw (R68; log entries 2, 3). -/
def State.unlisted (s : State) (sp : Space) (i : Nat) : Byte :=
  match sp with
  | .sym => Config.coldSym s.epoch i
  | .ibuf => Config.coldIbuf s.epoch i
  | .obuf => Config.staleObuf s.draws i

/-- The memory of a space (R60). -/
def State.memory (s : State) : Space → Memory
  | .sym => s.sym
  | .ibuf => s.ibuf
  | .obuf => s.obuf

/-- The byte at an index of a space, as a read now would see it. -/
def State.byteAt (s : State) (sp : Space) (i : Nat) : Byte :=
  (Memory.find (s.memory sp) i).getD (s.unlisted sp i)

/-- `SYM[i]` (R37). -/
def State.symAt (s : State) (i : Nat) : Byte := s.byteAt .sym i

/-- `IBUF[i]` (R39). -/
def State.ibufAt (s : State) (i : Nat) : Byte := s.byteAt .ibuf i

/-- `IBUF_BYTES` of this instance (R30). -/
def State.ibufBytes (s : State) : Nat := s.capIbuf.toNat

/-- `OBUF_BYTES` of this instance (R31). -/
def State.obufBytes (s : State) : Nat := s.capObuf.toNat

/-- The number of entries of a space (R60). -/
def State.spaceSize (s : State) : Space → Nat
  | .sym => 256
  | .ibuf => s.ibufBytes
  | .obuf => s.obufBytes

/-! ### Ending a command -/

/-- Success, `done(n)`: `STATUS.ERR <- 0; OLEN <- n; ERRPOS <- 0` (R110). -/
def State.done (s : State) (n : Nat) : State :=
  { s with status := s.status.withErr .noError, olen := BitVec.ofNat 32 n, errpos := 0 }

/-- Error entry, `raise E(pos)`: `STATUS.ERR <- code(E); ERRPOS <- pos[23:0]; OLEN <- 0`, and nothing else (R202). -/
def State.raiseErr (s : State) (e : ErrCode) (pos : Nat) : State :=
  { s with status := s.status.withErr e, olen := 0, errpos := BitVec.ofNat 24 pos }

/-- `STATUS.CFG_VALID <- 0; STATUS.MODE <- 0; STATUS.BITS <- 0` (R33, R102, R107). -/
def State.dropConfig (s : State) : State := { s with status := s.status.unconfigured }

/-- `OBUF` holds exactly these bytes from index 0 and every entry above them is unspecified (R40). -/
def State.withObuf (s : State) (t : List Byte) : State := { s with obuf := Memory.ofBytes 0 t }

/-- Result delivery, steps 5 and 6 of R108 and R109: `OutputOverflow` if the result is longer than `OBUF_BYTES` (never a
truncated result, R200), else the bytes in `OBUF` and `done(len)`. -/
def State.deliver (s : State) (t : List Byte) : State :=
  if s.obufBytes < t.length then (s.withObuf []).raiseErr .outputOverflow 0
  else (s.withObuf t).done t.length

/-- The pre-checks of ENCODE and DECODE, steps 2 and 3 of R108 and R109: NotConfigured, then InputLength. -/
def State.preCheck (s : State) (len : Nat) : Option ErrCode :=
  if s.status.cfgValid = false then some .notConfigured
  else if s.ibufBytes < len then some .inputLength
  else none

/-! ### The registers as the host sees them -/

/-- The offset of each register in the `REG` space (R21). -/
def RegName.offset : RegName → Nat
  | .radix => 0x00
  | .alen => 0x04
  | .cfg => 0x08
  | .padsym => 0x0C
  | .cmd => 0x10
  | .status => 0x14
  | .olen => 0x18
  | .errpos => 0x1C
  | .capIbuf => 0x20
  | .capObuf => 0x24

/-- The register at an offset; the other offsets up to 0xFC are reserved (R21, R32). -/
def regAt : Nat → Option RegName
  | 0x00 => some .radix
  | 0x04 => some .alen
  | 0x08 => some .cfg
  | 0x0C => some .padsym
  | 0x10 => some .cmd
  | 0x14 => some .status
  | 0x18 => some .olen
  | 0x1C => some .errpos
  | 0x20 => some .capIbuf
  | 0x24 => some .capObuf
  | _ => none

/-- The 32-bit word a register reads as: unimplemented bits 0 (R21), `CMD` always 0 (R26). -/
def State.readReg (s : State) : RegName → Word
  | .radix => s.radix.setWidth 32
  | .alen => s.alen.setWidth 32
  | .cfg => s.cfg.setWidth 32
  | .padsym => s.padsym.setWidth 32
  | .cmd => 0
  | .status => s.status.word
  | .olen => s.olen
  | .errpos => s.errpos.setWidth 32
  | .capIbuf => s.capIbuf
  | .capObuf => s.capObuf

/-- A host write to a register other than `CMD`: the four configuration registers keep the implemented bits of the word
and drop the configuration (R21 to R25, R33); the others ignore it (R21, R27 to R31). `CMD` stores nothing (R26): issuing
its command is `hostRegWrite`'s. -/
def State.writeReg (s : State) (r : RegName) (w : Word) : State :=
  match r with
  | .radix => { s with radix := w.setWidth 9 }.dropConfig
  | .alen => { s with alen := w.setWidth 9 }.dropConfig
  | .cfg => { s with cfg := w.setWidth 6 }.dropConfig
  | .padsym => { s with padsym := w.setWidth 8 }.dropConfig
  | .cmd => s
  | .status => s
  | .olen => s
  | .errpos => s
  | .capIbuf => s
  | .capObuf => s

/-- A host read of one byte (R61): the byte, and the state after it. A read changes nothing (R68), but a read of an
unspecified `OBUF` entry uses up one draw of the model's, so that the next may return another value (log entry 3). -/
def State.hostByte (s : State) (sp : Space) (i : Nat) : Byte × State :=
  match sp, Memory.find s.obuf i with
  | .obuf, none => (s.byteAt sp i, { s with draws := s.draws + 1 })
  | _, _ => (s.byteAt sp i, s)

/-- A host write of one byte (R61): a `SYM` write drops the configuration at any index (R33, R37), an `IBUF` write only
stores (R68), an `OBUF` write is ignored (R40). -/
def State.writeByte (s : State) (sp : Space) (i : Nat) (b : Byte) : State :=
  match sp with
  | .sym => { s with sym := Memory.store s.sym i b }.dropConfig
  | .ibuf => { s with ibuf := Memory.store s.ibuf i b }
  | .obuf => s

/-- The last host operation ended like this (log entry 6). -/
def State.withReply (s : State) (r : Reply) : State := { s with reply := r }

/-- The reset event (R220, R221): the reset state of this instance, its memories holding new unknown values; what the
host does next is the host's (log entry 10). -/
def State.afterReset (s : State) : State :=
  { State.reset with
    capIbuf := s.capIbuf, capObuf := s.capObuf,
    epoch := s.epoch + 1, draws := s.draws, host := s.host }

/-- Applies a change to the state of an outcome that goes on. -/
def onNext (f : State → State) : Host.Outcome State Fault Refusal → Host.Outcome State Fault Refusal
  | .next s => .next (f s)
  | .fault r => .fault r
  | .refused r => .refused r

end Sys2Proof.Machine
end

