-- ==== Sys2Proof/Machine/Operands.lean ====
section
/-! DEFINITION. The operands of the commands (spec/30_encoding.md R83): the alphabet `SYM[0, RADIX)`, the input
`IBUF[0, LEN)`, the case folding of spec/00_scope.md R9, the reverse look-up table `RLUT` and the symbol classification of
spec/40_commands.md R105, and a byte sequence read as one number (spec/20_memory.md R63, R64). -/

namespace Sys2Proof.Machine

/-- `ceil(a/b)` = (a + b − 1) div b (R6). -/
def ceilDiv (a b : Nat) : Nat := (a + b - 1) / b

/-- `fold(c)` (R9): a capital ASCII letter to its small letter, every other code unchanged. -/
def fold (c : Byte) : Byte := if 0x41#8 ≤ c ∧ c ≤ 0x5A#8 then c + 0x20#8 else c

/-- `norm(c)` (R9): folded when `CFG.CASE_INS` = 1. -/
def norm (cfg : BitVec 6) (c : Byte) : Byte := if cfgCaseIns cfg then fold c else c

/-- The alphabet `SYM[0, r)` (R37). -/
def State.alphabet (s : State) (r : Nat) : List Byte := (List.range r).map s.symAt

/-- The input `IBUF[0, LEN)` (R108, R109). -/
def State.input (s : State) (len : Nat) : List Byte := (List.range len).map s.ibufAt

/-- The bytes x[0], ..., x[n−1] as one number, the first most significant: `x[0] ‖ x[1] ‖ ... ‖ x[n−1]` (R63), the sum of
x[i]·256^(n−1−i) (R64); 0 for no bytes. -/
def bytesValue (x : List Byte) : Nat := x.foldl (fun v b => v * 256 + b.toNat) 0

/-- Digits, most significant first, folded to the number they write in a base (R64, R164). -/
def digitsValue (base : Nat) (ds : List Nat) : Nat := ds.foldl (fun v d => v * base + d) 0

/-- The valid entry of `RLUT` for a normalised code (R38). -/
def Rlut.index (t : Rlut) (k : Byte) : Option Byte := List.lookup k t

/-- A symbol class (R105). -/
inductive SymClass where
  | pad
  | data (index : Nat)
  | invalid
  deriving DecidableEq, Repr

/-- `padactive` (R105): `CFG.PAD_EN` = 1 and `STATUS.MODE` = 0. -/
def State.padActive (s : State) : Bool := cfgPadEn s.cfg && decide (s.status.mode = .bpc)

/-- `cls(c)` (R105). -/
def State.cls (s : State) (c : Byte) : SymClass :=
  let k := norm s.cfg c
  if s.padActive = true ∧ k = norm s.cfg s.padsym then .pad
  else
    match Rlut.index s.rlut k with
    | some i => .data i.toNat
    | none => .invalid

/-- A content error of DECODE: its kind and the recorded position (spec/60_exceptions.md R209). -/
structure CmdError where
  kind : ErrCode
  pos : Nat
  deriving DecidableEq, Repr

end Sys2Proof.Machine
end

