-- ==== Sys2Proof/Machine/Bpc.lean ====
section
/-! DEFINITION. The BPC unit: `BPEncode` and `BPDecode` as the functions of spec/41_bitpack.md R131 and R136, the
normative form. The datapath forms of the same functions are in BpcDatapath.lean. -/

namespace Sys2Proof.Machine

/-- b, the bits per symbol: `STATUS.BITS` (R130). -/
def State.width (s : State) : Nat := s.status.bits.toNat

/-- L = lcm(8, b), the bits after which the byte grid and the group grid coincide (R130). -/
def blockBits (b : Nat) : Nat := Nat.lcm 8 b

/-- G = L/8, the bytes of a block (R130). -/
def blockBytes (b : Nat) : Nat := blockBits b / 8

/-- Q = L/b, the symbols of a block (R130). -/
def blockSymbols (b : Nat) : Nat := blockBits b / b

/-- `padcount(n, d)`, its three cases (R132). -/
def padCount (padEn : Bool) (b n d : Nat) : Nat :=
  if padEn = false then 0
  else if 8 * n % b = 0 then 0
  else blockSymbols b - d % blockSymbols b

/-- The number of groups of an input of `n` bytes: d = ceil(8n / b) (R131). -/
def groupCount (b n : Nat) : Nat := ceilDiv (8 * n) b

/-- Group `j` of the bit stream of `x`, first bit most significant, the stream padded on the right with zero bits to a
whole number of groups (R131; the bit order is spec/20_memory.md R63). -/
def groupAt (b : Nat) (x : List Byte) (j : Nat) : Nat :=
  let d := groupCount b x.length
  let f := bytesValue x <<< (d * b - 8 * x.length)
  (f >>> (b * (d - 1 - j))) % 2 ^ b

/-- `BPEncode(x)` (R131). -/
def State.bpEncode (s : State) (x : List Byte) : List Byte :=
  let d := groupCount s.width x.length
  (List.range d).map (fun j => s.symAt (groupAt s.width x j)) ++
    List.replicate (padCount (cfgPadEn s.cfg) s.width x.length d) s.padsym

/-- Step 1 of R136: p, the number of trailing symbols of class PAD. -/
def State.trailingPads (s : State) (text : List Byte) : Nat :=
  (text.reverse.takeWhile (fun c => s.cls c == .pad)).length

/-- The Q of the padding formulas: the block's where padding can be due, and 1 where b divides 8, since no pad is ever due
there (R137; spec/90_conflicts.md C7; log entry 16). -/
def padMultiple (b : Nat) : Nat := if 8 % b = 0 then 1 else blockSymbols b

/-- The pad count the encoder would append after d data symbols: e = (Q − (d mod Q)) mod Q, so 0 for b = 1, 2, 4, 8
(R137). -/
def expectedPads (b d : Nat) : Nat := (padMultiple b - d % padMultiple b) % padMultiple b

/-- `checkpad(d, p)` (R137): is the pad count acceptable? -/
def State.padCountOk (s : State) (d p : Nat) : Bool :=
  !(cfgPadEn s.cfg && cfgPadStrict s.cfg) || p == expectedPads s.width d

/-- Step 2 of R136, from position `i` up: the values of the symbols, or the leftmost position that is not DATA (R138). -/
def State.mapSymbols (s : State) : List Byte → Nat → Except CmdError (List Nat)
  | [], _ => .ok []
  | c :: cs, i =>
    match s.cls c with
    | .pad => .error { kind := .invalidPadding, pos := i }
    | .invalid => .error { kind := .invalidSymbol, pos := i }
    | .data v =>
      match s.mapSymbols cs (i + 1) with
      | .error e => .error e
      | .ok vs => .ok (v :: vs)

/-- Steps 3 and 4 of R136: the values concatenated into one bit stream, the trailing bits checked, the whole bytes cut
(R139). -/
def unpackValues (b : Nat) (lenient : Bool) (vs : List Nat) : Except CmdError (List Byte) :=
  let total := vs.length * b
  let m := total / 8
  let t := total % 8
  let v := digitsValue (2 ^ b) vs
  if 0 < t ∧ v % 2 ^ t ≠ 0 ∧ lenient = false then .error { kind := .trailingBits, pos := 0 }
  else .ok ((List.range m).map (fun j => BitVec.ofNat 8 (v >>> (total - 8 * (j + 1)))))

/-- `BPDecode(s)` (R136). -/
def State.bpDecode (s : State) (text : List Byte) : Except CmdError (List Byte) :=
  let p := s.trailingPads text
  let d := text.length - p
  if s.padCountOk d p = false then .error { kind := .invalidPadding, pos := d }
  else
    match s.mapSymbols (text.take d) 0 with
    | .error e => .error e
    | .ok vs => unpackValues s.width (cfgLenient s.cfg) vs

end Sys2Proof.Machine
end

