-- ==== Sys2Proof/Machine/Brc.lean ====
section
/-! DEFINITION. The BRC unit: `BREncode` and `BRDecode` as the functions of spec/42_bigradix.md R161 and R164 on natural
numbers, the normative form; nothing wraps (R166). The iterative divider and multiplier are in BrcDatapath.lean. The unit
reads `CFG.CASE_INS` only (R160, R171). -/

namespace Sys2Proof.Machine

/-- R = `RADIX` (R160). -/
def State.base (s : State) : Nat := s.radix.toNat

/-- The loop `while N != 0: D <- D ++ [N mod R]; N <- N div R` (R161): the digits, least significant first. The first
argument bounds the number of turns (log entry 13). -/
def digits (base : Nat) : Nat → Nat → List Nat
  | 0, _ => []
  | fuel + 1, n => if n = 0 then [] else n % base :: digits base fuel (n / base)

/-- How many elements at the head of a list are zero: z of R161 and R164. -/
def leadingZeros (l : List Nat) : Nat := (l.takeWhile (fun v => v == 0)).length

/-- `BREncode(x)` (R161). At most 8·m turns of the loop are needed, m the bytes after the leading zeros (R162). -/
def State.brEncode (s : State) (x : List Byte) : List Byte :=
  let z := leadingZeros (x.map BitVec.toNat)
  let y := x.drop z
  List.replicate z (s.symAt 0) ++ (digits s.base (8 * y.length) (bytesValue y)).reverse.map s.symAt

/-- The classification loop of R164, from position `i` up: the digit values, or the leftmost code that is not in the
alphabet. -/
def State.mapDigits (s : State) : List Byte → Nat → Except CmdError (List Nat)
  | [], _ => .ok []
  | c :: cs, i =>
    match s.cls c with
    | .data v =>
      match s.mapDigits cs (i + 1) with
      | .error e => .error e
      | .ok vs => .ok (v :: vs)
    | .pad => .error { kind := .invalidSymbol, pos := i }
    | .invalid => .error { kind := .invalidSymbol, pos := i }

/-- The fold and the minimal big-endian bytes of R164, after the leading zeros: at most one byte per digit (R167). -/
def State.digitBytes (s : State) (vs : List Nat) : List Byte :=
  let z := leadingZeros vs
  let suffix := vs.drop z
  List.replicate z 0 ++
    (digits 256 suffix.length (digitsValue s.base suffix)).reverse.map (BitVec.ofNat 8)

/-- `BRDecode(s)` (R164). -/
def State.brDecode (s : State) (text : List Byte) : Except CmdError (List Byte) :=
  match s.mapDigits text 0 with
  | .error e => .error e
  | .ok vs => .ok (s.digitBytes vs)

end Sys2Proof.Machine
end

