-- ==== Sys2Proof/Machine/Codec.lean ====
section
/-! DEFINITION. ENCODE and DECODE (spec/40_commands.md R108, R109): the pre-checks, the unit that `STATUS.MODE` selects,
the delivery of the result. -/

namespace Sys2Proof.Machine

/-- Step 4 of R108: the text of the input, by the unit `STATUS.MODE` selects. -/
def State.encodeText (s : State) (x : List Byte) : List Byte :=
  match s.status.mode with
  | .bpc => s.bpEncode x
  | .brc => s.brEncode x

/-- Step 4 of R109: the bytes of the text, or its content error, by the unit `STATUS.MODE` selects. -/
def State.decodeText (s : State) (text : List Byte) : Except CmdError (List Byte) :=
  match s.status.mode with
  | .bpc => s.bpDecode text
  | .brc => s.brDecode text

/-- ENCODE `LEN` (R108). Its error never touches `OBUF` in a pre-check. -/
def execEncode (len : Nat) (s : State) : Host.Outcome State Fault Refusal :=
  match s.preCheck len with
  | some e => .next (s.raiseErr e 0)
  | none => .next (s.deliver (s.encodeText (s.input len)))

/-- DECODE `LEN` (R109). A content error comes after the pre-checks, so all of `OBUF` is unspecified after it (R40). -/
def execDecode (len : Nat) (s : State) : Host.Outcome State Fault Refusal :=
  match s.preCheck len with
  | some e => .next (s.raiseErr e 0)
  | none =>
    match s.decodeText (s.input len) with
    | .error e => .next ((s.withObuf []).raiseErr e.kind e.pos)
    | .ok y => .next (s.deliver y)

end Sys2Proof.Machine
end

