-- ==== Sys2Proof/Machine/Configure.lean ====
section
/-! DEFINITION. CONFIGURE and CLEAR (spec/40_commands.md R102 to R107, R111): unit selection, alphabet validation and the
building of `RLUT`. -/

namespace Sys2Proof.Machine

/-- log2(r) for the r that are a power of two from 2 to 256: `pow2(r)` of R103. -/
def log2Radix : Nat → Option (BitVec 4)
  | 2 => some 1
  | 4 => some 2
  | 8 => some 3
  | 16 => some 4
  | 32 => some 5
  | 64 => some 6
  | 128 => some 7
  | 256 => some 8
  | _ => none

/-- `select(r, c)`, the table of R103; `none` is the rows that raise InvalidRadix. `CODEC` = 3 never gets here (R102). -/
def select (r : Nat) (c : Codec) : Option (Mode × BitVec 4) :=
  match c with
  | .auto =>
    match log2Radix r with
    | some b => some (.bpc, b)
    | none => if 3 ≤ r ∧ r ≤ 255 then some (.brc, 0) else none
  | .bitpack =>
    match log2Radix r with
    | some b => some (.bpc, b)
    | none => none
  | .bigradix => if 2 ≤ r ∧ r ≤ 255 then some (.brc, 0) else none
  | .reserved => none

/-- The loop of R104 over the symbols from index `i` up: each normalised code is entered in `RLUT` with its index, unless
its entry is already valid, which is a duplicate (R106). -/
def enterSymbols (cfg : BitVec 6) : List Byte → Nat → Rlut → Option Rlut
  | [], _, t => some t
  | c :: cs, i, t =>
    if (Rlut.index t (norm cfg c)).isSome then none
    else enterSymbols cfg cs (i + 1) (t ++ [(norm cfg c, BitVec.ofNat 8 i)])

/-- `validate(r)` of R104: the `RLUT` it builds, or `none` where it raises InvalidAlphabet. -/
def State.validate (s : State) (r : Nat) : Option Rlut :=
  if s.alen.toNat ≠ r then none
  else
    match enterSymbols s.cfg (s.alphabet r) 0 [] with
    | none => none
    | some t =>
      if cfgPadEn s.cfg = true ∧ (Rlut.index t (norm s.cfg s.padsym)).isSome = true then none else some t

/-- What a successful construction settles: the unit, the group width and `RLUT` (R102). -/
structure Construction where
  mode : Mode
  bits : BitVec 4
  rlut : Rlut
  deriving DecidableEq, Repr

/-- The checks of CONFIGURE in the order of R102 and R201: reserved `CODEC`, radix, alphabet. A function of `RADIX`,
`ALEN`, `CFG`, `PADSYM` and `SYM[0, RADIX)` alone (R111). -/
def State.construct (s : State) : Except ErrCode Construction :=
  if cfgCodec s.cfg = .reserved then .error .illegalCommand
  else
    match select s.radix.toNat (cfgCodec s.cfg) with
    | none => .error .invalidRadix
    | some (m, b) =>
      match s.validate s.radix.toNat with
      | none => .error .invalidAlphabet
      | some t => .ok { mode := m, bits := b, rlut := t }

/-- CONFIGURE (R102): the configuration is dropped first, so that it stays dropped on every failure. -/
def execConfigure (s : State) : Host.Outcome State Fault Refusal :=
  match s.construct with
  | .error e => .next (s.dropConfig.raiseErr e 0)
  | .ok c => .next ({ s with status := s.status.configured c.mode c.bits, rlut := c.rlut }.done 0)

/-- CLEAR (R107): every register to its reset value, the memories as they were. -/
def execClear (s : State) : Host.Outcome State Fault Refusal :=
  .next ({ s with radix := 0, alen := 0, cfg := 0, padsym := 0 }.dropConfig.done 0)

end Sys2Proof.Machine
end

