-- ==== Sys2Proof/Machine/HostAccess.lean ====
section
/-! DEFINITION. The host operations of spec/20_memory.md R61, each atomic (R68, R69), the issue of a command
(spec/40_commands.md R101), the flat address map of R67 and the reset event (spec/70_reset_and_hazards.md R220). -/

namespace Sys2Proof.Machine

/-- Command issue (R101): the word decodes to a command, which runs to its end, or is illegal and reports IllegalCommand
with nothing else changed (spec/30_encoding.md R85, R90). -/
def issue (w : Word) (s : State) : Host.Outcome State Fault Refusal :=
  match decodeWord w with
  | .ok i => exec i s
  | .error _ => .next (s.raiseErr .illegalCommand 0)

/-- Is the offset one a `REG` access may name (R61, R62)? The refusal if not: an offset above 0xFC, or not a multiple
of 4. -/
def regRefusal (off : Nat) : Option Refusal :=
  if 0xFC < off then some (.outOfRange off) else if off % 4 ≠ 0 then some (.misalignedReg off) else none

/-- `RegRead(off)` (R61): reads have no side effect (R68), a reserved offset reads 0 (R32). -/
def hostRegRead (off : Nat) (s : State) : Host.Outcome State Fault Refusal :=
  match regRefusal off with
  | some r => .refused r
  | none =>
    match regAt off with
    | some r => .next (s.withReply (.word (s.readReg r)))
    | none => .next (s.withReply (.word 0))

/-- `RegWrite(off, w)` (R61): at `CMD` it issues the command and completes when the command has ended (R26, R100), at a
reserved offset it is ignored (R32). -/
def hostRegWrite (off : Nat) (w : Word) (s : State) : Host.Outcome State Fault Refusal :=
  match regRefusal off with
  | some r => .refused r
  | none =>
    match regAt off with
    | some .cmd => onNext (fun t => t.withReply .ack) (issue w s)
    | some r => .next ((s.writeReg r w).withReply .ack)
    | none => .next (s.withReply .ack)

/-- `ByteRead(space, i)` (R61). -/
def hostByteRead (sp : Space) (i : Nat) (s : State) : Host.Outcome State Fault Refusal :=
  if s.spaceSize sp ≤ i then .refused (.outOfRange i)
  else .next ((s.hostByte sp i).2.withReply (.byte (s.hostByte sp i).1))

/-- `ByteWrite(space, i, b)` (R61). -/
def hostByteWrite (sp : Space) (i : Nat) (b : Byte) (s : State) : Host.Outcome State Fault Refusal :=
  if s.spaceSize sp ≤ i then .refused (.outOfRange i)
  else .next ((s.writeByte sp i b).withReply .ack)

/-- What a flat address names (R67). -/
inductive FlatTarget where
  | reg (off : Nat)
  | entry (sp : Space) (i : Nat)
  deriving DecidableEq, Repr

/-- The flat address map of R67; `none` is "refused". -/
def State.flatTarget (s : State) (addr : Word) : Option FlatTarget :=
  let a := addr.toNat
  if a < 0x100 then some (.reg a)
  else if a < 0x200 then some (.entry .sym (a - 0x100))
  else if 0x10000000 ≤ a ∧ a < 0x10000000 + s.ibufBytes then some (.entry .ibuf (a - 0x10000000))
  else if 0x20000000 ≤ a ∧ a < 0x20000000 + s.obufBytes then some (.entry .obuf (a - 0x20000000))
  else none

/-- A read on the flat map: a word of `REG` or a byte of another space, every other size refused (R62, R67). -/
def hostBusRead (addr : Word) (width : AccessWidth) (s : State) : Host.Outcome State Fault Refusal :=
  match s.flatTarget addr, width with
  | none, _ => .refused (.unmapped addr)
  | some (.reg off), .word => hostRegRead off s
  | some (.entry sp i), .byte => hostByteRead sp i s
  | some _, w => .refused (.badWidth w)

/-- The size of a write's data. -/
def BusData.width : BusData → AccessWidth
  | .byte _ => .byte
  | .half _ => .half
  | .word _ => .word

/-- A write on the flat map (R62, R67). -/
def hostBusWrite (addr : Word) (data : BusData) (s : State) : Host.Outcome State Fault Refusal :=
  match s.flatTarget addr, data with
  | none, _ => .refused (.unmapped addr)
  | some (.reg off), .word w => hostRegWrite off w s
  | some (.entry sp i), .byte b => hostByteWrite sp i b s
  | some _, d => .refused (.badWidth d.width)

/-- One host operation, or one reset event, from its start to its end (R61, R69, R220). A command that a reset
interrupts leaves nothing behind but the reset state (log entry 10). -/
def hostStep (op : HostOp) (s : State) : Host.Outcome State Fault Refusal :=
  match op with
  | .regRead off => hostRegRead off s
  | .regWrite off w => hostRegWrite off w s
  | .byteRead sp i => hostByteRead sp i s
  | .byteWrite sp i b => hostByteWrite sp i b s
  | .busRead addr width => hostBusRead addr width s
  | .busWrite addr data => hostBusWrite addr data s
  | .reset => .next s.afterReset
  | .resetDuring _ => .next s.afterReset

end Sys2Proof.Machine
end

