-- ==== Sys2Proof/Machine/Step.lean ====
section
/-! DEFINITION. One step of the block: the host's next operation, from start to end (spec/20_memory.md R69,
spec/40_commands.md R100). With no operation to come the block is idle and holds all its state (spec/60_exceptions.md
R204). -/

namespace Sys2Proof.Machine

/-- One step (R69): the host operation at the head of the sequence, or nothing. -/
def step (s : State) : Host.Outcome State Fault Refusal :=
  match s.host with
  | [] => .next s
  | op :: rest => hostStep op { s with host := rest }

/-- The state in which the host's next operation writes the command word to `CMD` (offset 0x10, R101): the block fetches
no instruction (R71), so this is how an instruction reaches it (log entry 5). -/
def State.withFetchWord (s : State) (nbits w : Nat) : State :=
  { s with host := .regWrite 0x10 (tableWord nbits w) :: s.host }

end Sys2Proof.Machine
end

