-- ==== Sys2Proof/Machine/BpcDatapath.lean ====
section
/-! DEFINITION. The BPC unit as the hardware's datapaths compute it (spec/41_bitpack.md R134, R135, R141, R142): the serial
shifter and the parallel lanes, with the working registers of spec/10_state.md R41 at their stated widths. No register of
this file outlives its command (R41; log entry 9). That each form computes the function of Bpc.lean is stated as an
obligation. -/

namespace Sys2Proof.Machine

/-- `MASK` = 2^b − 1 (R130), at the width of the register it masks. -/
def groupMask (n b : Nat) : BitVec n := BitVec.ofNat n (2 ^ b - 1)

/-! ### The serial shifter (R134, R141) -/

/-- The serial shifter's working state: `ACC`, 15 bits, `NBITS`, 0 to 15, and what has been written to `OBUF` so far. -/
structure Shifter where
  acc : BitVec 15
  nbits : Nat
  out : List Byte
  deriving DecidableEq, Repr

/-- The shifter at the start of a command. -/
def Shifter.start : Shifter := { acc := 0, nbits := 0, out := [] }

/-- The inner loop of R134, `while NBITS >= b`: the first argument bounds the number of turns, and `NBITS` itself is
enough of them. -/
def State.emitGroups (s : State) : Nat → Shifter → Shifter
  | 0, r => r
  | fuel + 1, r =>
    if s.width ≤ r.nbits then
      let v := (r.acc >>> (r.nbits - s.width)) &&& groupMask 15 s.width
      s.emitGroups fuel { r with nbits := r.nbits - s.width, out := r.out ++ [s.symAt v.toNat] }
    else r

/-- One byte into the shifter of R134. -/
def State.packByte (s : State) (r : Shifter) (x : Byte) : Shifter :=
  let loaded : Shifter := { r with acc := (r.acc <<< 8) ||| x.setWidth 15, nbits := r.nbits + 8 }
  let r' := s.emitGroups loaded.nbits loaded
  { r' with acc := r'.acc &&& groupMask 15 r'.nbits }

/-- The padding loop of R134, `while o mod Q != 0`: at most `Q` turns. -/
def padOutput (q : Nat) (pad : Byte) : Nat → List Byte → List Byte
  | 0, out => out
  | fuel + 1, out => if out.length % q ≠ 0 then padOutput q pad fuel (out ++ [pad]) else out

/-- The serial shifter form of `BPEncode` (R134). -/
def State.bpEncodeSerial (s : State) (x : List Byte) : List Byte :=
  let r := x.foldl s.packByte Shifter.start
  let out :=
    if 0 < r.nbits then
      r.out ++ [s.symAt ((r.acc <<< (s.width - r.nbits)) &&& groupMask 15 s.width).toNat]
    else r.out
  if cfgPadEn s.cfg then padOutput (blockSymbols s.width) s.padsym (blockSymbols s.width) out else out

/-- The loop of R141 over the data symbols from position `i` up. -/
def State.unpackSerial (s : State) : List Byte → Nat → Shifter → Except CmdError Shifter
  | [], _, r => .ok r
  | c :: cs, i, r =>
    match s.cls c with
    | .pad => .error { kind := .invalidPadding, pos := i }
    | .invalid => .error { kind := .invalidSymbol, pos := i }
    | .data v =>
      let acc := (r.acc <<< s.width) ||| BitVec.ofNat 15 v
      let nbits := r.nbits + s.width
      if 8 ≤ nbits then
        let out := r.out ++ [(acc >>> (nbits - 8)).setWidth 8]
        s.unpackSerial cs (i + 1) { acc := acc &&& groupMask 15 (nbits - 8), nbits := nbits - 8, out := out }
      else s.unpackSerial cs (i + 1) { r with acc := acc, nbits := nbits }

/-- The serial shifter form of `BPDecode` (R141), after step 1 of R136. -/
def State.bpDecodeSerial (s : State) (text : List Byte) : Except CmdError (List Byte) :=
  let p := s.trailingPads text
  let d := text.length - p
  if s.padCountOk d p = false then .error { kind := .invalidPadding, pos := d }
  else
    match s.unpackSerial (text.take d) 0 Shifter.start with
    | .error e => .error e
    | .ok r =>
      if r.acc ≠ 0 ∧ cfgLenient s.cfg = false then .error { kind := .trailingBits, pos := 0 } else .ok r.out

/-! ### The parallel lanes (R135, R142) -/

/-- The window `W` with the fields of a list of values set in it left-aligned: field `i`, `w` bits wide, is shifted left
by L − w·(i+1) (R135, R142). -/
def window (l w : Nat) (vs : List Nat) : BitVec 56 :=
  ((vs.zipIdx).map (fun p => BitVec.ofNat 56 p.1 <<< (l - w * (p.2 + 1)))).foldl (· ||| ·) 0

/-- Lane `i` of a window: shift, then mask (R135, R142). -/
def lane (l w : Nat) (win : BitVec 56) (i : Nat) : Nat := ((win >>> (l - w * (i + 1))) &&& groupMask 56 w).toNat

/-- What lane `j` of a block of the pack shifter emits: a symbol, a pad symbol, or nothing (R135). -/
def State.packLane (s : State) (block : List Byte) (j : Nat) : List Byte :=
  let b := s.width
  if j < ceilDiv (8 * block.length) b then
    [s.symAt (lane (blockBits b) b (window (blockBits b) 8 (block.map BitVec.toNat)) j)]
  else if cfgPadEn s.cfg = true ∧ block.length < blockBytes b then [s.padsym]
  else []

/-- Block `k` of a list cut into blocks of `g` (R135, R142). -/
def blockAt {α : Type} (g : Nat) (x : List α) (k : Nat) : List α := (x.drop (k * g)).take g

/-- The parallel lane form of `BPEncode` (R135): the outputs of the blocks in block order. -/
def State.bpEncodeLanes (s : State) (x : List Byte) : List Byte :=
  (List.range (ceilDiv x.length (blockBytes s.width))).flatMap
    (fun k => (List.range (blockSymbols s.width)).flatMap (s.packLane (blockAt (blockBytes s.width) x k)))

/-- The whole bytes of one block of the unpack shifter (R142). -/
def unpackBlock (b : Nat) (vs : List Nat) : List Byte :=
  (List.range (b * vs.length / 8)).map
    (fun i => BitVec.ofNat 8 (lane (blockBits b) 8 (window (blockBits b) b vs) i))

/-- The trailing bits of one block of the unpack shifter (R142). -/
def blockTrailing (b : Nat) (vs : List Nat) : BitVec 56 :=
  (window (blockBits b) b vs >>> (blockBits b - b * vs.length)) &&& groupMask 56 (b * vs.length % 8)

/-- The parallel lane form of steps 3 and 4 of `BPDecode` (R142): every block cut into bytes, the trailing bits of each
checked. -/
def unpackLanes (b : Nat) (lenient : Bool) (vs : List Nat) : Except CmdError (List Byte) :=
  let blocks := (List.range (ceilDiv vs.length (blockSymbols b))).map (blockAt (blockSymbols b) vs)
  if blocks.any (fun c => decide (0 < b * c.length % 8 ∧ blockTrailing b c ≠ 0)) = true ∧ lenient = false then
    .error { kind := .trailingBits, pos := 0 }
  else .ok (blocks.flatMap (unpackBlock b))

/-- The parallel lane form of `BPDecode` (R142), after step 1 and after every data symbol has been classified. -/
def State.bpDecodeLanes (s : State) (text : List Byte) : Except CmdError (List Byte) :=
  let p := s.trailingPads text
  let d := text.length - p
  if s.padCountOk d p = false then .error { kind := .invalidPadding, pos := d }
  else
    match s.mapSymbols (text.take d) 0 with
    | .error e => .error e
    | .ok vs => unpackLanes s.width (cfgLenient s.cfg) vs

end Sys2Proof.Machine
end

