-- ==== Sys2Proof/Machine/BrcDatapath.lean ====
section
/-! DEFINITION. The BRC unit as the hardware's datapaths compute it (spec/42_bigradix.md R163, R165): the iterative divider
with remainder chaining and the iterative multiplier with carry propagation, in 8-bit limbs with a 16-bit `cur`. No
register of this file outlives its command (spec/10_state.md R41; log entry 9). That each form computes the function of
Brc.lean is stated as an obligation. -/

namespace Sys2Proof.Machine

/-- `RADIX` at the width of `cur`. -/
def State.base16 (s : State) : BitVec 16 := s.radix.setWidth 16

/-- One pass of the divider over the limbs, most significant first (R163): the quotient limbs and the last remainder. -/
def divPass (r : BitVec 16) : Byte → List Byte → List Byte × Byte
  | rem, [] => ([], rem)
  | rem, limb :: limbs =>
    let cur : BitVec 16 := rem ++ limb
    let (quot, last) := divPass r ((cur % r).setWidth 8) limbs
    ((cur / r).setWidth 8 :: quot, last)

/-- The passes of the divider (R163): each pushes its remainder on `STACK` and skips the limbs that have become zero,
until none is left. The first argument bounds the number of passes, and the stack's top is the head of the list. -/
def divPasses (r : BitVec 16) : Nat → List Byte → List Byte → List Byte
  | 0, _, stack => stack
  | fuel + 1, wmem, stack =>
    match wmem with
    | [] => stack
    | limb :: limbs =>
      let (quot, rem) := divPass r 0 (limb :: limbs)
      divPasses r fuel (quot.dropWhile (fun l => l == 0)) (rem :: stack)

/-- The iterative divider form of `BREncode` (R163): the stack is popped from its top, most significant digit first. -/
def State.brEncodeDivider (s : State) (x : List Byte) : List Byte :=
  let z := leadingZeros (x.map BitVec.toNat)
  let wmem := x.drop z
  List.replicate z (s.symAt 0) ++
    (divPasses s.base16 (8 * wmem.length) wmem []).map (fun d => s.symAt d.toNat)

/-- One pass of the multiplier over the limbs of `A`, least significant first, `acc <- acc*R + v` (R165): `cur[7:0]` stays,
`cur[15:8]` is the carry into the next limb, and a last carry that is not 0 is a new top limb. -/
def mulPass (r : BitVec 16) : Byte → List Byte → List Byte
  | carry, [] => if carry ≠ 0 then [carry] else []
  | carry, a :: as =>
    let cur : BitVec 16 := a.setWidth 16 * r + carry.setWidth 16
    cur.extractLsb' 0 8 :: mulPass r (cur.extractLsb' 8 8) as

/-- The iterative multiplier form of `BRDecode` (R165), `A` read from its top limb down. -/
def State.brDecodeMultiplier (s : State) (text : List Byte) : Except CmdError (List Byte) :=
  match s.mapDigits text 0 with
  | .error e => .error e
  | .ok vs =>
    let z := leadingZeros vs
    let a := (vs.drop z).foldl (fun a v => mulPass s.base16 (BitVec.ofNat 8 v) a) []
    .ok (List.replicate z 0 ++ a.reverse)

end Sys2Proof.Machine
end

