-- ==== Sys2Proof/Safety.lean ====
section
/-! DEFINITION. The terms the statements use: what every reachable state satisfies (`State.Inv`), what a configured block is
(`State.Ready`), and the spec's own descriptions of a bit stream, an alphabet and a case-insensitive match, written without
the model's meanings so that a statement can hold the two against each other. -/

namespace Sys2Proof.Machine

/-! ### The invariant -/

/-- Every listed index is below the size of its space (spec/20_memory.md R60). -/
def Memory.within (m : Memory) (size : Nat) : Prop := ∀ c ∈ m, c.1 < size

/-- The three memories are in canonical form and list no entry outside their space. -/
def State.MemoryInv (s : State) : Prop :=
  Memory.wf s.sym ∧ Memory.wf s.ibuf ∧ Memory.wf s.obuf ∧
  Memory.within s.sym 256 ∧ Memory.within s.ibuf s.ibufBytes ∧ Memory.within s.obuf s.obufBytes

/-- The two capacities are in the range of spec/00_scope.md R5. -/
def State.CapacityInv (s : State) : Prop :=
  (1 ≤ s.ibufBytes ∧ s.ibufBytes ≤ 16777215) ∧ (1 ≤ s.obufBytes ∧ s.obufBytes ≤ 268435456)

/-- What CONFIGURE would settle is what `STATUS` and `RLUT` hold (spec/10_state.md R38). -/
def State.ConfigHeld (s : State) : Prop :=
  s.construct = .ok { mode := s.status.mode, bits := s.status.bits, rlut := s.rlut }

/-- `CFG_VALID` = 1 only while the configuration state passes the checks, and `MODE` and `BITS` are 0 whenever
`CFG_VALID` = 0 (spec/10_state.md R27, R33, R38). -/
def State.ConfigInv (s : State) : Prop :=
  (s.status.cfgValid = true → s.ConfigHeld) ∧
  (s.status.cfgValid = false → s.status.mode = .bpc ∧ s.status.bits = 0)

/-- What the result registers say is there (spec/10_state.md R28, R29, R40): no length after an error, a position only for
the two errors that have one, and every entry below `OLEN` specified. -/
def State.ResultInv (s : State) : Prop :=
  (s.status.err ≠ .noError → s.olen = 0) ∧
  (s.status.err ≠ .invalidSymbol → s.status.err ≠ .invalidPadding → s.errpos = 0) ∧
  (∀ i < s.olen.toNat, (Memory.find s.obuf i).isSome = true)

/-- What every step keeps. -/
def State.Inv (s : State) : Prop := s.MemoryInv ∧ s.CapacityInv ∧ s.ConfigInv ∧ s.ResultInv

/-! ### A configured block -/

/-- The block is configured for a unit: `CFG_VALID` = 1, `MODE` names the unit, and the configuration state is the one that
was validated. In a state that meets `State.Inv` this is `CFG_VALID` = 1 and `MODE`. -/
def State.Ready (s : State) (m : Mode) : Prop :=
  s.status.cfgValid = true ∧ s.status.mode = m ∧ s.ConfigHeld

/-- r is 2^b for a b from 1 to 8: `pow2(r)` of spec/40_commands.md R103. -/
abbrev IsPow2Radix (r : Nat) : Prop := r = 2 ∨ r = 4 ∨ r = 8 ∨ r = 16 ∨ r = 32 ∨ r = 64 ∨ r = 128 ∨ r = 256

/-- The rows of the table of R103 that raise InvalidRadix, in the words of spec/60_exceptions.md R192. -/
def RadixRejected (r : Nat) : Codec → Prop
  | .auto => r = 0 ∨ r = 1 ∨ 256 < r
  | .bitpack => ¬ IsPow2Radix r
  | .bigradix => r < 2 ∨ 255 < r
  | .reserved => False

/-- The three causes of InvalidAlphabet (spec/60_exceptions.md R193): the count, a duplicate, a pad that collides. -/
def State.AlphabetRejected (s : State) : Prop :=
  s.alen ≠ s.radix ∨
  (∃ i j, i < j ∧ j < s.radix.toNat ∧ norm s.cfg (s.symAt i) = norm s.cfg (s.symAt j)) ∨
  (cfgPadEn s.cfg = true ∧ ∃ i, i < s.radix.toNat ∧ norm s.cfg (s.symAt i) = norm s.cfg s.padsym)

/-- The unit and the width the rows of R103 that raise nothing give: BPC with b = log2(r), or BRC with b = 0. -/
def SelectedUnit (r : Nat) (c : Codec) (m : Mode) (b : BitVec 4) : Prop :=
  (m = .bpc ∧ (c = .auto ∨ c = .bitpack) ∧ 1 ≤ b.toNat ∧ b.toNat ≤ 8 ∧ r = 2 ^ b.toNat) ∨
  (m = .brc ∧ b = 0 ∧ c = .auto ∧ ¬ IsPow2Radix r ∧ 3 ≤ r ∧ r ≤ 255) ∨
  (m = .brc ∧ b = 0 ∧ c = .bigradix ∧ 2 ≤ r ∧ r ≤ 255)

/-! ### Texts and bit streams -/

/-- Bit `t` of the stream of a byte sequence, counting from 0 at the left: bit 7 − (t mod 8) of byte t div 8
(spec/20_memory.md R63), and 0 past its end, which is the padding of the final group (spec/41_bitpack.md R131). -/
def streamBit (x : List Byte) (t : Nat) : Bool := (x.getD (t / 8) 0).getLsbD (7 - t % 8)

/-- Bit `t` of the stream of a list of b-bit values, each value's most significant bit first (R63). -/
def valueBit (b : Nat) (vs : List Nat) (t : Nat) : Bool := (vs.getD (t / b) 0).testBit (b - 1 - t % b)

/-- The number that `n` bits of a stream from bit `start` on write, the first bit most significant (R63). -/
def bitsValue (bit : Nat → Bool) (start n : Nat) : Nat :=
  (List.range n).foldl (fun v k => 2 * v + (bit (start + k)).toNat) 0

/-- The pad count after d data symbols: (Q − (d mod Q)) mod Q with Q = lcm(8, b)/b (spec/41_bitpack.md R132, R137), and
always 0 where b divides 8, for b = 1, 2, 4, 8 (R137; spec/90_conflicts.md C7; log entry 16). -/
def padsAfter (b d : Nat) : Nat :=
  if 8 % b = 0 then 0 else (Nat.lcm 8 b / b - d % (Nat.lcm 8 b / b)) % (Nat.lcm 8 b / b)

/-- The code `c` matches symbol `v` of the alphabet: equal after the normalisation of spec/00_scope.md R9. -/
def State.IsSymbol (s : State) (c : Byte) (v : Nat) : Prop :=
  v < s.radix.toNat ∧ norm s.cfg (s.symAt v) = norm s.cfg c

/-- The code `c` is the pad symbol (spec/40_commands.md R105, BPC mode). -/
def State.IsPad (s : State) (c : Byte) : Prop :=
  cfgPadEn s.cfg = true ∧ norm s.cfg c = norm s.cfg s.padsym

/-- A text whose codes match the symbols `vs`, one for one. -/
def State.Spells (s : State) (text : List Byte) (vs : List Nat) : Prop :=
  text.length = vs.length ∧ ∀ i < vs.length, s.IsSymbol (text.getD i 0) (vs.getD i 0)

/-- `OBUF[0, OLEN)` holds exactly this sequence, as the host reads it after a success (spec/10_state.md R40). -/
def State.Holds (s : State) (t : List Byte) : Prop :=
  s.olen.toNat = t.length ∧ ∀ i < t.length, Memory.find s.obuf i = some (t.getD i 0)

/-- The command before this state ended with success: `STATUS.ERR` = 0 and `ERRPOS` = 0 (spec/40_commands.md R110). -/
def State.Succeeded (s : State) : Prop := s.status.err = .noError ∧ s.errpos = 0

/-- The state after a failed command that got past the pre-checks: all of `OBUF` unspecified, the error reported (R40,
spec/60_exceptions.md R202). -/
def State.failed (s : State) (e : ErrCode) (pos : Nat) : State :=
  { s with
    status := { s.status with err := e }, olen := 0, errpos := BitVec.ofNat 24 pos, obuf := [] }

/-- Two states agree on all the host can see or set but `OBUF` and the three result fields: what ENCODE and DECODE leave
unchanged (spec/40_commands.md R108, R109). Every byte of `SYM` and `IBUF` reads as before. -/
def State.SameButResult (s t : State) : Prop :=
  t.radix = s.radix ∧ t.alen = s.alen ∧ t.cfg = s.cfg ∧ t.padsym = s.padsym ∧
  t.capIbuf = s.capIbuf ∧ t.capObuf = s.capObuf ∧
  t.status.cfgValid = s.status.cfgValid ∧ t.status.mode = s.status.mode ∧ t.status.bits = s.status.bits ∧
  t.rlut = s.rlut ∧
  (∀ i, t.byteAt .sym i = s.byteAt .sym i) ∧ (∀ i, t.byteAt .ibuf i = s.byteAt .ibuf i) ∧
  t.epoch = s.epoch ∧ t.draws = s.draws ∧ t.host = s.host ∧ t.reply = s.reply

end Sys2Proof.Machine
end

