-- ==== Sys2Proof/Certificates/Slice0/Obligations.lean ====
section
/-! DEFINITION. The statements about the block for the provers, in the order of the spec's files. Each docstring names the
rules it formalises. "Ready" is a block whose CONFIGURE succeeded and whose configuration has not been written since
(`State.Ready`); `State.Inv` is the invariant of Safety.lean. No statement rests on a value the spec leaves unspecified. -/

open Sys2Proof Sys2Proof.Machine

/-! ### Command words -/

/-- A few words written out from the opcode map of R84 decode to the commands they stand for; 0xFFFFFF02 is the largest
`LEN`. A sanity statement. -/
def Obligations.CommandWordsDecodeAsWritten : Prop :=
  decodeWord 0x00000001#32 = .ok .configure ∧
  decodeWord 0x00000402#32 = .ok (.encode 4) ∧
  decodeWord 0xFFFFFF02#32 = .ok (.encode 16777215) ∧
  decodeWord 0x00000803#32 = .ok (.decode 8) ∧
  decodeWord 0x00000004#32 = .ok .clear

/-- R84: a word selects a row exactly when `w & mask == match`, the decoder gives exactly the command of the row selected,
the rows are pairwise exclusive, `LEN` is `w[31:8]`, and a word that matches no row is illegal. -/
def Obligations.DecoderFollowsOpcodeMap : Prop :=
  ∀ w : Word,
    (∀ r ∈ opcodeRows, (r.selects w = true ↔ ∃ i, decodeWord w = .ok i ∧ i.mnemonic = r.mnemonic)) ∧
    (∀ r ∈ opcodeRows, ∀ r' ∈ opcodeRows, r.selects w = true → r'.selects w = true → r = r') ∧
    (∀ n, decodeWord w = .ok (.encode n) ∨ decodeWord w = .ok (.decode n) → n = w.toNat / 256) ∧
    ((∀ r ∈ opcodeRows, r.selects w = false) → ∃ e, decodeWord w = .error e)

/-- Decode and encode agree (R83, R84, R90): decoding the word of a well-formed command gives the command back, with every
operand at every value; and every legal word is the word of the well-formed command it decodes to. -/
def Obligations.DecodingInvertsEncoding : Prop :=
  (∀ i : Instr, i.wf = true → decodeWord (encodeInstr i) = .ok i) ∧
  (∀ (w : Word) (i : Instr), decodeWord w = .ok i → i.wf = true ∧ encodeInstr i = w)

/-- R85: writing an illegal word to `CMD` runs no command: `STATUS.ERR <- 6`, `OLEN <- 0`, `ERRPOS <- 0`, and nothing else
changes. -/
def Obligations.IllegalWordOnlyReportsIllegalCommand : Prop :=
  ∀ (s : State) (w : Word) (rest : List HostOp),
    ((w.extractLsb' 0 8 = 0#8 ∨ 5#8 ≤ w.extractLsb' 0 8) ∨
      ((w.extractLsb' 0 8 = 1#8 ∨ w.extractLsb' 0 8 = 4#8) ∧ w.extractLsb' 8 24 ≠ 0#24)) →
    s.host = .regWrite 0x10 w :: rest →
    ErrCode.illegalCommand.code = 6#4 ∧
    step s = .next
      { s with
        host := rest, reply := .ack,
        status := { s.status with err := .illegalCommand }, olen := 0, errpos := 0 }

/-- R101 (and the host sequence of R69): when the host's next operation writes a word to `CMD` that decodes to a command,
the step is that command's, on the state whose host sequence has moved on by one operation, and the write completes when
the command has ended (R100); `withFetchWord` places exactly such a write. With no operation to come the block is idle and
holds all its state (R204). -/
def Obligations.StepRunsDecodedCommand : Prop :=
  (∀ (s : State) (w : Word) (i : Instr) (rest : List HostOp),
    s.host = .regWrite 0x10 w :: rest → decodeWord w = .ok i →
    step s = onNext (fun t => { t with reply := .ack }) (exec i { s with host := rest })) ∧
  (∀ (s : State) (i : Instr), i.wf = true →
    step (s.withFetchWord 32 (encodeInstr i).toNat) = onNext (fun t => { t with reply := .ack }) (exec i s)) ∧
  (∀ s : State, s.host = [] → step s = .next s)

/-! ### Every command -/

/-- R190, R101, R209: every command ends in a next state, and whatever it was, its three result fields obey R28 and R29: no
length after an error, and a position only for InvalidSymbol and InvalidPadding. -/
def Obligations.EveryCommandEndsAndReports : Prop :=
  ∀ (i : Instr) (s : State), ∃ t, exec i s = .next t ∧
    (t.status.err ≠ .noError → t.olen = 0) ∧
    (t.status.err ≠ .invalidSymbol → t.status.err ≠ .invalidPadding → t.errpos = 0)

/-- R191: the codes of the errors, all below 10, and which command can report which: CONFIGURE 1, 2 and 6; ENCODE 7, 8
and 9; DECODE 3, 4, 5, 7, 8 and 9; CLEAR none; IllegalCommand any `CMD` write whose word is illegal. -/
def Obligations.ErrorsOfEachCommand : Prop :=
  ([ErrCode.noError, .invalidRadix, .invalidAlphabet, .invalidSymbol, .invalidPadding, .trailingBits, .illegalCommand,
      .notConfigured, .inputLength, .outputOverflow].map (fun e => e.code.toNat) = List.range 10) ∧
  (∀ e : ErrCode, e.code.toNat < 10) ∧
  (∀ (s t : State), exec .configure s = .next t →
    t.status.err ∈ [ErrCode.noError, .invalidRadix, .invalidAlphabet, .illegalCommand]) ∧
  (∀ (s t : State) (n : Nat), exec (.encode n) s = .next t →
    t.status.err ∈ [ErrCode.noError, .notConfigured, .inputLength, .outputOverflow]) ∧
  (∀ (s t : State) (n : Nat), exec (.decode n) s = .next t →
    t.status.err ∈ [ErrCode.noError, .invalidSymbol, .invalidPadding, .trailingBits, .notConfigured, .inputLength,
      .outputOverflow]) ∧
  (∀ (s t : State), exec .clear s = .next t → t.status.err = .noError) ∧
  (∀ (s t : State) (w : Word), issue w s = .next t → (∃ e, decodeWord w = .error e) →
    t.status.err = .illegalCommand)

/-- R195, R196 (who can report them, and when): of all commands only DECODE, and that in BPC mode only, reports InvalidPadding
or TrailingBits: InvalidPadding only with `CFG.PAD_EN` = 1 and TrailingBits only with `CFG.LENIENT` = 0, and TrailingBits
records 0. -/
def Obligations.ContentErrorsNeedTheirPolicy : Prop :=
  ∀ (i : Instr) (s t : State), exec i s = .next t →
    (t.status.err = .invalidPadding →
      (∃ n, i = .decode n) ∧ s.status.mode = .bpc ∧ cfgPadEn s.cfg = true) ∧
    (t.status.err = .trailingBits →
      (∃ n, i = .decode n) ∧ s.status.mode = .bpc ∧ cfgLenient s.cfg = false ∧ t.errpos = 0)

/-- R208: on success `OBUF[0, OLEN)` is exactly the function value, which for CONFIGURE and CLEAR is no byte; on any failure
of any command, an illegal word among them, `OLEN` = 0. -/
def Obligations.NoSilentFailure : Prop :=
  ∀ (s t : State) (n : Nat),
    (exec (.encode n) s = .next t → t.status.err = .noError → t.Holds (s.encodeText (s.input n))) ∧
    (exec (.decode n) s = .next t → t.status.err = .noError → ∃ y, s.decodeText (s.input n) = .ok y ∧ t.Holds y) ∧
    (exec .configure s = .next t ∨ exec .clear s = .next t → t.Holds []) ∧
    (∀ w : Word, issue w s = .next t → t.status.err ≠ .noError → t.olen = 0)

/-- R37, R39 (frame over all commands): no command writes `SYM` or `IBUF` or a capacity constant or touches the host's
sequence, and none but CLEAR changes `RADIX`, `ALEN`, `CFG` or `PADSYM`. -/
def Obligations.CommandsKeepInputsAndConfiguration : Prop :=
  ∀ (i : Instr) (s t : State), exec i s = .next t →
    (∀ a, t.byteAt .sym a = s.byteAt .sym a) ∧ (∀ a, t.byteAt .ibuf a = s.byteAt .ibuf a) ∧
    t.capIbuf = s.capIbuf ∧ t.capObuf = s.capObuf ∧
    t.epoch = s.epoch ∧ t.draws = s.draws ∧ t.host = s.host ∧ t.reply = s.reply ∧
    (i ≠ .clear → t.radix = s.radix ∧ t.alen = s.alen ∧ t.cfg = s.cfg ∧ t.padsym = s.padsym)

/-- R72: the engine reads `IBUF` only below `LEN` and `SYM` only below `RADIX`: whatever stands at the other indices, ENCODE
and DECODE of a ready block, and CONFIGURE of any block, do the same. -/
def Obligations.EngineReadsOnlyItsOperands : Prop :=
  ∀ (s : State) (m : Mode) (n : Nat) (ib sy : Memory),
    (∀ i < s.radix.toNat, { s with ibuf := ib, sym := sy }.byteAt .sym i = s.byteAt .sym i) →
    exec .configure { s with ibuf := ib, sym := sy } =
      onNext (fun t => { t with ibuf := ib, sym := sy }) (exec .configure s) ∧
    (s.Ready m → (∀ i < n, { s with ibuf := ib, sym := sy }.byteAt .ibuf i = s.byteAt .ibuf i) →
      exec (.encode n) { s with ibuf := ib, sym := sy } =
        onNext (fun t => { t with ibuf := ib, sym := sy }) (exec (.encode n) s) ∧
      exec (.decode n) { s with ibuf := ib, sym := sy } =
        onNext (fun t => { t with ibuf := ib, sym := sy }) (exec (.decode n) s))

/-! ### CONFIGURE and CLEAR -/

/-- R106 with R102 and R103 (CONFIGURE completes): where the table of R103 gives a unit and no cause of InvalidAlphabet
applies, CONFIGURE succeeds, `STATUS` holds the unit and the width, and `RLUT` maps exactly the normalised codes of the
alphabet, each to its index. -/
def Obligations.ConfigureCompletes : Prop :=
  ∀ (s : State) (m : Mode) (b : BitVec 4),
    SelectedUnit s.radix.toNat (cfgCodec s.cfg) m b → ¬ s.AlphabetRejected →
    ∃ t, exec .configure s = .next t ∧
      t.status = { cfgValid := true, mode := m, bits := b, err := .noError } ∧ t.olen = 0 ∧ t.errpos = 0 ∧
      (∀ (k v : Byte), Rlut.index t.rlut k = some v ↔
        v.toNat < s.radix.toNat ∧ norm s.cfg (s.symAt v.toNat) = k)

/-- R102, R201 (CONFIGURE's errors in their priority): IllegalCommand for `CFG.CODEC` = 3, then InvalidRadix, then
InvalidAlphabet; on each the block is left unconfigured, with nothing in `OLEN` and `ERRPOS`. -/
def Obligations.ConfigureFailuresInOrder : Prop :=
  ∀ s : State,
    (cfgCodec s.cfg = .reserved → ∃ t, exec .configure s = .next t ∧
      t.status = { cfgValid := false, mode := .bpc, bits := 0, err := .illegalCommand } ∧ t.olen = 0 ∧ t.errpos = 0) ∧
    (RadixRejected s.radix.toNat (cfgCodec s.cfg) → ∃ t, exec .configure s = .next t ∧
      t.status = { cfgValid := false, mode := .bpc, bits := 0, err := .invalidRadix } ∧ t.olen = 0 ∧ t.errpos = 0) ∧
    (cfgCodec s.cfg ≠ .reserved → ¬ RadixRejected s.radix.toNat (cfgCodec s.cfg) → s.AlphabetRejected →
      ∃ t, exec .configure s = .next t ∧
        t.status = { cfgValid := false, mode := .bpc, bits := 0, err := .invalidAlphabet } ∧
        t.olen = 0 ∧ t.errpos = 0)

/-- R192: InvalidRadix is reported by CONFIGURE only, exactly in the rows of R103 that raise it, and records 0. -/
def Obligations.InvalidRadixExactly : Prop :=
  ∀ (i : Instr) (s t : State), exec i s = .next t →
    (t.status.err = .invalidRadix ↔ i = .configure ∧ RadixRejected s.radix.toNat (cfgCodec s.cfg)) ∧
    (t.status.err = .invalidRadix → t.errpos = 0)

/-- R193: InvalidAlphabet is reported by CONFIGURE only, exactly when no earlier error applies and one of the three causes
does, and records 0. -/
def Obligations.InvalidAlphabetExactly : Prop :=
  ∀ (i : Instr) (s t : State), exec i s = .next t →
    (t.status.err = .invalidAlphabet ↔
      i = .configure ∧ cfgCodec s.cfg ≠ .reserved ∧ ¬ RadixRejected s.radix.toNat (cfgCodec s.cfg) ∧
        s.AlphabetRejected) ∧
    (t.status.err = .invalidAlphabet → t.errpos = 0)

/-- R102 (frame): CONFIGURE changes only `STATUS`, `OLEN`, `ERRPOS` and the hidden `RLUT`; every byte of the three memories
reads as before. -/
def Obligations.ConfigureFrame : Prop :=
  ∀ (s t : State), exec .configure s = .next t →
    (∀ sp a, t.byteAt sp a = s.byteAt sp a) ∧
    t = { s with status := t.status, olen := t.olen, errpos := t.errpos, rlut := t.rlut }

/-- R111: CONFIGURE's outcome is a function of `RADIX`, `ALEN`, `CFG`, `PADSYM` and `SYM[0, RADIX)` alone, and running it
twice gives the same outcome. (`RLUT` is compared after a success only: it is unspecified otherwise, R38.) -/
def Obligations.ConstructionIsDeterministic : Prop :=
  (∀ (s s' t t' : State),
    s'.radix = s.radix → s'.alen = s.alen → s'.cfg = s.cfg → s'.padsym = s.padsym →
    (∀ i < s.radix.toNat, s'.symAt i = s.symAt i) →
    exec .configure s = .next t → exec .configure s' = .next t' →
    t'.status = t.status ∧ t'.olen = t.olen ∧ t'.errpos = t.errpos ∧
      (t.status.cfgValid = true → t'.rlut = t.rlut)) ∧
  (∀ (s t : State), exec .configure s = .next t → ∃ u, exec .configure t = .next u ∧
    u.status = t.status ∧ u.olen = t.olen ∧ u.errpos = t.errpos ∧
      (t.status.cfgValid = true → u = t))

/-- R107 (CLEAR completes, and its frame): every register takes its reset value, `SYM`, `IBUF` and `OBUF` keep their
contents, and the capacities, which are constants, stay; its word is 0x00000004, and 0x00000104 is not CLEAR but illegal. -/
def Obligations.ClearResetsRegistersOnly : Prop :=
  decodeWord 0x00000004#32 = .ok .clear ∧ (∃ e, decodeWord 0x00000104#32 = .error e) ∧
  ∀ s : State, ∃ t, exec .clear s = .next t ∧ t.Succeeded ∧ t.olen = 0 ∧
    (∀ r : RegName, r ≠ .capIbuf → r ≠ .capObuf → t.readReg r = State.reset.readReg r) ∧
    t.readReg .capIbuf = s.readReg .capIbuf ∧ t.readReg .capObuf = s.readReg .capObuf ∧
    (∀ sp a, t.byteAt sp a = s.byteAt sp a) ∧
    t.sym = s.sym ∧ t.ibuf = s.ibuf ∧ t.obuf = s.obuf ∧
    t.epoch = s.epoch ∧ t.draws = s.draws ∧ t.host = s.host ∧ t.reply = s.reply

/-! ### ENCODE -/

/-- R198, R199: ENCODE and DECODE of an unconfigured block report NotConfigured whatever `LEN` is, and of a configured one
report InputLength when `LEN` > `IBUF_BYTES`; nothing but the report changes, `OBUF` included. -/
def Obligations.PreChecksReportAndStop : Prop :=
  ∀ (s : State) (n : Nat) (i : Instr), (i = .encode n ∨ i = .decode n) →
    (s.status.cfgValid = false → exec i s = .next
      { s with status := { s.status with err := .notConfigured }, olen := 0, errpos := 0 }) ∧
    (s.status.cfgValid = true → s.ibufBytes < n → exec i s = .next
      { s with status := { s.status with err := .inputLength }, olen := 0, errpos := 0 })

/-- R108 (frame of ENCODE and DECODE): `STATUS.CFG_VALID`, `MODE`, `BITS`, the configuration state and every byte of `SYM`
and `IBUF` are unchanged; a command that fails a pre-check leaves every byte of `OBUF` unchanged. The registers written
are `STATUS.ERR`, `OLEN` and `ERRPOS`; past the pre-checks the stored bytes are `OBUF[0, OLEN)`, and every other `OBUF`
entry is unspecified (R40), so the frame names all of `OBUF` there. -/
def Obligations.EncodeDecodeFrame : Prop :=
  ∀ (s t : State) (n : Nat) (i : Instr), (i = .encode n ∨ i = .decode n) → exec i s = .next t →
    s.SameButResult t ∧
    (s.status.cfgValid = false ∨ s.ibufBytes < n → ∀ a, t.byteAt .obuf a = s.byteAt .obuf a)

/-- R131 (ENCODE completes in BPC mode): symbol j is `SYM` of the b bits from bit j·b of the input's stream, most significant
first, the stream padded with zero bits; there are ceil(8n/b) of them and then the pad symbols of R132. A text that does
not fit in `OBUF` is OutputOverflow (R200) and nothing else is. -/
def Obligations.EncodeBpcWritesBitGroups : Prop :=
  ∀ (s : State) (n : Nat), s.Ready .bpc → n ≤ s.ibufBytes →
    let b := s.status.bits.toNat
    let d := (8 * n + b - 1) / b
    let p := if cfgPadEn s.cfg = true then padsAfter b d else 0
    let text := (List.range d).map (fun j => s.symAt (bitsValue (streamBit (s.input n)) (j * b) b)) ++
      List.replicate p s.padsym
    (d + p ≤ s.obufBytes → ∃ t, exec (.encode n) s = .next t ∧ t.Succeeded ∧ t.Holds text ∧ s.SameButResult t) ∧
    (s.obufBytes < d + p → exec (.encode n) s = .next (s.failed .outputOverflow 0))

/-- R132: with padding configured, no pad symbol is due when b divides 8n, and otherwise the pad count is the least positive
p with (d + p) mod Q = 0; both are the one formula (Q − (d mod Q)) mod Q, which is also the count the strict decoder
expects (R137). Without padding there is none. -/
def Obligations.PadCountIsLeastCompletion : Prop :=
  ∀ b n : Nat, 1 ≤ b → b ≤ 8 →
    padCount false b n (groupCount b n) = 0 ∧
    padCount true b n (groupCount b n) = padsAfter b (groupCount b n) ∧
    padCount true b n (groupCount b n) =
      (Nat.lcm 8 b / b - groupCount b n % (Nat.lcm 8 b / b)) % (Nat.lcm 8 b / b) ∧
    (8 * n % b = 0 → padCount true b n (groupCount b n) = 0) ∧
    (8 * n % b ≠ 0 →
      0 < padCount true b n (groupCount b n) ∧
      (groupCount b n + padCount true b n (groupCount b n)) % (Nat.lcm 8 b / b) = 0 ∧
      ∀ p, 0 < p → (groupCount b n + p) % (Nat.lcm 8 b / b) = 0 → padCount true b n (groupCount b n) ≤ p)

/-- R161 (ENCODE completes in BRC mode): z leading zero bytes become z zero-symbols, and after them stand the base-R digits
of the input read as a big-endian number, most significant first, the first of them not 0; at most 8 digits per byte
(R162). A text that does not fit in `OBUF` is OutputOverflow (R200). -/
def Obligations.EncodeBrcWritesDigits : Prop :=
  ∀ (s : State) (n : Nat), s.Ready .brc → n ≤ s.ibufBytes →
    ∃ (z : Nat) (ds : List Nat),
      z ≤ n ∧ (∀ i < z, s.ibufAt i = 0) ∧ (z < n → s.ibufAt z ≠ 0) ∧
      (∀ d ∈ ds, d < s.radix.toNat) ∧ ds.head? ≠ some 0 ∧
      digitsValue s.radix.toNat ds = bytesValue (s.input n) ∧ ds.length ≤ 8 * (n - z) ∧
      (z + ds.length ≤ s.obufBytes → ∃ t, exec (.encode n) s = .next t ∧ t.Succeeded ∧
        t.Holds (List.replicate z (s.symAt 0) ++ ds.map s.symAt) ∧ s.SameButResult t) ∧
      (s.obufBytes < z + ds.length → exec (.encode n) s = .next (s.failed .outputOverflow 0))

/-! ### DECODE -/

/-- R136 (DECODE completes in BPC mode): a text that spells the values `vs` and ends in p pad symbols, their count as R137
asks when the policy is strict, its trailing bits zero or tolerated, decodes to the whole bytes of the values' bit stream,
most significant bit first. A result that does not fit in `OBUF` is OutputOverflow (R200). -/
def Obligations.DecodeBpcWritesBytes : Prop :=
  ∀ (s : State) (vs : List Nat) (p : Nat), s.Ready .bpc → vs.length + p ≤ s.ibufBytes →
    s.Spells (s.input vs.length) vs →
    (∀ i, vs.length ≤ i → i < vs.length + p → s.IsPad (s.ibufAt i)) →
    let b := s.status.bits.toNat
    let m := vs.length * b / 8
    (cfgPadEn s.cfg = true → cfgPadStrict s.cfg = true → p = padsAfter b vs.length) →
    (cfgLenient s.cfg = true ∨ ∀ t, 8 * m ≤ t → t < vs.length * b → valueBit b vs t = false) →
    (m ≤ s.obufBytes → ∃ t, exec (.decode (vs.length + p)) s = .next t ∧ t.Succeeded ∧
      t.Holds ((List.range m).map (fun j => BitVec.ofNat 8 (bitsValue (valueBit b vs) (8 * j) 8))) ∧
      s.SameButResult t) ∧
    (s.obufBytes < m → exec (.decode (vs.length + p)) s = .next (s.failed .outputOverflow 0))

/-- R137: under the strict policy a text whose p trailing pad symbols are not the (Q − (d mod Q)) mod Q that its d other codes
ask for is InvalidPadding at d, whatever those codes are (R201). -/
def Obligations.DecodeBpcRejectsWrongPadCount : Prop :=
  ∀ (s : State) (d p : Nat), s.Ready .bpc → d + p ≤ s.ibufBytes →
    cfgPadEn s.cfg = true → cfgPadStrict s.cfg = true →
    (∀ i, d ≤ i → i < d + p → s.IsPad (s.ibufAt i)) → (0 < d → ¬ s.IsPad (s.ibufAt (d - 1))) →
    p ≠ padsAfter s.status.bits.toNat d →
    exec (.decode (d + p)) s = .next (s.failed .invalidPadding d)

/-- R138: with the pad count accepted, the leftmost of the d data positions that holds no symbol of the alphabet ends the
command: InvalidPadding at that index if it holds the pad symbol, else InvalidSymbol; nothing to its right is reported. -/
def Obligations.DecodeBpcRejectsLeftmostBadSymbol : Prop :=
  ∀ (s : State) (d p i : Nat), s.Ready .bpc → d + p ≤ s.ibufBytes →
    (∀ j, d ≤ j → j < d + p → s.IsPad (s.ibufAt j)) → (0 < d → ¬ s.IsPad (s.ibufAt (d - 1))) →
    (cfgPadEn s.cfg = true → cfgPadStrict s.cfg = true → p = padsAfter s.status.bits.toNat d) →
    i < d → (∀ j < i, ∃ v, s.IsSymbol (s.ibufAt j) v) →
    (s.IsPad (s.ibufAt i) → exec (.decode (d + p)) s = .next (s.failed .invalidPadding i)) ∧
    (¬ s.IsPad (s.ibufAt i) → (¬ ∃ v, s.IsSymbol (s.ibufAt i) v) →
      exec (.decode (d + p)) s = .next (s.failed .invalidSymbol i))

/-- R139: trailing bits that are not all zero are TrailingBits when `CFG.LENIENT` = 0. -/
def Obligations.DecodeBpcRejectsTrailingBits : Prop :=
  ∀ (s : State) (vs : List Nat) (p t : Nat), s.Ready .bpc → vs.length + p ≤ s.ibufBytes →
    s.Spells (s.input vs.length) vs →
    (∀ i, vs.length ≤ i → i < vs.length + p → s.IsPad (s.ibufAt i)) →
    (cfgPadEn s.cfg = true → cfgPadStrict s.cfg = true → p = padsAfter s.status.bits.toNat vs.length) →
    cfgLenient s.cfg = false →
    8 * (vs.length * s.status.bits.toNat / 8) ≤ t → t < vs.length * s.status.bits.toNat →
    valueBit s.status.bits.toNat vs t = true →
    exec (.decode (vs.length + p)) s = .next (s.failed .trailingBits 0)

/-- R164 (DECODE completes in BRC mode): z leading zero-symbols become z zero bytes, and after them stand the minimal
big-endian bytes of the number the digits write in base R, the first of them not 0; never more bytes than symbols (R167).
A result that does not fit in `OBUF` is OutputOverflow (R200). -/
def Obligations.DecodeBrcWritesBytes : Prop :=
  ∀ (s : State) (vs : List Nat), s.Ready .brc → vs.length ≤ s.ibufBytes → s.Spells (s.input vs.length) vs →
    ∃ (z : Nat) (bs : List Byte),
      z ≤ vs.length ∧ (∀ i < z, vs.getD i 0 = 0) ∧ (z < vs.length → vs.getD z 0 ≠ 0) ∧
      bs.head? ≠ some 0 ∧ bytesValue bs = digitsValue s.radix.toNat vs ∧ z + bs.length ≤ vs.length ∧
      (z + bs.length ≤ s.obufBytes → ∃ t, exec (.decode vs.length) s = .next t ∧ t.Succeeded ∧
        t.Holds (List.replicate z 0 ++ bs) ∧ s.SameButResult t) ∧
      (s.obufBytes < z + bs.length → exec (.decode vs.length) s = .next (s.failed .outputOverflow 0))

/-- R164, R194 (BRC): the leftmost code that is no symbol of the alphabet is InvalidSymbol at its index; the pad symbol has no
standing here (R171). -/
def Obligations.DecodeBrcRejectsLeftmostUnknown : Prop :=
  ∀ (s : State) (n i : Nat), s.Ready .brc → n ≤ s.ibufBytes → i < n →
    (∀ j < i, ∃ v, s.IsSymbol (s.ibufAt j) v) → (¬ ∃ v, s.IsSymbol (s.ibufAt i) v) →
    exec (.decode n) s = .next (s.failed .invalidSymbol i)

/-! ### Laws of the units -/

/-- R143, R168: under every valid configuration `ENCODE 0` and `DECODE 0` end with `STATUS.ERR` = 0 and `OLEN` = 0, and the
functions give the empty sequence. -/
def Obligations.EmptyInputGivesEmptyOutput : Prop :=
  ∀ (s : State) (m : Mode) (i : Instr), s.Ready m → (i = .encode 0 ∨ i = .decode 0) →
    (∃ t, exec i s = .next t ∧ t.Succeeded ∧ t.olen = 0 ∧ s.SameButResult t) ∧
    s.bpEncode [] = [] ∧ s.bpDecode [] = .ok [] ∧ s.brEncode [] = [] ∧ s.brDecode [] = .ok []

/-- R145: for every valid BPC configuration, decoding the encoding of any byte sequence gives it back. -/
def Obligations.BpcRoundTrip : Prop :=
  ∀ (s : State) (x : List Byte), s.Ready .bpc → s.bpDecode (s.bpEncode x) = .ok x

/-- R169: for every valid BRC configuration, decoding the encoding of any byte sequence gives it back. -/
def Obligations.BrcRoundTrip : Prop :=
  ∀ (s : State) (x : List Byte), s.Ready .brc → s.brDecode (s.brEncode x) = .ok x

/-- R173: in BRC every text decodes, and encoding the bytes gives the canonical text of the same symbols: the text itself
when every code is a stored symbol. -/
def Obligations.BrcTextsAreCanonical : Prop :=
  ∀ (s : State) (text : List Byte) (vs : List Nat), s.Ready .brc → s.Spells text vs →
    ∃ y, s.brDecode text = .ok y ∧ s.brDecode (vs.map s.symAt) = .ok y ∧ s.brEncode y = vs.map s.symAt

/-- R145, R169, both units, as functions and as commands: on a configured block that meets the invariant, decoding the
encoding of any byte sequence gives it back; and when ENCODE of n bytes has succeeded and the host has copied its text
from `OBUF` to `IBUF`, DECODE of that text gives the n bytes back, whenever the text fits in `IBUF` and the bytes fit in
`OBUF`. -/
def Obligations.CommandsRoundTrip : Prop :=
  ∀ s : State, s.Inv → s.status.cfgValid = true →
    (∀ x : List Byte, s.decodeText (s.encodeText x) = .ok x) ∧
    ∀ (t : State) (n : Nat) (ib : Memory), exec (.encode n) s = .next t → t.status.err = .noError →
      t.olen.toNat ≤ t.ibufBytes → n ≤ t.obufBytes →
      (∀ i < t.olen.toNat, Memory.find ib i = Memory.find t.obuf i) →
      ∃ u, exec (.decode t.olen.toNat) { t with ibuf := ib } = .next u ∧ u.Succeeded ∧ u.Holds (s.input n)

/-- R170: each leading zero byte becomes one leading zero-symbol and back: with any R and any alphabet 00 00 01 encodes to
`SYM[0]`, `SYM[0]`, `SYM[1]` and that text decodes to 00 00 01. -/
def Obligations.LeadingZerosArePreserved : Prop :=
  ∀ s : State, s.Ready .brc →
    s.brEncode [0x00#8, 0x00#8, 0x01#8] = [s.symAt 0, s.symAt 0, s.symAt 1] ∧
    s.brDecode [s.symAt 0, s.symAt 0, s.symAt 1] = .ok [0x00#8, 0x00#8, 0x01#8] ∧
    (∀ (z : Nat) (x : List Byte),
      s.brEncode (List.replicate z 0 ++ x) = List.replicate z (s.symAt 0) ++ s.brEncode x) ∧
    (∀ (z : Nat) (text y : List Byte), s.brDecode text = .ok y →
      s.brDecode (List.replicate z (s.symAt 0) ++ text) = .ok (List.replicate z 0 ++ y))

/-- R172: with radix 16 the two units give different texts for 00 01 and for 0F, and decode the text of the values 0, 15
differently. -/
def Obligations.UnitsDifferOnRadixSixteen : Prop :=
  ∀ s s' : State, s.Ready .bpc → s'.Ready .brc → s.radix = 16 → s'.radix = 16 →
    s.bpEncode [0x00#8, 0x01#8] = [s.symAt 0, s.symAt 0, s.symAt 0, s.symAt 1] ∧
    s'.brEncode [0x00#8, 0x01#8] = [s'.symAt 0, s'.symAt 1] ∧
    s.bpEncode [0x0F#8] = [s.symAt 0, s.symAt 15] ∧ s'.brEncode [0x0F#8] = [s'.symAt 15] ∧
    s.bpDecode [s.symAt 0, s.symAt 15] = .ok [0x0F#8] ∧
    s'.brDecode [s'.symAt 0, s'.symAt 15] = .ok [0x00#8, 0x0F#8]

/-- R200 (with the length bounds of R133, R140, R162, R167): OutputOverflow cannot occur for ENCODE if `OBUF_BYTES` ≥ 8·`LEN`
nor for DECODE if `OBUF_BYTES` ≥ `LEN`, so with `OBUF_BYTES` ≥ 8·`IBUF_BYTES` no command reports it. -/
def Obligations.OverflowNeedsSmallBuffer : Prop :=
  ∀ (s t : State) (n : Nat), s.Inv →
    (exec (.encode n) s = .next t → 8 * n ≤ s.obufBytes → t.status.err ≠ .outputOverflow) ∧
    (exec (.decode n) s = .next t → n ≤ s.obufBytes → t.status.err ≠ .outputOverflow) ∧
    (8 * s.ibufBytes ≤ s.obufBytes → ∀ i, exec i s = .next t → t.status.err ≠ .outputOverflow)

/-- R171 (with R160): in BRC mode ENCODE and DECODE do not read `CFG.PAD_EN`, `PAD_STRICT`, `LENIENT` or `PADSYM`: with any
other values there, and the same `CASE_INS`, they do the same. -/
def Obligations.BrcIgnoresPaddingPolicy : Prop :=
  ∀ (s : State) (n : Nat) (cfg : BitVec 6) (pad : Byte), s.status.mode = .brc →
    cfgCaseIns cfg = cfgCaseIns s.cfg →
    exec (.encode n) { s with cfg := cfg, padsym := pad } =
      onNext (fun t => { t with cfg := cfg, padsym := pad }) (exec (.encode n) s) ∧
    exec (.decode n) { s with cfg := cfg, padsym := pad } =
      onNext (fun t => { t with cfg := cfg, padsym := pad }) (exec (.decode n) s)

/-- R144 (with R160 for BRC): `BPEncode` does not depend on `CFG.CASE_INS` (nor on `PAD_STRICT`, `LENIENT`), `BREncode` does
not depend on `CFG` at all, and `BPDecode` and `BRDecode` under `CFG.CASE_INS` = 1 give the same result for two texts that
differ only in the case of letters. -/
def Obligations.CaseNormalisation : Prop :=
  (∀ (s : State) (cfg : BitVec 6) (x : List Byte), cfgPadEn cfg = cfgPadEn s.cfg →
    { s with cfg := cfg }.bpEncode x = s.bpEncode x) ∧
  (∀ (s : State) (cfg : BitVec 6) (x : List Byte), { s with cfg := cfg }.brEncode x = s.brEncode x) ∧
  (∀ (s : State) (text text' : List Byte), cfgCaseIns s.cfg = true → text.map fold = text'.map fold →
    s.bpDecode text = s.bpDecode text' ∧ s.brDecode text = s.brDecode text')

/-! ### The datapaths compute the functions -/

/-- R134: the serial shifter writes the same sequence as `BPEncode`, with `ACC` never needing more than its 15 bits. -/
def Obligations.SerialPackComputesBpEncode : Prop :=
  ∀ (s : State) (x : List Byte), s.Ready .bpc → s.bpEncodeSerial x = s.bpEncode x

/-- R135: the concatenation of the pack lanes' outputs in block order is `BPEncode(x)`. -/
def Obligations.PackLanesComputeBpEncode : Prop :=
  ∀ (s : State) (x : List Byte), s.Ready .bpc → s.bpEncodeLanes x = s.bpEncode x

/-- R141: the serial shifter computes `BPDecode`, errors and their positions included. -/
def Obligations.SerialUnpackComputesBpDecode : Prop :=
  ∀ (s : State) (text : List Byte), s.Ready .bpc → s.bpDecodeSerial text = s.bpDecode text

/-- R142: the concatenation of the unpack lanes' bytes in block order is `BPDecode`, errors included. -/
def Obligations.UnpackLanesComputeBpDecode : Prop :=
  ∀ (s : State) (text : List Byte), s.Ready .bpc → s.bpDecodeLanes text = s.bpDecode text

/-- R163: the iterative divider, in 8-bit limbs and a 16-bit `cur`, computes `BREncode`. -/
def Obligations.DividerComputesBrEncode : Prop :=
  ∀ (s : State) (x : List Byte), s.Ready .brc → s.brEncodeDivider x = s.brEncode x

/-- R165: the iterative multiplier, in 8-bit limbs and a 16-bit `cur`, computes `BRDecode`. -/
def Obligations.MultiplierComputesBrDecode : Prop :=
  ∀ (s : State) (text : List Byte), s.Ready .brc → s.brDecodeMultiplier text = s.brDecode text

/-! ### Host accesses -/

/-- R33, R225: a host write to `RADIX`, `ALEN`, `CFG`, `PADSYM` or any entry of `SYM` clears `CFG_VALID`, `MODE` and `BITS`,
whatever it writes, and changes no result and no byte of `IBUF` or `OBUF`; the register or entry written takes the value,
in its implemented bits, and the others keep theirs. -/
def Obligations.ConfigurationWriteUnconfigures : Prop :=
  ∀ (s : State) (rest : List HostOp),
    let dropped : Status := { s.status with cfgValid := false, mode := .bpc, bits := 0 }
    (∀ w : Word, s.host = .regWrite 0x00 w :: rest → step s = .next
      { s with host := rest, reply := .ack, status := dropped, radix := w.setWidth 9 }) ∧
    (∀ w : Word, s.host = .regWrite 0x04 w :: rest → step s = .next
      { s with host := rest, reply := .ack, status := dropped, alen := w.setWidth 9 }) ∧
    (∀ w : Word, s.host = .regWrite 0x08 w :: rest → step s = .next
      { s with host := rest, reply := .ack, status := dropped, cfg := w.setWidth 6 }) ∧
    (∀ w : Word, s.host = .regWrite 0x0C w :: rest → step s = .next
      { s with host := rest, reply := .ack, status := dropped, padsym := w.setWidth 8 }) ∧
    (∀ (i : Nat) (v : Byte), i < 256 → s.host = .byteWrite .sym i v :: rest →
      ∃ t, step s = .next t ∧ t.status = dropped ∧ t.symAt i = v ∧ (∀ j, j ≠ i → t.symAt j = s.symAt j) ∧
        t = { s with host := rest, reply := .ack, status := dropped, sym := t.sym })

/-- R27 (what sets `CFG_VALID`): the only step that takes an unconfigured block to a configured one is the write of the word
0x00000001, CONFIGURE, to `CMD`. -/
def Obligations.OnlyConfigureConfigures : Prop :=
  ∀ s t : State, step s = .next t → s.status.cfgValid = false → t.status.cfgValid = true →
    ∃ rest, s.host = .regWrite 0x10 1#32 :: rest ∨ s.host = .busWrite 0x10#32 (.word 1#32) :: rest

/-- R227, R203 (with R27): a result lasts until the next command. No step but a write to `CMD` or a reset changes `STATUS.ERR`,
`OLEN`, `ERRPOS` or any entry of `OBUF`. -/
def Obligations.ResultsLastUntilNextCommand : Prop :=
  ∀ s t : State, step s = .next t →
    (∀ w rest, s.host ≠ .regWrite 0x10 w :: rest) → (∀ d rest, s.host ≠ .busWrite 0x10#32 d :: rest) →
    (∀ rest, s.host ≠ .reset :: rest) → (∀ w rest, s.host ≠ .resetDuring w :: rest) →
    t.status.err = s.status.err ∧ t.olen = s.olen ∧ t.errpos = s.errpos ∧ t.obuf = s.obuf

/-- R21, R26, R28 to R32: a configuration register reads back the implemented bits of what was written; a write to a read-only
or reserved offset is ignored; `CMD` and the reserved offsets read 0 and a read issues nothing; `OLEN` reads whole, `ERRPOS`
in [23:0] below 0 in [31:24]; the capacities read their constants. -/
def Obligations.RegisterFileReadsAndWrites : Prop :=
  (∀ (s : State) (off : Nat) (w mask : Word),
    (off, mask) ∈ [(0x00, 0x1FF#32), (0x04, 0x1FF#32), (0x08, 0x3F#32), (0x0C, 0xFF#32)] →
    ∃ t u, step { s with host := [.regWrite off w, .regRead off] } = .next t ∧ step t = .next u ∧
      u.reply = .word (w &&& mask)) ∧
  (∀ (s : State) (off : Nat) (w : Word), 0x14 ≤ off → off ≤ 0xFC → off % 4 = 0 →
    step { s with host := [.regWrite off w] } = .next { s with host := [], reply := .ack }) ∧
  (∀ (s : State) (off : Nat), (off = 0x10 ∨ 0x28 ≤ off ∧ off ≤ 0xFC ∧ off % 4 = 0) →
    step { s with host := [.regRead off] } = .next { s with host := [], reply := .word 0 }) ∧
  (∀ s : State, step { s with host := [.regRead 0x18] } = .next { s with host := [], reply := .word s.olen }) ∧
  (∀ s : State, step { s with host := [.regRead 0x1C] } =
    .next { s with host := [], reply := .word (0#8 ++ s.errpos) }) ∧
  (∀ s : State, step { s with host := [.regRead 0x20] } = .next { s with host := [], reply := .word s.capIbuf }) ∧
  (∀ s : State, step { s with host := [.regRead 0x24] } = .next { s with host := [], reply := .word s.capObuf })

/-- R27: a read of `STATUS` returns `ERR` in [11:8], `BITS` in [5:2], `MODE` in [1], `CFG_VALID` in [0], and 0 in every
reserved bit. -/
def Obligations.StatusReadsItsFields : Prop :=
  ∀ s : State, ∃ w : Word,
    step { s with host := [.regRead 0x14] } = .next { s with host := [], reply := .word w } ∧
    w.toNat = s.status.err.code.toNat * 256 + s.status.bits.toNat * 4 +
      (if s.status.mode = .brc then 2 else 0) + (if s.status.cfgValid = true then 1 else 0)

/-- R61, R62: a register access takes a step exactly when its offset is a multiple of 4 up to 0xFC, a byte access exactly when
its index is inside its space; every other access is refused. -/
def Obligations.AccessesRefusedExactly : Prop :=
  ∀ (s : State) (rest : List HostOp),
    (∀ off, s.host = .regRead off :: rest → ((∃ t, step s = .next t) ↔ off % 4 = 0 ∧ off ≤ 0xFC)) ∧
    (∀ off w, s.host = .regWrite off w :: rest → ((∃ t, step s = .next t) ↔ off % 4 = 0 ∧ off ≤ 0xFC)) ∧
    (∀ sp i, s.host = .byteRead sp i :: rest → ((∃ t, step s = .next t) ↔ i < s.spaceSize sp)) ∧
    (∀ sp i v, s.host = .byteWrite sp i v :: rest → ((∃ t, step s = .next t) ↔ i < s.spaceSize sp)) ∧
    (∀ r, step s ≠ .fault r)

/-- R68: a host read returns the byte at the index and changes no state of the block; only a read of an `OBUF` entry that
holds no specified byte makes the model draw anew. -/
def Obligations.HostReadsChangeNothing : Prop :=
  ∀ (s t : State) (rest : List HostOp),
    (∀ off, s.host = .regRead off :: rest → step s = .next t → t = { s with host := rest, reply := t.reply }) ∧
    (∀ sp i, s.host = .byteRead sp i :: rest → step s = .next t →
      t = { s with host := rest, reply := .byte (s.byteAt sp i), draws := t.draws } ∧
      ((sp = .obuf ∧ Memory.find s.obuf i = none) ∨ t.draws = s.draws))

/-- R61, R68: a byte written to `SYM` or `IBUF` reads back, every other byte of every space reads as before, and an `IBUF`
write only stores; a write to `OBUF` is ignored (R40). -/
def Obligations.ByteWriteStoresOneByte : Prop :=
  ∀ (s : State) (rest : List HostOp) (sp : Space) (i : Nat) (v : Byte),
    s.host = .byteWrite sp i v :: rest → i < s.spaceSize sp →
    ∃ t, step s = .next t ∧
      (sp ≠ .obuf → t.byteAt sp i = v) ∧
      (∀ sp' j, sp' ≠ sp ∨ j ≠ i ∨ sp = .obuf → t.byteAt sp' j = s.byteAt sp' j) ∧
      (sp = .ibuf → t = { s with host := rest, reply := .ack, ibuf := t.ibuf }) ∧
      (sp = .obuf → t = { s with host := rest, reply := .ack })

/-- R74 (with R37, R39): whatever a step does, a `SYM` or `IBUF` entry that it is not a host write to, and that no reset comes
over, reads the same byte after it as before, written or not: an unknown byte is one value, held until its first write. -/
def Obligations.BytesHeldUntilWritten : Prop :=
  ∀ (s t : State) (sp : Space) (i : Nat), sp ≠ .obuf → step s = .next t →
    (∀ v rest, s.host ≠ .byteWrite sp i v :: rest) →
    (∀ a v rest, s.host = .busWrite a v :: rest → s.flatTarget a ≠ some (.entry sp i)) →
    (∀ rest, s.host ≠ .reset :: rest) → (∀ w rest, s.host ≠ .resetDuring w :: rest) →
    t.byteAt sp i = s.byteAt sp i

/-- R67, R62, at the base addresses the model fixes: the model takes the bases of R67's table, which R67 lets a binding of
`HOSTBUS` move, and that is the model's choice (log entry 12). There a word access below 0x100 is the register access, a
byte access at 0x100 + i, 0x10000000 + i and 0x20000000 + i is the access to entry i of `SYM`, `IBUF` and `OBUF`, every
other address is refused, and so is every access of another size. -/
def Obligations.FlatMapReachesTheSpaces : Prop :=
  ∀ (s : State) (rest : List HostOp), s.Inv →
    let go := fun op => step { s with host := op :: rest }
    (∀ off, off < 0x100 →
      go (.busRead (BitVec.ofNat 32 off) .word) = go (.regRead off) ∧
      (∀ w, go (.busWrite (BitVec.ofNat 32 off) (.word w)) = go (.regWrite off w))) ∧
    (∀ (sp : Space) (base i : Nat), (sp, base) ∈ [(Space.sym, 0x100), (.ibuf, 0x10000000), (.obuf, 0x20000000)] →
      i < s.spaceSize sp →
      go (.busRead (BitVec.ofNat 32 (base + i)) .byte) = go (.byteRead sp i) ∧
      (∀ v, go (.busWrite (BitVec.ofNat 32 (base + i)) (.byte v)) = go (.byteWrite sp i v))) ∧
    (∀ a : Word, 0x200 ≤ a.toNat →
      ¬ (0x10000000 ≤ a.toNat ∧ a.toNat < 0x10000000 + s.ibufBytes) →
      ¬ (0x20000000 ≤ a.toNat ∧ a.toNat < 0x20000000 + s.obufBytes) →
      (∀ wd, go (.busRead a wd) = .refused (.unmapped a)) ∧ (∀ v, go (.busWrite a v) = .refused (.unmapped a))) ∧
    (∀ a : Word,
      (∃ r, go (.busRead a .half) = .refused r) ∧ (∀ h, ∃ r, go (.busWrite a (.half h)) = .refused r) ∧
      (a.toNat < 0x100 → (∃ r, go (.busRead a .byte) = .refused r) ∧ ∀ v, ∃ r, go (.busWrite a (.byte v)) = .refused r) ∧
      (0x100 ≤ a.toNat → (∃ r, go (.busRead a .word) = .refused r) ∧ ∀ w, ∃ r, go (.busWrite a (.word w)) = .refused r))

/-! ### Reset and the invariant -/

/-- R43, R220, R221: the reset event, whether between two host operations or while a command runs, leaves every register at 0
but for the two capacity constants, no byte of the three memories specified, and the block unconfigured; and that is
what `State.reset` is. -/
def Obligations.ResetClearsRegisters : Prop :=
  (∀ (s : State) (w : Word) (rest : List HostOp), (s.host = .reset :: rest ∨ s.host = .resetDuring w :: rest) →
    ∃ t, step s = .next t ∧ t.host = rest ∧
      (∀ r : RegName, r ≠ .capIbuf → r ≠ .capObuf → t.readReg r = 0) ∧
      t.readReg .capIbuf = s.readReg .capIbuf ∧ t.readReg .capObuf = s.readReg .capObuf ∧
      (∀ sp i, Memory.find (t.memory sp) i = none)) ∧
  (∀ r : RegName, r ≠ .capIbuf → r ≠ .capObuf → State.reset.readReg r = 0) ∧
  State.reset.ibufBytes = Config.ibufBytes ∧ State.reset.obufBytes = Config.obufBytes ∧
  (∀ sp i, Memory.find (State.reset.memory sp) i = none)

/-- The invariant holds at reset. -/
def Obligations.ResetMeetsInvariant : Prop := State.reset.Inv

/-- Every step keeps the invariant, from every state that meets it: the memories keep their canonical form, `CFG_VALID` = 1
only over a configuration that passes every check of CONFIGURE, with `MODE`, `BITS` and `RLUT` the function of the
configuration state that R38 says, and the result registers tell no more than is there. -/
def Obligations.StepKeepsInvariant : Prop :=
  ∀ s t : State, s.Inv → step s = .next t → t.Inv

/-! ### Texts that no encoder writes -/

/-- R146: `BPDecode` accepts some texts that are not canonical. Under a padding policy that is not strict any number of
trailing pad symbols changes nothing; under every setting hexadecimal "de0" (the symbols 13, 14, 0) decodes to DE, and one
base-32 symbol of value 0, with the pads its length asks for, decodes to nothing. Where b divides 8 the strict policy
takes no pad at all (R137, spec/90_conflicts.md C7; log entry 16). -/
def Obligations.NonCanonicalTextsDecode : Prop :=
  ∀ s : State, s.Ready .bpc →
    (cfgPadEn s.cfg = true → cfgPadStrict s.cfg = false → ∀ (text : List Byte) (k : Nat),
      s.bpDecode (text ++ List.replicate k s.padsym) = s.bpDecode text) ∧
    (s.radix = 16 → s.bpDecode [s.symAt 13, s.symAt 14, s.symAt 0] = .ok [0xDE#8]) ∧
    (s.radix = 32 →
      s.bpDecode (s.symAt 0 :: List.replicate (if cfgPadEn s.cfg = true then 7 else 0) s.padsym) = .ok []) ∧
    (8 % s.status.bits.toNat = 0 → cfgPadEn s.cfg = true → cfgPadStrict s.cfg = true →
      ∀ (vs : List Nat) (k : Nat), (∀ v ∈ vs, v < s.radix.toNat) → 0 < k →
        s.bpDecode (vs.map s.symAt ++ List.replicate k s.padsym) =
          .error { kind := .invalidPadding, pos := vs.length })
end

