-- ==== Sys2Proof/Laws/State.lean ====
section
/-! SUPPORT. One lemma per field and per named update of the state, each true by `rfl`, so that no later proof unfolds a record
update; and the fields of `STATUS` after each of its updates. -/

namespace Sys2Proof.Machine

variable (s : State) (st : Status)

/-! ### `State.done` -/

@[simp] theorem State.done_radix (n : Nat) : (s.done n).radix = s.radix := rfl
@[simp] theorem State.done_alen (n : Nat) : (s.done n).alen = s.alen := rfl
@[simp] theorem State.done_cfg (n : Nat) : (s.done n).cfg = s.cfg := rfl
@[simp] theorem State.done_padsym (n : Nat) : (s.done n).padsym = s.padsym := rfl
@[simp] theorem State.done_status (n : Nat) : (s.done n).status = s.status.withErr .noError := rfl
@[simp] theorem State.done_olen (n : Nat) : (s.done n).olen = BitVec.ofNat 32 n := rfl
@[simp] theorem State.done_errpos (n : Nat) : (s.done n).errpos = 0 := rfl
@[simp] theorem State.done_capIbuf (n : Nat) : (s.done n).capIbuf = s.capIbuf := rfl
@[simp] theorem State.done_capObuf (n : Nat) : (s.done n).capObuf = s.capObuf := rfl
@[simp] theorem State.done_sym (n : Nat) : (s.done n).sym = s.sym := rfl
@[simp] theorem State.done_rlut (n : Nat) : (s.done n).rlut = s.rlut := rfl
@[simp] theorem State.done_ibuf (n : Nat) : (s.done n).ibuf = s.ibuf := rfl
@[simp] theorem State.done_obuf (n : Nat) : (s.done n).obuf = s.obuf := rfl
@[simp] theorem State.done_epoch (n : Nat) : (s.done n).epoch = s.epoch := rfl
@[simp] theorem State.done_draws (n : Nat) : (s.done n).draws = s.draws := rfl
@[simp] theorem State.done_host (n : Nat) : (s.done n).host = s.host := rfl
@[simp] theorem State.done_reply (n : Nat) : (s.done n).reply = s.reply := rfl

/-! ### `State.raiseErr` -/

@[simp] theorem State.raiseErr_radix (e : ErrCode) (pos : Nat) : (s.raiseErr e pos).radix = s.radix := rfl
@[simp] theorem State.raiseErr_alen (e : ErrCode) (pos : Nat) : (s.raiseErr e pos).alen = s.alen := rfl
@[simp] theorem State.raiseErr_cfg (e : ErrCode) (pos : Nat) : (s.raiseErr e pos).cfg = s.cfg := rfl
@[simp] theorem State.raiseErr_padsym (e : ErrCode) (pos : Nat) : (s.raiseErr e pos).padsym = s.padsym := rfl
@[simp] theorem State.raiseErr_status (e : ErrCode) (pos : Nat) : (s.raiseErr e pos).status = s.status.withErr e := rfl
@[simp] theorem State.raiseErr_olen (e : ErrCode) (pos : Nat) : (s.raiseErr e pos).olen = 0 := rfl
@[simp] theorem State.raiseErr_errpos (e : ErrCode) (pos : Nat) : (s.raiseErr e pos).errpos = BitVec.ofNat 24 pos := rfl
@[simp] theorem State.raiseErr_capIbuf (e : ErrCode) (pos : Nat) : (s.raiseErr e pos).capIbuf = s.capIbuf := rfl
@[simp] theorem State.raiseErr_capObuf (e : ErrCode) (pos : Nat) : (s.raiseErr e pos).capObuf = s.capObuf := rfl
@[simp] theorem State.raiseErr_sym (e : ErrCode) (pos : Nat) : (s.raiseErr e pos).sym = s.sym := rfl
@[simp] theorem State.raiseErr_rlut (e : ErrCode) (pos : Nat) : (s.raiseErr e pos).rlut = s.rlut := rfl
@[simp] theorem State.raiseErr_ibuf (e : ErrCode) (pos : Nat) : (s.raiseErr e pos).ibuf = s.ibuf := rfl
@[simp] theorem State.raiseErr_obuf (e : ErrCode) (pos : Nat) : (s.raiseErr e pos).obuf = s.obuf := rfl
@[simp] theorem State.raiseErr_epoch (e : ErrCode) (pos : Nat) : (s.raiseErr e pos).epoch = s.epoch := rfl
@[simp] theorem State.raiseErr_draws (e : ErrCode) (pos : Nat) : (s.raiseErr e pos).draws = s.draws := rfl
@[simp] theorem State.raiseErr_host (e : ErrCode) (pos : Nat) : (s.raiseErr e pos).host = s.host := rfl
@[simp] theorem State.raiseErr_reply (e : ErrCode) (pos : Nat) : (s.raiseErr e pos).reply = s.reply := rfl

/-! ### `State.dropConfig` -/

@[simp] theorem State.dropConfig_radix : s.dropConfig.radix = s.radix := rfl
@[simp] theorem State.dropConfig_alen : s.dropConfig.alen = s.alen := rfl
@[simp] theorem State.dropConfig_cfg : s.dropConfig.cfg = s.cfg := rfl
@[simp] theorem State.dropConfig_padsym : s.dropConfig.padsym = s.padsym := rfl
@[simp] theorem State.dropConfig_status : s.dropConfig.status = s.status.unconfigured := rfl
@[simp] theorem State.dropConfig_olen : s.dropConfig.olen = s.olen := rfl
@[simp] theorem State.dropConfig_errpos : s.dropConfig.errpos = s.errpos := rfl
@[simp] theorem State.dropConfig_capIbuf : s.dropConfig.capIbuf = s.capIbuf := rfl
@[simp] theorem State.dropConfig_capObuf : s.dropConfig.capObuf = s.capObuf := rfl
@[simp] theorem State.dropConfig_sym : s.dropConfig.sym = s.sym := rfl
@[simp] theorem State.dropConfig_rlut : s.dropConfig.rlut = s.rlut := rfl
@[simp] theorem State.dropConfig_ibuf : s.dropConfig.ibuf = s.ibuf := rfl
@[simp] theorem State.dropConfig_obuf : s.dropConfig.obuf = s.obuf := rfl
@[simp] theorem State.dropConfig_epoch : s.dropConfig.epoch = s.epoch := rfl
@[simp] theorem State.dropConfig_draws : s.dropConfig.draws = s.draws := rfl
@[simp] theorem State.dropConfig_host : s.dropConfig.host = s.host := rfl
@[simp] theorem State.dropConfig_reply : s.dropConfig.reply = s.reply := rfl

/-! ### `State.withObuf` -/

@[simp] theorem State.withObuf_radix (t : List Byte) : (s.withObuf t).radix = s.radix := rfl
@[simp] theorem State.withObuf_alen (t : List Byte) : (s.withObuf t).alen = s.alen := rfl
@[simp] theorem State.withObuf_cfg (t : List Byte) : (s.withObuf t).cfg = s.cfg := rfl
@[simp] theorem State.withObuf_padsym (t : List Byte) : (s.withObuf t).padsym = s.padsym := rfl
@[simp] theorem State.withObuf_status (t : List Byte) : (s.withObuf t).status = s.status := rfl
@[simp] theorem State.withObuf_olen (t : List Byte) : (s.withObuf t).olen = s.olen := rfl
@[simp] theorem State.withObuf_errpos (t : List Byte) : (s.withObuf t).errpos = s.errpos := rfl
@[simp] theorem State.withObuf_capIbuf (t : List Byte) : (s.withObuf t).capIbuf = s.capIbuf := rfl
@[simp] theorem State.withObuf_capObuf (t : List Byte) : (s.withObuf t).capObuf = s.capObuf := rfl
@[simp] theorem State.withObuf_sym (t : List Byte) : (s.withObuf t).sym = s.sym := rfl
@[simp] theorem State.withObuf_rlut (t : List Byte) : (s.withObuf t).rlut = s.rlut := rfl
@[simp] theorem State.withObuf_ibuf (t : List Byte) : (s.withObuf t).ibuf = s.ibuf := rfl
@[simp] theorem State.withObuf_obuf (t : List Byte) : (s.withObuf t).obuf = Memory.ofBytes 0 t := rfl
@[simp] theorem State.withObuf_epoch (t : List Byte) : (s.withObuf t).epoch = s.epoch := rfl
@[simp] theorem State.withObuf_draws (t : List Byte) : (s.withObuf t).draws = s.draws := rfl
@[simp] theorem State.withObuf_host (t : List Byte) : (s.withObuf t).host = s.host := rfl
@[simp] theorem State.withObuf_reply (t : List Byte) : (s.withObuf t).reply = s.reply := rfl

/-! ### `State.withReply` -/

@[simp] theorem State.withReply_radix (r : Reply) : (s.withReply r).radix = s.radix := rfl
@[simp] theorem State.withReply_alen (r : Reply) : (s.withReply r).alen = s.alen := rfl
@[simp] theorem State.withReply_cfg (r : Reply) : (s.withReply r).cfg = s.cfg := rfl
@[simp] theorem State.withReply_padsym (r : Reply) : (s.withReply r).padsym = s.padsym := rfl
@[simp] theorem State.withReply_status (r : Reply) : (s.withReply r).status = s.status := rfl
@[simp] theorem State.withReply_olen (r : Reply) : (s.withReply r).olen = s.olen := rfl
@[simp] theorem State.withReply_errpos (r : Reply) : (s.withReply r).errpos = s.errpos := rfl
@[simp] theorem State.withReply_capIbuf (r : Reply) : (s.withReply r).capIbuf = s.capIbuf := rfl
@[simp] theorem State.withReply_capObuf (r : Reply) : (s.withReply r).capObuf = s.capObuf := rfl
@[simp] theorem State.withReply_sym (r : Reply) : (s.withReply r).sym = s.sym := rfl
@[simp] theorem State.withReply_rlut (r : Reply) : (s.withReply r).rlut = s.rlut := rfl
@[simp] theorem State.withReply_ibuf (r : Reply) : (s.withReply r).ibuf = s.ibuf := rfl
@[simp] theorem State.withReply_obuf (r : Reply) : (s.withReply r).obuf = s.obuf := rfl
@[simp] theorem State.withReply_epoch (r : Reply) : (s.withReply r).epoch = s.epoch := rfl
@[simp] theorem State.withReply_draws (r : Reply) : (s.withReply r).draws = s.draws := rfl
@[simp] theorem State.withReply_host (r : Reply) : (s.withReply r).host = s.host := rfl
@[simp] theorem State.withReply_reply (r : Reply) : (s.withReply r).reply = r := rfl

/-! ### `State.afterReset` -/

@[simp] theorem State.afterReset_radix : s.afterReset.radix = State.reset.radix := rfl
@[simp] theorem State.afterReset_alen : s.afterReset.alen = State.reset.alen := rfl
@[simp] theorem State.afterReset_cfg : s.afterReset.cfg = State.reset.cfg := rfl
@[simp] theorem State.afterReset_padsym : s.afterReset.padsym = State.reset.padsym := rfl
@[simp] theorem State.afterReset_status : s.afterReset.status = State.reset.status := rfl
@[simp] theorem State.afterReset_olen : s.afterReset.olen = State.reset.olen := rfl
@[simp] theorem State.afterReset_errpos : s.afterReset.errpos = State.reset.errpos := rfl
@[simp] theorem State.afterReset_capIbuf : s.afterReset.capIbuf = s.capIbuf := rfl
@[simp] theorem State.afterReset_capObuf : s.afterReset.capObuf = s.capObuf := rfl
@[simp] theorem State.afterReset_sym : s.afterReset.sym = State.reset.sym := rfl
@[simp] theorem State.afterReset_rlut : s.afterReset.rlut = State.reset.rlut := rfl
@[simp] theorem State.afterReset_ibuf : s.afterReset.ibuf = State.reset.ibuf := rfl
@[simp] theorem State.afterReset_obuf : s.afterReset.obuf = State.reset.obuf := rfl
@[simp] theorem State.afterReset_epoch : s.afterReset.epoch = s.epoch + 1 := rfl
@[simp] theorem State.afterReset_draws : s.afterReset.draws = s.draws := rfl
@[simp] theorem State.afterReset_host : s.afterReset.host = s.host := rfl
@[simp] theorem State.afterReset_reply : s.afterReset.reply = State.reset.reply := rfl

/-! ### `STATUS` -/

@[simp] theorem Status.withErr_cfgValid (e : ErrCode) : (st.withErr e).cfgValid = st.cfgValid := rfl
@[simp] theorem Status.withErr_mode (e : ErrCode) : (st.withErr e).mode = st.mode := rfl
@[simp] theorem Status.withErr_bits (e : ErrCode) : (st.withErr e).bits = st.bits := rfl
@[simp] theorem Status.withErr_err (e : ErrCode) : (st.withErr e).err = e := rfl
@[simp] theorem Status.unconfigured_cfgValid : st.unconfigured.cfgValid = false := rfl
@[simp] theorem Status.unconfigured_mode : st.unconfigured.mode = .bpc := rfl
@[simp] theorem Status.unconfigured_bits : st.unconfigured.bits = 0 := rfl
@[simp] theorem Status.unconfigured_err : st.unconfigured.err = st.err := rfl
@[simp] theorem Status.configured_cfgValid (m : Mode) (b : BitVec 4) : (st.configured m b).cfgValid = true := rfl
@[simp] theorem Status.configured_mode (m : Mode) (b : BitVec 4) : (st.configured m b).mode = m := rfl
@[simp] theorem Status.configured_bits (m : Mode) (b : BitVec 4) : (st.configured m b).bits = b := rfl
@[simp] theorem Status.configured_err (m : Mode) (b : BitVec 4) : (st.configured m b).err = st.err := rfl

/-! ### The memory of each space -/

@[simp] theorem State.memory_sym : s.memory .sym = s.sym := rfl
@[simp] theorem State.memory_ibuf : s.memory .ibuf = s.ibuf := rfl
@[simp] theorem State.memory_obuf : s.memory .obuf = s.obuf := rfl
@[simp] theorem State.spaceSize_sym : s.spaceSize .sym = 256 := rfl
@[simp] theorem State.spaceSize_ibuf : s.spaceSize .ibuf = s.ibufBytes := rfl
@[simp] theorem State.spaceSize_obuf : s.spaceSize .obuf = s.obufBytes := rfl

/-- A byte of a space depends on that space's memory and on the two counters of unspecified values alone. -/
theorem State.byteAt_congr (s t : State) (sp : Space) (i : Nat)
    (hm : Memory.find (t.memory sp) i = Memory.find (s.memory sp) i) (he : t.epoch = s.epoch) (hd : t.draws = s.draws) :
    t.byteAt sp i = s.byteAt sp i := by
  simp only [State.byteAt, State.unlisted, hm, he, hd]

/-- A byte of `SYM` or `IBUF` does not depend on the draws of `OBUF`. -/
theorem State.byteAt_congr_held (s t : State) (sp : Space) (i : Nat) (hsp : sp ≠ .obuf)
    (hm : Memory.find (t.memory sp) i = Memory.find (s.memory sp) i) (he : t.epoch = s.epoch) :
    t.byteAt sp i = s.byteAt sp i := by
  cases sp with
  | obuf => exact absurd rfl hsp
  | sym => simp only [State.byteAt, State.unlisted, hm, he]
  | ibuf => simp only [State.byteAt, State.unlisted, hm, he]

/-! ### `onNext` -/

@[simp] theorem onNext_next (f : State → State) : onNext f (.next s) = .next (f s) := rfl
@[simp] theorem onNext_fault (f : State → State) (r : Fault) : onNext f (.fault r) = .fault r := rfl
@[simp] theorem onNext_refused (f : State → State) (r : Refusal) : onNext f (.refused r) = .refused r := rfl

/-- An outcome under `onNext` goes on exactly when the outcome itself does. -/
theorem onNext_eq_next {f : State → State} {o : Host.Outcome State Fault Refusal} {t : State} :
    onNext f o = .next t ↔ ∃ u, o = .next u ∧ t = f u := by
  cases o <;> simp [onNext, eq_comm]

end Sys2Proof.Machine
end

