-- ==== Sys2Proof/Laws/Memory.lean ====
section
/-! SUPPORT. What reading, writing and filling a memory do, and that each keeps the canonical form and the range of indices. -/

namespace Sys2Proof.Machine

/-! ### Reading after writing -/

@[simp] theorem Memory.find_nil (a : Nat) : Memory.find [] a = none := rfl

theorem Memory.find_store_same (m : Memory) (a : Nat) (v : Byte) : Memory.find (Memory.store m a v) a = some v := by
  induction m with
  | nil => simp [Memory.store, Memory.find]
  | cons c m ih =>
    obtain ⟨k, b⟩ := c
    simp only [Memory.store]
    split
    · simp [Memory.find]
    · split
      · simp [Memory.find]
      · rw [Memory.find, if_neg (by omega), ih]

theorem Memory.find_store_other (m : Memory) (a i : Nat) (v : Byte) (h : i ≠ a) :
    Memory.find (Memory.store m a v) i = Memory.find m i := by
  induction m with
  | nil => simp [Memory.store, Memory.find, Ne.symm h]
  | cons c m ih =>
    obtain ⟨k, b⟩ := c
    simp only [Memory.store]
    split
    · rw [Memory.find, if_neg (Ne.symm h)]
    · split
      · subst_vars; rw [Memory.find, if_neg (Ne.symm h), Memory.find, if_neg (Ne.symm h)]
      · simp only [Memory.find, ih]

/-- The entries a store leaves: the old ones and the new one. -/
theorem Memory.mem_store {m : Memory} {a : Nat} {v : Byte} {c : Host.Cell} (h : c ∈ Memory.store m a v) :
    c = (a, v) ∨ c ∈ m := by
  induction m with
  | nil => simpa [Memory.store] using h
  | cons d m ih =>
    obtain ⟨k, b⟩ := d
    simp only [Memory.store] at h
    split at h
    · simpa using h
    · split at h
      · rcases List.mem_cons.1 h with h | h
        · exact .inl h
        · exact .inr (List.mem_cons_of_mem _ h)
      · rcases List.mem_cons.1 h with h | h
        · exact .inr (h ▸ List.mem_cons_self ..)
        · exact (ih h).imp id (List.mem_cons_of_mem _)

/-- A store keeps the canonical form. -/
theorem Memory.wf_store {m : Memory} (a : Nat) (v : Byte) (h : Memory.wf m) : Memory.wf (Memory.store m a v) := by
  induction m with
  | nil => simp [Memory.store, Memory.wf]
  | cons d m ih =>
    obtain ⟨k, b⟩ := d
    obtain ⟨hk, hm⟩ := List.pairwise_cons.1 h
    simp only [Memory.store]
    split
    · refine List.pairwise_cons.2 ⟨fun c hc => ?_, h⟩
      rcases List.mem_cons.1 hc with rfl | hc
      · assumption
      · have := hk c hc; simp only at this ⊢; omega
    · split
      · subst_vars; exact List.pairwise_cons.2 ⟨hk, hm⟩
      · refine List.pairwise_cons.2 ⟨fun c hc => ?_, ih hm⟩
        rcases Memory.mem_store hc with rfl | hc
        · simp only; omega
        · exact hk c hc

/-- A store inside a range keeps the entries inside it. -/
theorem Memory.within_store {m : Memory} {n a : Nat} {v : Byte} (h : Memory.within m n) (ha : a < n) :
    Memory.within (Memory.store m a v) n := fun c hc => by
  rcases Memory.mem_store hc with rfl | hc
  · exact ha
  · exact h c hc

/-! ### Filling a memory from its start -/

theorem Memory.mem_ofBytes {base : Nat} {t : List Byte} {c : Host.Cell} (h : c ∈ Memory.ofBytes base t) :
    base ≤ c.1 ∧ c.1 < base + t.length := by
  induction t generalizing base with
  | nil => simp [Memory.ofBytes] at h
  | cons b t ih =>
    rcases List.mem_cons.1 h with rfl | h
    · simp
    · have := ih h; simp only [List.length_cons]; omega

/-- Filling gives the canonical form. -/
theorem Memory.wf_ofBytes (base : Nat) (t : List Byte) : Memory.wf (Memory.ofBytes base t) := by
  induction t generalizing base with
  | nil => simp [Memory.ofBytes, Memory.wf]
  | cons b t ih =>
    refine List.pairwise_cons.2 ⟨fun c hc => ?_, ih _⟩
    have := Memory.mem_ofBytes hc
    simp only; omega

/-- Entry `base + i` of a filled memory is byte `i` of the sequence. -/
theorem Memory.find_ofBytes (base i : Nat) (t : List Byte) : Memory.find (Memory.ofBytes base t) (base + i) = t[i]? := by
  induction t generalizing base i with
  | nil => simp [Memory.ofBytes]
  | cons b t ih =>
    cases i with
    | zero => simp [Memory.ofBytes, Memory.find]
    | succ i =>
      rw [Memory.ofBytes, Memory.find, if_neg (by omega), show base + (i + 1) = base + 1 + i by omega, ih]
      simp

theorem Memory.find_ofBytes_zero (i : Nat) (t : List Byte) : Memory.find (Memory.ofBytes 0 t) i = t[i]? := by
  simpa using Memory.find_ofBytes 0 i t

theorem Memory.within_ofBytes {t : List Byte} {n : Nat} (h : t.length ≤ n) : Memory.within (Memory.ofBytes 0 t) n :=
  fun c hc => by have := Memory.mem_ofBytes hc; omega

/-- An index outside the range of a memory is not listed. -/
theorem Memory.find_eq_none_of_within {m : Memory} {n i : Nat} (h : Memory.within m n) (hi : n ≤ i) :
    Memory.find m i = none := by
  induction m with
  | nil => rfl
  | cons c m ih =>
    obtain ⟨k, b⟩ := c
    have hk : k < n := h (k, b) (List.mem_cons_self ..)
    rw [Memory.find, if_neg (by omega)]
    exact ih fun c hc => h c (List.mem_cons_of_mem _ hc)

/-! ### Bytes of the state -/

theorem State.length_input (s : State) (n : Nat) : (s.input n).length = n := by simp [State.input]

theorem State.getElem_input (s : State) (n i : Nat) (h : i < (s.input n).length) : (s.input n)[i] = s.ibufAt i := by
  simp [State.input]

theorem State.getD_input (s : State) (n i : Nat) (h : i < n) : (s.input n).getD i 0 = s.ibufAt i := by
  simp [State.input, List.getD_eq_getElem?_getD, h]

theorem State.length_alphabet (s : State) (r : Nat) : (s.alphabet r).length = r := by simp [State.alphabet]

theorem State.getElem_alphabet (s : State) (r i : Nat) (h : i < (s.alphabet r).length) :
    (s.alphabet r)[i] = s.symAt i := by simp [State.alphabet]

end Sys2Proof.Machine
end

