-- ==== Sys2Proof/Laws/Configure.lean ====
section
/-! SUPPORT. What CONFIGURE's checks accept, in the terms of Safety.lean, and what a ready block therefore has: a legal width
or base, an alphabet of distinct symbols, a pad symbol outside it, and an `RLUT` that is the inverse of the alphabet. -/

namespace Sys2Proof.Machine

/-! ### The table of R103 -/

theorem log2Radix_eq_some {r : Nat} {b : BitVec 4} :
    log2Radix r = some b ↔ 1 ≤ b.toNat ∧ b.toNat ≤ 8 ∧ r = 2 ^ b.toNat := by
  constructor
  · unfold log2Radix; split <;> intro h <;> simp at h <;> subst h <;> decide
  · rintro ⟨h1, h2, rfl⟩
    have : b.toNat = 1 ∨ b.toNat = 2 ∨ b.toNat = 3 ∨ b.toNat = 4 ∨ b.toNat = 5 ∨ b.toNat = 6 ∨ b.toNat = 7 ∨
      b.toNat = 8 := by omega
    rcases this with h | h | h | h | h | h | h | h <;> rw [h] <;> simp only [Nat.reducePow, log2Radix] <;>
      exact congrArg some (BitVec.eq_of_toNat_eq (by rw [h]; rfl))

theorem log2Radix_eq_none {r : Nat} : log2Radix r = none ↔ ¬ IsPow2Radix r := by
  constructor
  · rintro h (rfl | rfl | rfl | rfl | rfl | rfl | rfl | rfl) <;> simp [log2Radix] at h
  · intro h; unfold log2Radix; split <;> first | rfl | exact absurd (by decide) h

/-- The rows of R103 that give a unit. -/
theorem select_eq_some {r : Nat} {c : Codec} {m : Mode} {b : BitVec 4} :
    select r c = some (m, b) ↔ SelectedUnit r c m b := by
  cases c <;> simp only [select, SelectedUnit]
  · cases h : log2Radix r with
    | some b' =>
      have h' := log2Radix_eq_some.1 h
      have hp : IsPow2Radix r := by
        by_contra hn; rw [log2Radix_eq_none.2 hn] at h; simp at h
      simp only [Option.some.injEq, Prod.mk.injEq]
      constructor
      · rintro ⟨rfl, rfl⟩; exact .inl ⟨rfl, .inl trivial, h'⟩
      · rintro (⟨rfl, -, hb⟩ | ⟨-, -, -, hn, -⟩ | ⟨-, -, hc, -⟩)
        · have := log2Radix_eq_some.2 hb; simp_all
        · exact absurd hp hn
        · cases hc
    | none =>
      have hn := log2Radix_eq_none.1 h
      simp only
      split
      · rename_i hr
        simp only [Option.some.injEq, Prod.mk.injEq]
        constructor
        · rintro ⟨rfl, rfl⟩; exact .inr (.inl ⟨rfl, rfl, trivial, hn, hr.1, hr.2⟩)
        · rintro (⟨-, -, hb⟩ | ⟨rfl, rfl, -⟩ | ⟨-, -, hc, -⟩)
          · have := log2Radix_eq_some.2 hb; simp_all
          · exact ⟨rfl, rfl⟩
          · cases hc
      · rename_i hr
        simp only [reduceCtorEq, false_iff]
        rintro (⟨-, -, hb⟩ | ⟨-, -, -, -, h1, h2⟩ | ⟨-, -, hc, -⟩)
        · have := log2Radix_eq_some.2 hb; simp_all
        · exact hr ⟨h1, h2⟩
        · cases hc
  · cases h : log2Radix r with
    | some b' =>
      have h' := log2Radix_eq_some.1 h
      simp only [Option.some.injEq, Prod.mk.injEq]
      constructor
      · rintro ⟨rfl, rfl⟩; exact .inl ⟨rfl, .inr trivial, h'⟩
      · rintro (⟨rfl, -, hb⟩ | ⟨-, -, hc, -⟩ | ⟨-, -, hc, -⟩)
        · have := log2Radix_eq_some.2 hb; simp_all
        · cases hc
        · cases hc
    | none =>
      simp only [reduceCtorEq, false_iff]
      rintro (⟨-, -, hb⟩ | ⟨-, -, hc, -⟩ | ⟨-, -, hc, -⟩)
      · have := log2Radix_eq_some.2 hb; simp_all
      · cases hc
      · cases hc
  · split
    · rename_i hr
      simp only [Option.some.injEq, Prod.mk.injEq]
      constructor
      · rintro ⟨rfl, rfl⟩; exact .inr (.inr ⟨rfl, rfl, trivial, hr.1, hr.2⟩)
      · rintro (⟨-, hc, -⟩ | ⟨-, -, hc, -⟩ | ⟨rfl, rfl, -⟩)
        · simp at hc
        · cases hc
        · exact ⟨rfl, rfl⟩
    · rename_i hr
      simp only [reduceCtorEq, false_iff]
      rintro (⟨-, hc, -⟩ | ⟨-, -, hc, -⟩ | ⟨-, -, -, h1, h2⟩)
      · simp at hc
      · cases hc
      · exact hr ⟨h1, h2⟩
  · simp

/-- The rows of R103 that raise InvalidRadix. -/
theorem select_eq_none {r : Nat} {c : Codec} (hc : c ≠ .reserved) : select r c = none ↔ RadixRejected r c := by
  cases c with
  | reserved => exact absurd rfl hc
  | auto =>
    simp only [select, RadixRejected]
    cases h : log2Radix r with
    | some b =>
      have hp : IsPow2Radix r := by
        by_contra hn; rw [log2Radix_eq_none.2 hn] at h; simp at h
      simp only [reduceCtorEq, false_iff]
      rcases hp with rfl | rfl | rfl | rfl | rfl | rfl | rfl | rfl <;> decide
    | none =>
      have hn := log2Radix_eq_none.1 h
      simp only [ite_eq_right_iff, reduceCtorEq, imp_false]
      have h256 : r ≠ 256 := fun e => hn (by subst e; decide)
      have h2 : r ≠ 2 := fun e => hn (by subst e; decide)
      omega
  | bitpack =>
    simp only [select, RadixRejected]
    rw [← log2Radix_eq_none]
    cases log2Radix r <;> simp
  | bigradix =>
    simp only [select, RadixRejected, ite_eq_right_iff, reduceCtorEq, imp_false]
    omega

/-! ### The validation loop of R104 -/

theorem Rlut.index_append (t : Rlut) (k k' v : Byte) :
    Rlut.index (t ++ [(k', v)]) k = (Rlut.index t k).or (if k = k' then some v else none) := by
  simp only [Rlut.index, List.lookup_append, List.lookup_cons, List.lookup_nil]
  by_cases h : k = k'
  · subst h; simp
  · rw [beq_eq_false_iff_ne.2 h, if_neg h]

/-- The loop fails exactly on a code that is already entered or that stands twice in the list. -/
theorem enterSymbols_eq_none (cfg : BitVec 6) (cs : List Byte) (i : Nat) (t : Rlut) :
    enterSymbols cfg cs i t = none ↔
      (∃ j, ∃ h : j < cs.length, (Rlut.index t (norm cfg cs[j])).isSome = true) ∨
      (∃ j k, ∃ hk : k < cs.length, ∃ hj : j < k, norm cfg (cs[j]'(by omega)) = norm cfg cs[k]) := by
  induction cs generalizing i t with
  | nil => simp [enterSymbols]
  | cons c cs ih =>
    simp only [enterSymbols]
    split
    · rename_i hs
      simp only [true_iff]
      exact .inl ⟨0, by simp, by simpa using hs⟩
    · rename_i hs
      rw [ih]
      constructor
      · rintro (⟨j, hj, h⟩ | ⟨j, k, hk, hj, h⟩)
        · rw [Rlut.index_append] at h
          cases h' : Rlut.index t (norm cfg cs[j]) with
          | some v => exact .inl ⟨j + 1, by simpa using hj, by simp [h']⟩
          | none =>
            rw [h'] at h
            simp only [Option.none_or, Option.isSome_ite] at h
            exact .inr ⟨0, j + 1, by simpa using hj, by omega, by simpa using h.symm⟩
        · exact .inr ⟨j + 1, k + 1, by simpa using hk, by omega, by simpa using h⟩
      · rintro (⟨j, hj, h⟩ | ⟨j, k, hk, hj, h⟩)
        · cases j with
          | zero => exact absurd (by simpa using h) hs
          | succ j =>
            refine .inl ⟨j, by simpa using hj, ?_⟩
            simp only [List.getElem_cons_succ] at h
            obtain ⟨v, hv⟩ := Option.isSome_iff_exists.1 h
            rw [Rlut.index_append, hv]
            simp
        · cases k with
          | zero => omega
          | succ k =>
            cases j with
            | zero =>
              have hk' : k < cs.length := by simpa using hk
              refine .inl ⟨k, hk', ?_⟩
              simp only [List.getElem_cons_zero, List.getElem_cons_succ] at h
              rw [Rlut.index_append, h]
              cases Rlut.index t (norm cfg cs[k]) <;> simp
            | succ j => exact .inr ⟨j, k, by simpa using hk, by omega, by simpa using h⟩

/-- What the loop enters: every code of the list with its index, beside what was there (R106). -/
theorem enterSymbols_index {cfg : BitVec 6} {cs : List Byte} {i : Nat} {t t' : Rlut}
    (h : enterSymbols cfg cs i t = some t') (k v : Byte) :
    Rlut.index t' k = some v ↔
      Rlut.index t k = some v ∨
      ∃ j, ∃ hj : j < cs.length, norm cfg cs[j] = k ∧ v = BitVec.ofNat 8 (i + j) := by
  induction cs generalizing i t with
  | nil => simp only [enterSymbols, Option.some.injEq] at h; subst h; simp
  | cons c cs ih =>
    simp only [enterSymbols] at h
    split at h
    · simp at h
    · rename_i hs
      have hs : Rlut.index t (norm cfg c) = none := by simpa using hs
      rw [ih h, Rlut.index_append]
      constructor
      · rintro (h' | ⟨j, hj, hk, hv⟩)
        · by_cases hk : k = norm cfg c
          · subst hk
            rw [hs] at h'
            simp only [Option.none_or, if_pos, Option.some.injEq] at h'
            exact .inr ⟨0, by simp, by simp, by simp [← h']⟩
          · rw [if_neg hk, Option.or_none] at h'
            exact .inl h'
        · exact .inr ⟨j + 1, by simpa using hj, by simpa using hk, by rw [hv]; congr 1; omega⟩
      · rintro (h' | ⟨j, hj, hk, hv⟩)
        · exact .inl (by rw [h']; simp)
        · cases j with
          | zero =>
            simp only [List.getElem_cons_zero] at hk
            subst hk
            exact .inl (by rw [hs]; simp [hv])
          | succ j => exact .inr ⟨j, by simpa using hj, by simpa using hk, by rw [hv]; congr 1; omega⟩

/-! ### Validation as a whole -/

/-- `RLUT` of a successful validation is the inverse of the alphabet (R106). -/
def State.InverseTable (s : State) (t : Rlut) : Prop :=
  ∀ k v : Byte, Rlut.index t k = some v ↔ v.toNat < s.radix.toNat ∧ norm s.cfg (s.symAt v.toNat) = k

theorem State.enterSymbols_alphabet {s : State} {t : Rlut} (hr : s.radix.toNat ≤ 256)
    (h : enterSymbols s.cfg (s.alphabet s.radix.toNat) 0 [] = some t) : s.InverseTable t := by
  intro k v
  rw [enterSymbols_index h]
  simp only [Rlut.index, List.lookup_nil, reduceCtorEq, false_or, State.length_alphabet, State.getElem_alphabet,
    Nat.zero_add, exists_prop]
  constructor
  · rintro ⟨j, hj, hk, rfl⟩
    rw [BitVec.toNat_ofNat, Nat.mod_eq_of_lt (by omega)]
    exact ⟨hj, hk⟩
  · rintro ⟨hv, hk⟩
    exact ⟨v.toNat, hv, hk, by simp⟩

/-- `validate` fails exactly for the three causes of R193. -/
theorem State.validate_eq_none {s : State} (hr : s.radix.toNat ≤ 256) :
    s.validate s.radix.toNat = none ↔ s.AlphabetRejected := by
  have hlen : s.alen.toNat ≠ s.radix.toNat ↔ s.alen ≠ s.radix :=
    not_congr ⟨BitVec.eq_of_toNat_eq, congrArg _⟩
  have hnone := enterSymbols_eq_none s.cfg (s.alphabet s.radix.toNat) 0 []
  simp only [Rlut.index, List.lookup_nil, Option.isSome_none, Bool.false_eq_true, exists_false, false_or,
    State.length_alphabet, State.getElem_alphabet, exists_prop] at hnone
  have hdup : enterSymbols s.cfg (s.alphabet s.radix.toNat) 0 [] = none ↔
      ∃ i j, i < j ∧ j < s.radix.toNat ∧ norm s.cfg (s.symAt i) = norm s.cfg (s.symAt j) := by
    rw [hnone]
    exact ⟨fun ⟨j, k, hk, hj, h⟩ => ⟨j, k, hj, hk, h⟩, fun ⟨j, k, hj, hk, h⟩ => ⟨j, k, hk, hj, h⟩⟩
  unfold State.validate State.AlphabetRejected
  rw [← hlen, ← hdup]
  split
  · rename_i h; simp [h]
  · rename_i h
    cases ht : enterSymbols s.cfg (s.alphabet s.radix.toNat) 0 [] with
    | none => simp
    | some t =>
      have hinv := State.enterSymbols_alphabet hr ht
      have hpad : (Rlut.index t (norm s.cfg s.padsym)).isSome = true ↔
          ∃ i, i < s.radix.toNat ∧ norm s.cfg (s.symAt i) = norm s.cfg s.padsym := by
        rw [Option.isSome_iff_exists]
        constructor
        · rintro ⟨v, hv⟩; exact ⟨v.toNat, (hinv _ _).1 hv⟩
        · rintro ⟨i, hi, h⟩
          refine ⟨BitVec.ofNat 8 i, (hinv _ _).2 ?_⟩
          rw [BitVec.toNat_ofNat, Nat.mod_eq_of_lt (by omega)]
          exact ⟨hi, h⟩
      simp only [hpad, ite_eq_left_iff, reduceCtorEq, imp_false, not_not, false_or]
      simp [h]

theorem State.validate_table {s : State} {t : Rlut} (hr : s.radix.toNat ≤ 256)
    (h : s.validate s.radix.toNat = some t) : s.InverseTable t := by
  unfold State.validate at h
  split at h
  · simp at h
  · cases ht : enterSymbols s.cfg (s.alphabet s.radix.toNat) 0 [] with
    | none => rw [ht] at h; simp at h
    | some t' =>
      rw [ht] at h
      simp only at h
      split at h
      · simp at h
      · simp only [Option.some.injEq] at h; subst h; exact State.enterSymbols_alphabet hr ht

/-- A radix that some row of R103 takes is at most 256. -/
theorem SelectedUnit.radix_le {r : Nat} {c : Codec} {m : Mode} {b : BitVec 4} (h : SelectedUnit r c m b) : r ≤ 256 := by
  rcases h with ⟨-, -, -, h8, rfl⟩ | ⟨-, -, -, -, -, h⟩ | ⟨-, -, -, -, h⟩
  · exact le_trans (Nat.pow_le_pow_right (by decide) h8) (by decide)
  · omega
  · omega

/-- Everything a successful construction says. -/
theorem State.construct_eq_ok {s : State} {c : Construction} (h : s.construct = .ok c) :
    SelectedUnit s.radix.toNat (cfgCodec s.cfg) c.mode c.bits ∧ ¬ s.AlphabetRejected ∧ s.InverseTable c.rlut := by
  unfold State.construct at h
  split at h
  · simp at h
  · split at h
    · simp at h
    · rename_i m b hsel
      have hu := select_eq_some.1 hsel
      split at h
      · simp at h
      · rename_i t ht
        simp only [Except.ok.injEq] at h
        subst h
        refine ⟨hu, fun hr => ?_, State.validate_table hu.radix_le ht⟩
        rw [(State.validate_eq_none hu.radix_le).2 hr] at ht
        simp at ht

/-- Where the checks pass, construction succeeds with the unit of R103. -/
theorem State.construct_of_accepted {s : State} {m : Mode} {b : BitVec 4}
    (hu : SelectedUnit s.radix.toNat (cfgCodec s.cfg) m b) (ha : ¬ s.AlphabetRejected) :
    ∃ t, s.construct = .ok { mode := m, bits := b, rlut := t } ∧ s.InverseTable t := by
  have hc : cfgCodec s.cfg ≠ .reserved := by
    intro hc; rw [hc] at hu; rcases hu with ⟨-, h | h, -⟩ | ⟨-, -, h, -⟩ | ⟨-, -, h, -⟩ <;> cases h
  cases ht : s.validate s.radix.toNat with
  | none => exact absurd ((State.validate_eq_none hu.radix_le).1 ht) ha
  | some t =>
    refine ⟨t, ?_, State.validate_table hu.radix_le ht⟩
    unfold State.construct
    rw [if_neg hc, select_eq_some.2 hu]
    simp only [ht]

/-- Construction reads nothing but `RADIX`, `ALEN`, `CFG`, `PADSYM` and `SYM[0, RADIX)` (R111). -/
theorem State.construct_congr {s t : State} (hr : t.radix = s.radix) (ha : t.alen = s.alen) (hc : t.cfg = s.cfg)
    (hp : t.padsym = s.padsym) (hs : ∀ i < s.radix.toNat, t.symAt i = s.symAt i) : t.construct = s.construct := by
  have : t.alphabet s.radix.toNat = s.alphabet s.radix.toNat :=
    List.map_congr_left fun i hi => hs i (List.mem_range.1 hi)
  simp only [State.construct, State.validate, hr, ha, hc, hp, this]

/-! ### A ready block -/

theorem State.Ready.unit {s : State} {m : Mode} (h : s.Ready m) :
    SelectedUnit s.radix.toNat (cfgCodec s.cfg) m s.status.bits := by
  have := (State.construct_eq_ok h.2.2).1
  rwa [h.2.1] at this

theorem State.Ready.accepted {s : State} {m : Mode} (h : s.Ready m) : ¬ s.AlphabetRejected :=
  (State.construct_eq_ok h.2.2).2.1

theorem State.Ready.table {s : State} {m : Mode} (h : s.Ready m) : s.InverseTable s.rlut :=
  (State.construct_eq_ok h.2.2).2.2

theorem State.Ready.radix_le {s : State} {m : Mode} (h : s.Ready m) : s.radix.toNat ≤ 256 := h.unit.radix_le

/-- In BPC mode 1 ≤ b ≤ 8 and `RADIX` = 2^b (R130). -/
theorem State.Ready.width {s : State} (h : s.Ready .bpc) :
    1 ≤ s.width ∧ s.width ≤ 8 ∧ s.radix.toNat = 2 ^ s.width := by
  rcases h.unit with ⟨-, -, h1, h2, h3⟩ | ⟨h, -⟩ | ⟨h, -⟩
  · exact ⟨h1, h2, h3⟩
  · cases h
  · cases h

/-- In BRC mode 2 ≤ R ≤ 255 (R160). -/
theorem State.Ready.base {s : State} (h : s.Ready .brc) : 2 ≤ s.base ∧ s.base ≤ 255 := by
  rcases h.unit with ⟨h, -⟩ | ⟨-, -, -, -, h1, h2⟩ | ⟨-, -, -, h1, h2⟩
  · cases h
  · exact ⟨le_trans (by decide) h1, h2⟩
  · exact ⟨h1, h2⟩

/-- The symbols of a valid alphabet are pairwise distinct after normalisation (R104). -/
theorem State.Ready.distinct {s : State} {m : Mode} (h : s.Ready m) {i j : Nat} (hi : i < s.radix.toNat)
    (hj : j < s.radix.toNat) (he : norm s.cfg (s.symAt i) = norm s.cfg (s.symAt j)) : i = j := by
  by_contra hne
  rcases Nat.lt_or_gt_of_ne hne with hlt | hlt
  · exact h.accepted (.inr (.inl ⟨i, j, hlt, hj, he⟩))
  · exact h.accepted (.inr (.inl ⟨j, i, hlt, hi, he.symm⟩))

/-- The pad symbol is outside a valid alphabet (R104). -/
theorem State.Ready.not_pad {s : State} {m : Mode} (h : s.Ready m) {c : Byte} {v : Nat} (hv : s.IsSymbol c v) :
    ¬ s.IsPad c := fun hp => h.accepted (.inr (.inr ⟨hp.1, v, hv.1, hv.2.trans hp.2⟩))

/-! ### Classification (R105) -/

/-- A code of class PAD is the pad symbol, in BPC mode. -/
theorem State.cls_eq_pad {s : State} {c : Byte} : s.cls c = .pad ↔ s.status.mode = .bpc ∧ s.IsPad c := by
  simp only [State.cls, State.padActive, State.IsPad, Bool.and_eq_true, decide_eq_true_eq]
  split
  · rename_i h; simp [h]
  · rename_i h
    constructor
    · intro h'; split at h' <;> cases h'
    · rintro ⟨h1, h2, h3⟩; exact absurd ⟨⟨h2, h1⟩, h3⟩ h

/-- A code of class DATA(v) is the alphabet's symbol v. -/
theorem State.Ready.cls_eq_data {s : State} {m : Mode} (h : s.Ready m) {c : Byte} {v : Nat} :
    s.cls c = .data v ↔ s.IsSymbol c v := by
  have hle := h.radix_le
  constructor
  · intro hc
    simp only [State.cls] at hc
    split at hc
    · cases hc
    · split at hc
      · rename_i i hi
        simp only [SymClass.data.injEq] at hc
        subst hc
        exact (h.table _ _).1 hi
      · cases hc
  · intro hv
    have hnp : s.cls c ≠ .pad := fun hp => h.not_pad hv (State.cls_eq_pad.1 hp).2
    have hidx : Rlut.index s.rlut (norm s.cfg c) = some (BitVec.ofNat 8 v) := by
      have hv1 := hv.1
      refine (h.table _ _).2 ?_
      rw [BitVec.toNat_ofNat, Nat.mod_eq_of_lt (by omega)]
      exact hv
    simp only [State.cls] at hnp ⊢
    split
    · rename_i hp; rw [if_pos hp] at hnp; exact absurd rfl hnp
    · have hv1 := hv.1
      simp only [hidx, BitVec.toNat_ofNat]
      rw [Nat.mod_eq_of_lt (by omega)]

/-- Any other code is of class INVALID. -/
theorem State.Ready.cls_eq_invalid {s : State} {m : Mode} (h : s.Ready m) {c : Byte}
    (hp : m = .bpc → ¬ s.IsPad c) (hs : ¬ ∃ v, s.IsSymbol c v) : s.cls c = .invalid := by
  cases hc : s.cls c with
  | pad =>
    obtain ⟨h1, h2⟩ := State.cls_eq_pad.1 hc
    exact absurd h2 (hp (h.2.1.symm.trans h1))
  | data v => exact absurd ⟨v, h.cls_eq_data.1 hc⟩ hs
  | invalid => rfl

/-- The alphabet's own symbol v is of class DATA(v). -/
theorem State.isSymbol_symAt {s : State} {v : Nat} (hv : v < s.radix.toNat) : s.IsSymbol (s.symAt v) v := ⟨hv, rfl⟩

end Sys2Proof.Machine
end

