-- ==== Sys2Proof/Laws/Commands.lean ====
section
/-! SUPPORT. Everything each command, and the shared operations under it, can answer: one lemma each, which later proofs cite
instead of unfolding the meanings. -/

namespace Sys2Proof.Machine

/-! ### Delivery of a result -/

/-- The two ends of a delivery (R108, R109 steps 5 and 6). -/
theorem State.deliver_cases (s : State) (t : List Byte) :
    (s.obufBytes < t.length ∧ s.deliver t = (s.withObuf []).raiseErr .outputOverflow 0) ∨
    (t.length ≤ s.obufBytes ∧ s.deliver t = (s.withObuf t).done t.length) := by
  unfold State.deliver
  split
  · exact .inl ⟨‹_›, rfl⟩
  · exact .inr ⟨by omega, rfl⟩

theorem State.deliver_overflow {s : State} {t : List Byte} (h : s.obufBytes < t.length) :
    s.deliver t = s.failed .outputOverflow 0 := by
  unfold State.deliver
  rw [if_pos h]
  rfl

theorem State.deliver_fits {s : State} {t : List Byte} (h : t.length ≤ s.obufBytes) :
    s.deliver t = (s.withObuf t).done t.length := by
  unfold State.deliver
  rw [if_neg (by omega)]

/-- A result that fits is delivered whole. -/
theorem State.holds_done {s : State} {t : List Byte} (h : t.length ≤ s.obufBytes) :
    ((s.withObuf t).done t.length).Holds t := by
  constructor
  · rw [State.done_olen, BitVec.toNat_ofNat, Nat.mod_eq_of_lt]
    exact lt_of_le_of_lt h (BitVec.isLt _)
  · intro i hi
    rw [State.done_obuf, State.withObuf_obuf, Memory.find_ofBytes_zero, List.getD_eq_getElem?_getD,
      List.getElem?_eq_getElem hi]
    rfl

theorem State.succeeded_done (s : State) (n : Nat) : (s.done n).Succeeded := ⟨rfl, rfl⟩

/-- Delivery changes nothing but the result. -/
theorem State.sameButResult_deliver (s : State) (t : List Byte) : s.SameButResult (s.deliver t) := by
  rcases s.deliver_cases t with ⟨-, h⟩ | ⟨-, h⟩ <;> rw [h] <;>
    exact ⟨rfl, rfl, rfl, rfl, rfl, rfl, rfl, rfl, rfl, rfl, fun _ => rfl, fun _ => rfl, rfl, rfl, rfl, rfl⟩

theorem State.sameButResult_raiseErr (s : State) (e : ErrCode) (p : Nat) : s.SameButResult (s.raiseErr e p) :=
  ⟨rfl, rfl, rfl, rfl, rfl, rfl, rfl, rfl, rfl, rfl, fun _ => rfl, fun _ => rfl, rfl, rfl, rfl, rfl⟩

theorem State.sameButResult_failed (s : State) (e : ErrCode) (p : Nat) : s.SameButResult (s.failed e p) :=
  ⟨rfl, rfl, rfl, rfl, rfl, rfl, rfl, rfl, rfl, rfl, fun _ => rfl, fun _ => rfl, rfl, rfl, rfl, rfl⟩

/-! ### The pre-checks -/

theorem State.preCheck_cases (s : State) (n : Nat) :
    (s.status.cfgValid = false ∧ s.preCheck n = some .notConfigured) ∨
    (s.status.cfgValid = true ∧ s.ibufBytes < n ∧ s.preCheck n = some .inputLength) ∨
    (s.status.cfgValid = true ∧ n ≤ s.ibufBytes ∧ s.preCheck n = none) := by
  unfold State.preCheck
  cases s.status.cfgValid
  · exact .inl ⟨rfl, rfl⟩
  · by_cases h : s.ibufBytes < n
    · exact .inr (.inl ⟨rfl, h, by simp [h]⟩)
    · exact .inr (.inr ⟨rfl, by omega, by simp [h]⟩)

theorem State.preCheck_none {s : State} {n : Nat} (hv : s.status.cfgValid = true) (hn : n ≤ s.ibufBytes) :
    s.preCheck n = none := by
  unfold State.preCheck
  simp [hv, Nat.not_lt.2 hn]

/-! ### The four commands -/

/-- Everything CONFIGURE can answer (R102). -/
theorem execConfigure_cases (s : State) :
    (∃ e, s.construct = .error e ∧ execConfigure s = .next (s.dropConfig.raiseErr e 0)) ∨
    (∃ c, s.construct = .ok c ∧ execConfigure s =
      .next ({ s with status := s.status.configured c.mode c.bits, rlut := c.rlut }.done 0)) := by
  unfold execConfigure
  cases h : s.construct with
  | error e => exact .inl ⟨e, rfl, rfl⟩
  | ok c => exact .inr ⟨c, rfl, rfl⟩

/-- Everything ENCODE can answer (R108). -/
theorem execEncode_cases (n : Nat) (s : State) :
    (s.status.cfgValid = false ∧ execEncode n s = .next (s.raiseErr .notConfigured 0)) ∨
    (s.status.cfgValid = true ∧ s.ibufBytes < n ∧ execEncode n s = .next (s.raiseErr .inputLength 0)) ∨
    (s.status.cfgValid = true ∧ n ≤ s.ibufBytes ∧
      execEncode n s = .next (s.deliver (s.encodeText (s.input n)))) := by
  unfold execEncode
  rcases s.preCheck_cases n with ⟨h, hp⟩ | ⟨h, h', hp⟩ | ⟨h, h', hp⟩ <;> rw [hp]
  · exact .inl ⟨h, rfl⟩
  · exact .inr (.inl ⟨h, h', rfl⟩)
  · exact .inr (.inr ⟨h, h', rfl⟩)

/-- Everything DECODE can answer (R109). -/
theorem execDecode_cases (n : Nat) (s : State) :
    (s.status.cfgValid = false ∧ execDecode n s = .next (s.raiseErr .notConfigured 0)) ∨
    (s.status.cfgValid = true ∧ s.ibufBytes < n ∧ execDecode n s = .next (s.raiseErr .inputLength 0)) ∨
    (s.status.cfgValid = true ∧ n ≤ s.ibufBytes ∧ ∃ e, s.decodeText (s.input n) = .error e ∧
      execDecode n s = .next (s.failed e.kind e.pos)) ∨
    (s.status.cfgValid = true ∧ n ≤ s.ibufBytes ∧ ∃ y, s.decodeText (s.input n) = .ok y ∧
      execDecode n s = .next (s.deliver y)) := by
  unfold execDecode
  rcases s.preCheck_cases n with ⟨h, hp⟩ | ⟨h, h', hp⟩ | ⟨h, h', hp⟩ <;> rw [hp]
  · exact .inl ⟨h, rfl⟩
  · exact .inr (.inl ⟨h, h', rfl⟩)
  · cases hd : s.decodeText (s.input n) with
    | error e => exact .inr (.inr (.inl ⟨h, h', e, rfl, rfl⟩))
    | ok y => exact .inr (.inr (.inr ⟨h, h', y, rfl, rfl⟩))

/-- CLEAR has one answer (R107). -/
theorem execClear_eq (s : State) :
    execClear s = .next ({ s with radix := 0, alen := 0, cfg := 0, padsym := 0 }.dropConfig.done 0) := rfl

/-- ENCODE of a ready block past its pre-checks. -/
theorem execEncode_ready {s : State} {m : Mode} {n : Nat} (h : s.Ready m) (hn : n ≤ s.ibufBytes) :
    execEncode n s = .next (s.deliver (s.encodeText (s.input n))) := by
  unfold execEncode
  rw [State.preCheck_none h.1 hn]

/-- DECODE of a ready block past its pre-checks, when the text is good. -/
theorem execDecode_ok {s : State} {m : Mode} {n : Nat} {y : List Byte} (h : s.Ready m) (hn : n ≤ s.ibufBytes)
    (hy : s.decodeText (s.input n) = .ok y) : execDecode n s = .next (s.deliver y) := by
  unfold execDecode
  rw [State.preCheck_none h.1 hn]
  simp only [hy]

/-- DECODE of a ready block past its pre-checks, when the text is bad. -/
theorem execDecode_error {s : State} {m : Mode} {n : Nat} {e : CmdError} (h : s.Ready m) (hn : n ≤ s.ibufBytes)
    (he : s.decodeText (s.input n) = .error e) : execDecode n s = .next (s.failed e.kind e.pos) := by
  unfold execDecode
  rw [State.preCheck_none h.1 hn]
  simp only [he]
  rfl

/-- Two answers of one command are one state. -/
theorem next_inj {a b : State} (h : (Host.Outcome.next a : Host.Outcome State Fault Refusal) = .next b) : a = b := by
  cases h; rfl

end Sys2Proof.Machine
end

