-- ==== Sys2Proof/Laws/Numbers.lean ====
section
/-! SUPPORT. Byte sequences, digit sequences and bit streams as numbers: how each splits, its range, and that the three agree
(spec/20_memory.md R63, R64). -/

namespace Sys2Proof.Machine

/-! ### A bit stream as a number -/

@[simp] theorem bitsValue_zero (bit : Nat → Bool) (start : Nat) : bitsValue bit start 0 = 0 := rfl

theorem bitsValue_succ (bit : Nat → Bool) (start n : Nat) :
    bitsValue bit start (n + 1) = 2 * bitsValue bit start n + (bit (start + n)).toNat := by
  simp only [bitsValue, List.range_succ, List.foldl_append, List.foldl_cons, List.foldl_nil]

/-- The number of m + n bits is that of the first m above that of the other n. -/
theorem bitsValue_add (bit : Nat → Bool) (start m n : Nat) :
    bitsValue bit start (m + n) = bitsValue bit start m * 2 ^ n + bitsValue bit (start + m) n := by
  induction n with
  | zero => simp
  | succ n ih =>
    rw [← Nat.add_assoc, bitsValue_succ, ih, bitsValue_succ, Nat.pow_succ, Nat.add_assoc start m n]
    ring

theorem bitsValue_lt (bit : Nat → Bool) (start n : Nat) : bitsValue bit start n < 2 ^ n := by
  induction n with
  | zero => simp
  | succ n ih =>
    rw [bitsValue_succ, Nat.pow_succ]
    have := Bool.toNat_le (bit (start + n))
    omega

theorem bitsValue_congr {bit bit' : Nat → Bool} {start start' n : Nat}
    (h : ∀ k < n, bit (start + k) = bit' (start' + k)) : bitsValue bit start n = bitsValue bit' start' n := by
  induction n with
  | zero => rfl
  | succ n ih => rw [bitsValue_succ, bitsValue_succ, ih fun k hk => h k (by omega), h n (by omega)]

theorem bitsValue_eq_zero {bit : Nat → Bool} {start n : Nat} (h : ∀ k < n, bit (start + k) = false) :
    bitsValue bit start n = 0 := by
  induction n with
  | zero => rfl
  | succ n ih => rw [bitsValue_succ, ih fun k hk => h k (by omega), h n (by omega)]; rfl

/-- A stretch of a stream that writes 0 is all zero bits. -/
theorem bitsValue_eq_zero_iff {bit : Nat → Bool} {start n : Nat} :
    bitsValue bit start n = 0 ↔ ∀ k < n, bit (start + k) = false := by
  refine ⟨fun h => ?_, bitsValue_eq_zero⟩
  induction n with
  | zero => simp
  | succ n ih =>
    rw [bitsValue_succ] at h
    intro k hk
    rcases Nat.lt_succ_iff_lt_or_eq.1 hk with hk | rfl
    · exact ih (by omega) k hk
    · cases hb : bit (start + k)
      · rfl
      · rw [hb] at h; simp at h

/-- Cutting a field out of the number of a stream gives the number of that stretch of the stream. -/
theorem bitsValue_field (bit : Nat → Bool) (start a w c : Nat) :
    (bitsValue bit start (a + w + c) >>> c) % 2 ^ w = bitsValue bit (start + a) w := by
  have h := bitsValue_lt bit (start + (a + w)) c
  rw [bitsValue_add, Nat.shiftRight_eq_div_pow, Nat.add_comm, Nat.add_mul_div_right _ _ (Nat.two_pow_pos c),
    Nat.div_eq_of_lt h, Nat.zero_add, bitsValue_add, Nat.add_comm, Nat.add_mul_mod_self_right,
    Nat.mod_eq_of_lt (bitsValue_lt ..)]

/-- The low bits of the number of a stream. -/
theorem bitsValue_mod (bit : Nat → Bool) (start a w : Nat) :
    bitsValue bit start (a + w) % 2 ^ w = bitsValue bit (start + a) w := by
  simpa using bitsValue_field bit start a w 0

/-- The high bits of the number of a stream. -/
theorem bitsValue_shiftRight (bit : Nat → Bool) (start w c : Nat) :
    bitsValue bit start (w + c) >>> c = bitsValue bit start w := by
  have h := bitsValue_lt bit (start + w) c
  rw [bitsValue_add, Nat.shiftRight_eq_div_pow, Nat.add_comm, Nat.add_mul_div_right _ _ (Nat.two_pow_pos c),
    Nat.div_eq_of_lt h, Nat.zero_add]

/-- The bits of the number of a stream, from the least significant up. -/
theorem testBit_bitsValue (bit : Nat → Bool) (start n k : Nat) (hk : k < n) :
    (bitsValue bit start n).testBit k = bit (start + (n - 1 - k)) := by
  have h := bitsValue_field bit start (n - 1 - k) 1 k
  rw [show n - 1 - k + 1 + k = n by omega, bitsValue_succ] at h
  rw [Nat.testBit_eq_decide_div_mod_eq, ← Nat.shiftRight_eq_div_pow, ← Nat.pow_one 2, h]
  cases bit (start + (n - 1 - k) + 0) <;> simp_all

/-- The bits of a number give the number back. -/
theorem bitsValue_testBit (v n : Nat) (h : v < 2 ^ n) : bitsValue (fun t => v.testBit (n - 1 - t)) 0 n = v := by
  apply Nat.eq_of_testBit_eq
  intro k
  by_cases hk : k < n
  · rw [testBit_bitsValue _ _ _ _ hk]
    congr 1; omega
  · have hn : 2 ^ n ≤ 2 ^ k := Nat.pow_le_pow_right (by decide) (by omega)
    rw [Nat.testBit_lt_two_pow (lt_of_lt_of_le (bitsValue_lt ..) hn), Nat.testBit_lt_two_pow (lt_of_lt_of_le h hn)]

/-! ### Digits -/

@[simp] theorem digitsValue_nil (base : Nat) : digitsValue base [] = 0 := rfl

theorem digitsValue_append (base : Nat) (ds es : List Nat) :
    digitsValue base (ds ++ es) = digitsValue base ds * base ^ es.length + digitsValue base es := by
  induction es using List.reverseRecOn with
  | nil => simp
  | append_singleton es e ih =>
    rw [← List.append_assoc]
    simp only [digitsValue, List.foldl_append, List.foldl_cons, List.foldl_nil, List.length_append,
      List.length_cons, List.length_nil] at ih ⊢
    rw [ih, Nat.pow_succ]
    ring

theorem digitsValue_cons (base d : Nat) (ds : List Nat) :
    digitsValue base (d :: ds) = d * base ^ ds.length + digitsValue base ds := by
  have := digitsValue_append base [d] ds
  simpa [digitsValue] using this

theorem digitsValue_lt {base : Nat} {ds : List Nat} (h : ∀ d ∈ ds, d < base) :
    digitsValue base ds < base ^ ds.length := by
  induction ds with
  | nil => simp
  | cons d ds ih =>
    have hd := h d (List.mem_cons_self ..)
    have ih := ih fun e he => h e (List.mem_cons_of_mem _ he)
    rw [digitsValue_cons, List.length_cons, Nat.pow_succ]
    calc d * base ^ ds.length + digitsValue base ds
        < d * base ^ ds.length + base ^ ds.length := by omega
      _ = (d + 1) * base ^ ds.length := by ring
      _ ≤ base * base ^ ds.length := Nat.mul_le_mul_right _ hd
      _ = base ^ ds.length * base := Nat.mul_comm ..

/-- Leading zeros do not change the number. -/
theorem digitsValue_replicate_zero (base z : Nat) (ds : List Nat) :
    digitsValue base (List.replicate z 0 ++ ds) = digitsValue base ds := by
  rw [digitsValue_append]
  have : digitsValue base (List.replicate z 0) = 0 := by
    induction z with
    | zero => rfl
    | succ z ih => rw [List.replicate_succ, digitsValue_cons, ih]; simp
  simp [this]

/-- A number whose first digit is not 0 is at least the power of its length. -/
theorem le_digitsValue {base d : Nat} {ds : List Nat} (hd : d ≠ 0) : base ^ ds.length ≤ digitsValue base (d :: ds) := by
  rw [digitsValue_cons]
  exact le_trans (Nat.le_mul_of_pos_left _ (Nat.pos_of_ne_zero hd)) (Nat.le_add_right ..)

/-! ### Bytes -/

theorem bytesValue_eq_digitsValue (x : List Byte) : bytesValue x = digitsValue 256 (x.map BitVec.toNat) := by
  simp [bytesValue, digitsValue, List.foldl_map]

theorem bytesValue_lt (x : List Byte) : bytesValue x < 256 ^ x.length := by
  rw [bytesValue_eq_digitsValue]
  have := digitsValue_lt (base := 256) (ds := x.map BitVec.toNat) (by
    intro d hd
    obtain ⟨b, -, rfl⟩ := List.mem_map.1 hd
    exact b.isLt)
  simpa using this

/-! ### The stream of a list of values, and of a byte sequence -/

/-- The number of the first k values of a stream of b-bit values is their digits in base 2^b. -/
theorem digitsValue_take_eq_bitsValue {b : Nat} (hb : 0 < b) {vs : List Nat} (h : ∀ v ∈ vs, v < 2 ^ b) (k : Nat)
    (hk : k ≤ vs.length) : digitsValue (2 ^ b) (vs.take k) = bitsValue (valueBit b vs) 0 (k * b) := by
  induction k with
  | zero => simp
  | succ k ih =>
    have hk' : k < vs.length := by omega
    rw [List.take_add_one, List.getElem?_eq_getElem hk', Option.toList_some, digitsValue_append, ih (by omega),
      Nat.succ_mul, bitsValue_add]
    congr 1
    · simp
    · rw [digitsValue_cons, digitsValue_nil, List.length_nil, pow_zero, mul_one, add_zero, Nat.zero_add]
      rw [← bitsValue_testBit vs[k] b (h _ (List.getElem_mem hk'))]
      refine bitsValue_congr fun i hi => ?_
      have h1 : (k * b + i) / b = k := by
        rw [Nat.mul_comm, Nat.mul_add_div hb, Nat.div_eq_of_lt hi, Nat.add_zero]
      have h2 : (k * b + i) % b = i := by rw [Nat.mul_comm, Nat.mul_add_mod, Nat.mod_eq_of_lt hi]
      simp only [valueBit, h1, h2, List.getD_eq_getElem?_getD, List.getElem?_eq_getElem hk', Option.getD_some,
        Nat.zero_add]

theorem digitsValue_eq_bitsValue {b : Nat} (hb : 0 < b) {vs : List Nat} (h : ∀ v ∈ vs, v < 2 ^ b) :
    digitsValue (2 ^ b) vs = bitsValue (valueBit b vs) 0 (vs.length * b) := by
  have := digitsValue_take_eq_bitsValue hb h vs.length le_rfl
  rwa [List.take_length] at this

/-- The stream of a byte sequence is the stream of its values, eight bits each. -/
theorem streamBit_eq_valueBit (x : List Byte) (t : Nat) : streamBit x t = valueBit 8 (x.map BitVec.toNat) t := by
  simp only [streamBit, valueBit, List.getD_eq_getElem?_getD, List.getElem?_map]
  cases x[t / 8]? <;> simp [BitVec.getLsbD]

theorem streamBit_past (x : List Byte) (t : Nat) (h : 8 * x.length ≤ t) : streamBit x t = false := by
  have : x[t / 8]? = none := List.getElem?_eq_none (by omega)
  simp [streamBit, List.getD_eq_getElem?_getD, this]

theorem bytesValue_eq_bitsValue (x : List Byte) : bytesValue x = bitsValue (streamBit x) 0 (8 * x.length) := by
  rw [bytesValue_eq_digitsValue]
  have := digitsValue_eq_bitsValue (b := 8) (by decide) (vs := x.map BitVec.toNat) (by
    intro d hd
    obtain ⟨b, -, rfl⟩ := List.mem_map.1 hd
    exact b.isLt)
  rw [List.length_map] at this
  refine this.trans ?_
  rw [Nat.mul_comm]
  exact bitsValue_congr fun k _ => (streamBit_eq_valueBit x _).symm

/-- Byte j of a sequence is the eight bits of its stream from bit 8j. -/
theorem bitsValue_streamBit (x : List Byte) (j : Nat) (h : j < x.length) :
    bitsValue (streamBit x) (8 * j) 8 = x[j].toNat := by
  rw [← bitsValue_testBit x[j].toNat 8 x[j].isLt]
  refine bitsValue_congr fun k hk => ?_
  have h1 : (8 * j + k) / 8 = j := by omega
  have h2 : (8 * j + k) % 8 = k := by omega
  simp only [streamBit, h1, h2, List.getD_eq_getElem?_getD, List.getElem?_eq_getElem h, Option.getD_some,
    Nat.zero_add, BitVec.getLsbD]

end Sys2Proof.Machine
end

