-- ==== Sys2Proof/Laws/Units.lean ====
section
/-! SUPPORT. The two units in the terms of Safety.lean: classifying a text, cutting a stream into groups and into bytes
(spec/41_bitpack.md R131, R136), taking digits and reading them (spec/42_bigradix.md R161, R164). -/

namespace Sys2Proof.Machine

/-! ### Classifying a text -/

/-- The classification of R136 step 2 succeeds exactly on a text of symbols, with their values. -/
theorem State.mapSymbols_eq_ok {s : State} {text : List Byte} {i : Nat} {vs : List Nat} :
    s.mapSymbols text i = .ok vs ↔ text.map s.cls = vs.map SymClass.data := by
  induction text generalizing i vs with
  | nil => cases vs <;> simp [State.mapSymbols]
  | cons c cs ih =>
    simp only [State.mapSymbols, List.map_cons]
    cases hc : s.cls c with
    | pad => cases vs <;> simp
    | invalid => cases vs <;> simp
    | data v =>
      cases hm : s.mapSymbols cs (i + 1) with
      | error e =>
        cases vs with
        | nil => simp
        | cons w ws =>
          simp only [reduceCtorEq, List.map_cons, List.cons.injEq, false_iff, not_and]
          intro _ h
          rw [ih.2 h] at hm
          cases hm
      | ok us =>
        have := ih.1 hm
        cases vs with
        | nil => simp
        | cons w ws =>
          simp only [Except.ok.injEq, List.cons.injEq, List.map_cons, SymClass.data.injEq, this]
          rw [List.map_inj_right fun a b h => by simpa using h]

/-- It fails at the leftmost code that is no symbol, as InvalidPadding on the pad symbol and InvalidSymbol otherwise. -/
theorem State.mapSymbols_bad {s : State} {text : List Byte} {k i : Nat} {e : ErrCode} (hk : k < text.length)
    (hdata : ∀ j, ∀ h : j < k, ∃ v, s.cls text[j] = .data v)
    (hbad : (s.cls text[k] = .pad ∧ e = .invalidPadding) ∨ (s.cls text[k] = .invalid ∧ e = .invalidSymbol)) :
    s.mapSymbols text i = .error { kind := e, pos := i + k } := by
  induction text generalizing i k with
  | nil => simp at hk
  | cons c cs ih =>
    simp only [State.mapSymbols]
    cases k with
    | zero =>
      simp only [List.getElem_cons_zero] at hbad
      rcases hbad with ⟨hc, rfl⟩ | ⟨hc, rfl⟩ <;> simp [hc]
    | succ k =>
      obtain ⟨v, hv⟩ := hdata 0 (by omega)
      simp only [List.getElem_cons_zero] at hv
      rw [hv]
      rw [ih (i := i + 1) (k := k) (by simpa using hk) (fun j hj => by simpa using hdata (j + 1) (by omega))
        (by simpa using hbad)]
      simp only [Except.error.injEq, CmdError.mk.injEq, true_and]
      omega

/-- The classification of R164 succeeds exactly on a text of symbols, with their values. -/
theorem State.mapDigits_eq_ok {s : State} {text : List Byte} {i : Nat} {vs : List Nat} :
    s.mapDigits text i = .ok vs ↔ text.map s.cls = vs.map SymClass.data := by
  induction text generalizing i vs with
  | nil => cases vs <;> simp [State.mapDigits]
  | cons c cs ih =>
    simp only [State.mapDigits, List.map_cons]
    cases hc : s.cls c with
    | pad => cases vs <;> simp
    | invalid => cases vs <;> simp
    | data v =>
      cases hm : s.mapDigits cs (i + 1) with
      | error e =>
        cases vs with
        | nil => simp
        | cons w ws =>
          simp only [reduceCtorEq, List.map_cons, List.cons.injEq, false_iff, not_and]
          intro _ h
          rw [ih.2 h] at hm
          cases hm
      | ok us =>
        have := ih.1 hm
        cases vs with
        | nil => simp
        | cons w ws =>
          simp only [Except.ok.injEq, List.cons.injEq, List.map_cons, SymClass.data.injEq, this]
          rw [List.map_inj_right fun a b h => by simpa using h]

/-- It fails at the leftmost code that is no symbol, always as InvalidSymbol. -/
theorem State.mapDigits_bad {s : State} {text : List Byte} {k i : Nat} (hk : k < text.length)
    (hdata : ∀ j, ∀ h : j < k, ∃ v, s.cls text[j] = .data v) (hbad : ∀ v, s.cls text[k] ≠ .data v) :
    s.mapDigits text i = .error { kind := .invalidSymbol, pos := i + k } := by
  induction text generalizing i k with
  | nil => simp at hk
  | cons c cs ih =>
    simp only [State.mapDigits]
    cases k with
    | zero =>
      simp only [List.getElem_cons_zero] at hbad
      cases hc : s.cls c with
      | pad => simp
      | invalid => simp
      | data v => exact absurd hc (hbad v)
    | succ k =>
      obtain ⟨v, hv⟩ := hdata 0 (by omega)
      simp only [List.getElem_cons_zero] at hv
      rw [hv]
      rw [ih (i := i + 1) (k := k) (by simpa using hk) (fun j hj => by simpa using hdata (j + 1) (by omega))
        (by simpa using hbad)]
      simp only [Except.error.injEq, CmdError.mk.injEq, true_and]
      omega

/-- In a ready block a text spells `vs` exactly when it classifies to them. -/
theorem State.Ready.spells_iff {s : State} {m : Mode} (h : s.Ready m) {text : List Byte} {vs : List Nat} :
    s.Spells text vs ↔ text.map s.cls = vs.map SymClass.data := by
  constructor
  · rintro ⟨hlen, hv⟩
    refine List.ext_getElem (by simp [hlen]) fun i h1 h2 => ?_
    simp only [List.length_map] at h1 h2
    have := hv i h2
    rw [List.getD_eq_getElem _ _ h1, List.getD_eq_getElem _ _ h2] at this
    simp only [List.getElem_map]
    exact h.cls_eq_data.2 this
  · intro he
    have hlen : text.length = vs.length := by simpa using congrArg List.length he
    refine ⟨hlen, fun i hi => ?_⟩
    have hi' : i < text.length := by omega
    rw [List.getD_eq_getElem _ _ hi', List.getD_eq_getElem _ _ hi]
    refine h.cls_eq_data.1 ?_
    have := List.getElem_of_eq he (i := i) (by simpa using hi')
    simpa using this

/-- The values a text spells are below the radix. -/
theorem State.Spells.lt_radix {s : State} {text : List Byte} {vs : List Nat} (h : s.Spells text vs) :
    ∀ v ∈ vs, v < s.radix.toNat := by
  intro v hv
  obtain ⟨i, hi, rfl⟩ := List.getElem_of_mem hv
  have := (h.2 i hi).1
  rwa [List.getD_eq_getElem _ _ hi] at this

/-- The alphabet's own symbols spell their values. -/
theorem State.spells_map_symAt {s : State} {vs : List Nat} (h : ∀ v ∈ vs, v < s.radix.toNat) :
    s.Spells (vs.map s.symAt) vs := by
  refine ⟨by simp, fun i hi => ?_⟩
  rw [List.getD_eq_getElem _ _ (by simpa using hi), List.getD_eq_getElem _ _ hi, List.getElem_map]
  exact State.isSymbol_symAt (h _ (List.getElem_mem hi))

/-! ### What decoding depends on -/

theorem State.cls_congr {s t : State} (hc : t.cfg = s.cfg) (hp : t.padsym = s.padsym)
    (hm : t.status.mode = s.status.mode) (hr : t.rlut = s.rlut) : t.cls = s.cls := by
  funext c
  unfold State.cls State.padActive
  rw [hc, hp, hm, hr]

theorem State.mapSymbols_congr {s t : State} (h : t.cls = s.cls) (text : List Byte) (i : Nat) :
    t.mapSymbols text i = s.mapSymbols text i := by
  induction text generalizing i with
  | nil => rfl
  | cons c cs ih => simp only [State.mapSymbols, h, ih]

theorem State.mapDigits_congr {s t : State} (h : t.cls = s.cls) (text : List Byte) (i : Nat) :
    t.mapDigits text i = s.mapDigits text i := by
  induction text generalizing i with
  | nil => rfl
  | cons c cs ih => simp only [State.mapDigits, h, ih]

/-- Decoding depends on `RADIX`, `CFG`, `PADSYM`, `STATUS.MODE`, `STATUS.BITS` and `RLUT` alone (R136, R164). -/
theorem State.decodeText_congr {s t : State} (hx : t.radix = s.radix) (hc : t.cfg = s.cfg) (hp : t.padsym = s.padsym)
    (hm : t.status.mode = s.status.mode) (hb : t.status.bits = s.status.bits) (hr : t.rlut = s.rlut)
    (text : List Byte) : t.decodeText text = s.decodeText text := by
  have h := State.cls_congr hc hp hm hr
  have hw : t.width = s.width := congrArg BitVec.toNat hb
  have hbase : t.base = s.base := congrArg BitVec.toNat hx
  have hd : ∀ vs, t.digitBytes vs = s.digitBytes vs := fun vs => by unfold State.digitBytes; rw [hbase]
  have h1 : t.bpDecode text = s.bpDecode text := by
    unfold State.bpDecode State.trailingPads State.padCountOk
    simp only [h, hw, hc, State.mapSymbols_congr h]
  have h2 : t.brDecode text = s.brDecode text := by
    unfold State.brDecode
    simp only [State.mapDigits_congr h, hd]
  unfold State.decodeText
  rw [hm, h1, h2]

/-! ### Pad symbols at the end of a text -/

/-- A text that is a part whose last code is not a pad, then p pads, has p trailing pads. -/
theorem State.trailingPads_eq {s : State} {text pads : List Byte} (hp : ∀ c ∈ pads, s.cls c = .pad)
    (hl : ∀ c ∈ text.getLast?, s.cls c ≠ .pad) : s.trailingPads (text ++ pads) = pads.length := by
  have hpads : pads.reverse.takeWhile (fun c => s.cls c == .pad) = pads.reverse := by
    rw [List.takeWhile_eq_self_iff]
    intro c hc
    simpa using hp c (List.mem_reverse.1 hc)
  have htext : text.reverse.takeWhile (fun c => s.cls c == .pad) = [] := by
    cases h : text.reverse with
    | nil => rfl
    | cons c cs =>
      have : text.getLast? = some c := by rw [← List.head?_reverse, h]; rfl
      have := hl c this
      rw [List.takeWhile_cons_of_neg (by simpa using this)]
  unfold State.trailingPads
  rw [List.reverse_append, List.takeWhile_append_of_pos (fun c hc => by simpa using hp c (List.mem_reverse.1 hc)), htext]
  simp

/-! ### Groups and bytes of a stream -/

/-- The model's count of expected pads is the one the statements use (R137). -/
theorem expectedPads_eq (b d : Nat) : expectedPads b d = padsAfter b d := by
  unfold expectedPads padMultiple padsAfter
  split
  · rw [Nat.mod_one]
  · rfl

/-- `checkpad` accepts a pad count exactly when the policy is not strict or the count is the expected one (R137). -/
theorem State.padCountOk_iff {s : State} {d p : Nat} : s.padCountOk d p = true ↔
    (cfgPadEn s.cfg = true → cfgPadStrict s.cfg = true → p = padsAfter s.width d) := by
  simp only [State.padCountOk, expectedPads_eq]
  cases cfgPadEn s.cfg <;> cases cfgPadStrict s.cfg <;> simp

/-- Where b divides 8 no pad is ever expected (R137, spec/90_conflicts.md C7). -/
theorem padsAfter_eq_zero {b : Nat} (h : 8 % b = 0) (d : Nat) : padsAfter b d = 0 := if_pos h

/-- After the symbol counts an encoder writes, the one formula of R132 holds for every width: where b divides 8 they fill
whole blocks. -/
theorem padsAfter_groupCount {b : Nat} (h1 : 1 ≤ b) (h8 : b ≤ 8) (n : Nat) :
    padsAfter b (groupCount b n) =
      (blockSymbols b - groupCount b n % blockSymbols b) % blockSymbols b := by
  by_cases h : 8 % b = 0
  · rw [padsAfter_eq_zero h]
    have hg : groupCount b n % blockSymbols b = 0 := by
      unfold groupCount ceilDiv
      have hb : b = 1 ∨ b = 2 ∨ b = 4 ∨ b = 8 := by interval_cases b <;> simp at h ⊢
      rcases hb with rfl | rfl | rfl | rfl
      · rw [show blockSymbols 1 = 8 from by decide]; omega
      · rw [show blockSymbols 2 = 4 from by decide]; omega
      · rw [show blockSymbols 4 = 2 from by decide]; omega
      · rw [show blockSymbols 8 = 1 from by decide]; omega
    rw [hg, Nat.sub_zero, Nat.mod_self]
  · exact if_neg h

theorem groupCount_mul_ge {b : Nat} (n : Nat) (hb : 0 < b) :
    8 * n ≤ groupCount b n * b ∧ groupCount b n * b < 8 * n + b := by
  have h := Nat.div_add_mod (8 * n + b - 1) b
  have := Nat.mod_lt (8 * n + b - 1) hb
  unfold groupCount ceilDiv
  rw [Nat.mul_comm] at h
  constructor <;> omega

/-- The padded stream as a number (R131). -/
theorem bytesValue_shiftLeft {b : Nat} (x : List Byte) (hb : 0 < b) :
    bytesValue x <<< (groupCount b x.length * b - 8 * x.length) =
      bitsValue (streamBit x) 0 (groupCount b x.length * b) := by
  have h := (groupCount_mul_ge x.length hb).1
  obtain ⟨c, hc⟩ := Nat.exists_eq_add_of_le h
  rw [bytesValue_eq_bitsValue, hc, Nat.add_sub_cancel_left, bitsValue_add, Nat.shiftLeft_eq]
  rw [bitsValue_eq_zero (start := 0 + 8 * x.length) fun k hk => streamBit_past x _ (by omega), Nat.add_zero]

/-- Group j of R131 is the b bits of the input's stream from bit j·b. -/
theorem groupAt_eq_bitsValue {b : Nat} {x : List Byte} {j : Nat} (hb : 0 < b) (hj : j < groupCount b x.length) :
    groupAt b x j = bitsValue (streamBit x) (j * b) b := by
  unfold groupAt
  simp only
  rw [bytesValue_shiftLeft x hb]
  obtain ⟨c, hc⟩ := Nat.exists_eq_add_of_lt hj
  have h1 : groupCount b x.length * b = j * b + b + b * (groupCount b x.length - 1 - j) := by
    rw [hc, show j + c + 1 - 1 - j = c by omega]; ring
  rw [h1, bitsValue_field, Nat.zero_add]

/-- The trailing bits of R139, as a number and as bits of the values' stream. -/
theorem trailingBits_iff {b : Nat} {vs : List Nat} (hb : 0 < b) (h : ∀ v ∈ vs, v < 2 ^ b) :
    (0 < vs.length * b % 8 ∧ digitsValue (2 ^ b) vs % 2 ^ (vs.length * b % 8) ≠ 0) ↔
      ∃ t, 8 * (vs.length * b / 8) ≤ t ∧ t < vs.length * b ∧ valueBit b vs t = true := by
  have hT : vs.length * b = 8 * (vs.length * b / 8) + vs.length * b % 8 := (Nat.div_add_mod ..).symm
  have hlow : bitsValue (valueBit b vs) 0 (vs.length * b) % 2 ^ (vs.length * b % 8) =
      bitsValue (valueBit b vs) (8 * (vs.length * b / 8)) (vs.length * b % 8) := by
    conv_lhs => rw [hT]
    rw [Nat.mul_add_mod, Nat.mod_mod, bitsValue_mod, Nat.zero_add]
  rw [digitsValue_eq_bitsValue hb h, hlow, ne_eq, bitsValue_eq_zero_iff]
  simp only [not_forall, Bool.not_eq_false]
  constructor
  · rintro ⟨-, k, hk, hv⟩
    exact ⟨_, by omega, by omega, hv⟩
  · rintro ⟨t, h1, h2, hv⟩
    refine ⟨by omega, t - 8 * (vs.length * b / 8), by omega, ?_⟩
    rwa [Nat.add_sub_cancel' h1]

/-- Steps 3 and 4 of R136 fail on a trailing bit that is 1, unless the policy is lenient. -/
theorem unpackValues_error {b : Nat} {vs : List Nat} (hb : 0 < b) (h : ∀ v ∈ vs, v < 2 ^ b) {t : Nat}
    (h1 : 8 * (vs.length * b / 8) ≤ t) (h2 : t < vs.length * b) (hv : valueBit b vs t = true) :
    unpackValues b false vs = .error { kind := .trailingBits, pos := 0 } := by
  have := (trailingBits_iff hb h).2 ⟨t, h1, h2, hv⟩
  unfold unpackValues
  exact if_pos ⟨this.1, this.2, rfl⟩

/-- Otherwise they give the whole bytes of the values' stream. -/
theorem unpackValues_ok {b : Nat} {lenient : Bool} {vs : List Nat} (hb : 0 < b) (h : ∀ v ∈ vs, v < 2 ^ b)
    (hl : lenient = true ∨ ∀ t, 8 * (vs.length * b / 8) ≤ t → t < vs.length * b → valueBit b vs t = false) :
    unpackValues b lenient vs =
      .ok ((List.range (vs.length * b / 8)).map (fun j => BitVec.ofNat 8 (bitsValue (valueBit b vs) (8 * j) 8))) := by
  unfold unpackValues
  simp only
  rw [if_neg]
  · congr 1
    refine List.map_congr_left fun j hj => ?_
    have hj := List.mem_range.1 hj
    apply BitVec.eq_of_toNat_eq
    simp only [BitVec.toNat_ofNat]
    have := bitsValue_field (valueBit b vs) 0 (8 * j) 8 (vs.length * b - 8 * (j + 1))
    rw [show 8 * j + 8 + (vs.length * b - 8 * (j + 1)) = vs.length * b by omega] at this
    rw [digitsValue_eq_bitsValue hb h, this, Nat.zero_add, Nat.mod_eq_of_lt (bitsValue_lt ..)]
  · rintro ⟨h0, h1, h2⟩
    rcases hl with hl | hl
    · rw [hl] at h2; cases h2
    · obtain ⟨t, ht1, ht2, hv⟩ := (trailingBits_iff hb h).1 ⟨h0, h1⟩
      rw [hl t ht1 ht2] at hv
      cases hv

/-! ### Digits of a number -/

theorem leadingZeros_le (l : List Nat) : leadingZeros l ≤ l.length := (List.takeWhile_prefix _).length_le

/-- A list is its leading zeros and then the rest. -/
theorem replicate_leadingZeros_append (l : List Nat) :
    List.replicate (leadingZeros l) 0 ++ l.drop (leadingZeros l) = l := by
  have h1 : l.take (leadingZeros l) = List.replicate (leadingZeros l) 0 := by
    rw [List.eq_replicate_iff]
    refine ⟨by simp [leadingZeros_le], fun v hv => ?_⟩
    have hp : l.take (leadingZeros l) = l.takeWhile (fun v => v == 0) :=
      (List.prefix_iff_eq_take.1 (List.takeWhile_prefix _)).symm
    rw [hp] at hv
    simpa using List.mem_takeWhile_imp hv
  conv_rhs => rw [← List.take_append_drop (leadingZeros l) l, h1]

/-- What follows the leading zeros does not start with 0. -/
theorem head?_drop_leadingZeros (l : List Nat) : (l.drop (leadingZeros l)).head? ≠ some 0 := by
  induction l with
  | nil => simp [leadingZeros]
  | cons v l ih =>
    by_cases h : v = 0
    · subst h; simpa [leadingZeros] using ih
    · simp [leadingZeros, h]

/-- Enough turns of the loop of R161 give the digits: read back, they write the number. -/
theorem digitsValue_digits {base : Nat} (hb : 2 ≤ base) (fuel n : Nat) (h : n < 2 ^ fuel) :
    digitsValue base (digits base fuel n).reverse = n := by
  induction fuel generalizing n with
  | zero => simp only [pow_zero, Nat.lt_one_iff] at h; subst h; rfl
  | succ fuel ih =>
    rw [digits]
    split
    · subst_vars; rfl
    · have hlt : n / base < 2 ^ fuel := by
        rw [Nat.div_lt_iff_lt_mul (by omega)]
        calc n < 2 ^ fuel * 2 := by rwa [← Nat.pow_succ]
          _ ≤ 2 ^ fuel * base := Nat.mul_le_mul_left _ hb
      rw [List.reverse_cons, digitsValue_append, ih _ hlt]
      simp only [digitsValue_cons, digitsValue_nil, List.length_cons, List.length_nil, pow_zero, mul_one, pow_one,
        zero_add, add_zero]
      rw [Nat.mul_comm]
      exact Nat.div_add_mod n base

theorem digits_lt {base : Nat} (hb : 0 < base) (fuel n : Nat) : ∀ d ∈ digits base fuel n, d < base := by
  induction fuel generalizing n with
  | zero => simp [digits]
  | succ fuel ih =>
    rw [digits]
    split
    · simp
    · intro d hd
      rcases List.mem_cons.1 hd with rfl | hd
      · exact Nat.mod_lt _ hb
      · exact ih _ d hd

theorem length_digits_le (base fuel n : Nat) : (digits base fuel n).length ≤ fuel := by
  induction fuel generalizing n with
  | zero => simp [digits]
  | succ fuel ih =>
    rw [digits]
    split
    · simp
    · simpa using ih _

/-- The most significant digit is not 0. -/
theorem head?_reverse_digits {base : Nat} (hb : 2 ≤ base) (fuel n : Nat) (h : n < 2 ^ fuel) :
    (digits base fuel n).reverse.head? ≠ some 0 := by
  rw [List.head?_reverse]
  induction fuel generalizing n with
  | zero => simp [digits]
  | succ fuel ih =>
    rw [digits]
    split
    · simp
    · rename_i hn
      have hlt : n / base < 2 ^ fuel := by
        rw [Nat.div_lt_iff_lt_mul (by omega)]
        calc n < 2 ^ fuel * 2 := by rwa [← Nat.pow_succ]
          _ ≤ 2 ^ fuel * base := Nat.mul_le_mul_left _ hb
      have := ih _ hlt
      cases hd : digits base fuel (n / base) with
      | nil =>
        simp only [List.getLast?_singleton, ne_eq, Option.some.injEq]
        have hz : n / base = 0 := by
          have := digitsValue_digits hb fuel _ hlt
          rw [hd] at this
          exact this.symm
        have h1 := Nat.div_add_mod n base
        rw [hz] at h1
        omega
      | cons e es => rw [hd] at this; rwa [List.getLast?_cons_cons]

/-- Two digit lists of one length that write the same number are equal. -/
theorem digitsValue_inj_of_length {base : Nat} {ds es : List Nat} (hd : ∀ d ∈ ds, d < base) (he : ∀ d ∈ es, d < base)
    (hlen : ds.length = es.length) (h : digitsValue base ds = digitsValue base es) : ds = es := by
  induction ds generalizing es with
  | nil => cases es <;> simp_all
  | cons d ds ih =>
    cases es with
    | nil => simp at hlen
    | cons e es =>
      replace hlen : ds.length = es.length := by simpa using hlen
      have hds := digitsValue_lt fun x hx => hd x (List.mem_cons_of_mem _ hx)
      have hes := digitsValue_lt fun x hx => he x (List.mem_cons_of_mem _ hx)
      rw [digitsValue_cons, digitsValue_cons, ← hlen] at h
      rw [← hlen] at hes
      have hpos : 0 < base ^ ds.length := by omega
      have h1 : d = e := by
        have := congrArg (· / base ^ ds.length) h
        simp only [Nat.mul_comm _ (base ^ ds.length), Nat.mul_add_div hpos, Nat.div_eq_of_lt hds,
          Nat.div_eq_of_lt hes, Nat.add_zero] at this
        exact this
      subst h1
      rw [ih (fun x hx => hd x (List.mem_cons_of_mem _ hx)) (fun x hx => he x (List.mem_cons_of_mem _ hx)) hlen
        (by omega)]

/-- Digits whose first is not 0 are determined by the number they write. -/
theorem digitsValue_inj {base : Nat} (hb : 1 ≤ base) {ds es : List Nat} (hd : ∀ d ∈ ds, d < base)
    (he : ∀ d ∈ es, d < base) (hd0 : ds.head? ≠ some 0) (he0 : es.head? ≠ some 0)
    (h : digitsValue base ds = digitsValue base es) : ds = es := by
  have key : ∀ (as bs : List Nat), (∀ d ∈ as, d < base) → bs.head? ≠ some 0 →
      digitsValue base as = digitsValue base bs → bs.length ≤ as.length := by
    intro as bs ha hb0 hab
    by_contra hlen
    cases bs with
    | nil => simp at hlen
    | cons b bs =>
      have h1 := le_digitsValue (base := base) (ds := bs) (d := b) (by simpa using hb0)
      have h2 := digitsValue_lt ha
      have h3 : as.length ≤ bs.length := by simp at hlen; omega
      have := Nat.pow_le_pow_right hb h3
      omega
  exact digitsValue_inj_of_length hd he (le_antisymm (key _ _ he hd0 h.symm) (key _ _ hd he0 h)) h

end Sys2Proof.Machine
end

