-- ==== Sys2Proof/Laws/Datapath.lean ====
section
/-! SUPPORT. What each piece of the datapaths computes, as numbers: one pass of the divider (spec/42_bigradix.md R163) and of
the multiplier (R165), the inner loop and the padding loop of the serial shifter (spec/41_bitpack.md R134), a window and
a lane of it (R135, R142). -/

namespace Sys2Proof.Machine

/-! ### The divider (R163) -/

/-- One pass divides the number of the limbs, below a remainder, by R. -/
theorem divPass_spec {r : BitVec 16} (h2 : 2 ≤ r.toNat) (h255 : r.toNat ≤ 255) (rem : Byte) (limbs : List Byte)
    (hrem : rem.toNat < r.toNat) :
    (divPass r rem limbs).1.length = limbs.length ∧
    (divPass r rem limbs).2.toNat < r.toNat ∧
    rem.toNat * 256 ^ limbs.length + bytesValue limbs =
      r.toNat * bytesValue (divPass r rem limbs).1 + (divPass r rem limbs).2.toNat := by
  induction limbs generalizing rem with
  | nil => simpa [divPass, bytesValue] using hrem
  | cons limb limbs ih =>
    have hl := limb.isLt
    have hcur : (rem ++ limb : BitVec 16).toNat = rem.toNat * 256 + limb.toNat := by
      rw [BitVec.toNat_append, ← Nat.shiftLeft_add_eq_or_of_lt hl, Nat.shiftLeft_eq]
    have hdiv : (rem.toNat * 256 + limb.toNat) / r.toNat < 256 := by
      rw [Nat.div_lt_iff_lt_mul (by omega)]
      omega
    have hmod := Nat.mod_lt (rem.toNat * 256 + limb.toNat) (show 0 < r.toNat by omega)
    have hq : (((rem ++ limb : BitVec 16) / r).setWidth 8).toNat = (rem.toNat * 256 + limb.toNat) / r.toNat := by
      rw [BitVec.toNat_setWidth, BitVec.toNat_udiv, hcur, Nat.mod_eq_of_lt hdiv]
    have hm : (((rem ++ limb : BitVec 16) % r).setWidth 8).toNat = (rem.toNat * 256 + limb.toNat) % r.toNat := by
      rw [BitVec.toNat_setWidth, BitVec.toNat_umod, hcur, Nat.mod_eq_of_lt (by omega)]
    obtain ⟨h1, hlast, hval⟩ := ih (((rem ++ limb : BitVec 16) % r).setWidth 8) (by rw [hm]; exact hmod)
    simp only [divPass]
    refine ⟨by simp [h1], hlast, ?_⟩
    rw [hm] at hval
    have hdm := Nat.div_add_mod (rem.toNat * 256 + limb.toNat) r.toNat
    rw [bytesValue_eq_digitsValue] at hval ⊢
    rw [bytesValue_eq_digitsValue] at hval ⊢
    rw [List.map_cons, List.map_cons, digitsValue_cons, digitsValue_cons, List.length_map, List.length_map, h1, hq,
      List.length_cons, Nat.pow_succ]
    calc rem.toNat * (256 ^ limbs.length * 256) + (limb.toNat * 256 ^ limbs.length + digitsValue 256 (limbs.map _))
        = (rem.toNat * 256 + limb.toNat) * 256 ^ limbs.length + digitsValue 256 (limbs.map BitVec.toNat) := by ring
      _ = (r.toNat * ((rem.toNat * 256 + limb.toNat) / r.toNat) + (rem.toNat * 256 + limb.toNat) % r.toNat) *
            256 ^ limbs.length + digitsValue 256 (limbs.map BitVec.toNat) := by rw [hdm]
      _ = r.toNat * ((rem.toNat * 256 + limb.toNat) / r.toNat) * 256 ^ limbs.length +
            ((rem.toNat * 256 + limb.toNat) % r.toNat * 256 ^ limbs.length +
              digitsValue 256 (limbs.map BitVec.toNat)) := by ring
      _ = _ := by rw [hval]; ring

/-- One pass from remainder 0: quotient and remainder of the number of the limbs. -/
theorem divPass_zero {r : BitVec 16} (h2 : 2 ≤ r.toNat) (h255 : r.toNat ≤ 255) (limbs : List Byte) :
    bytesValue (divPass r 0 limbs).1 = bytesValue limbs / r.toNat ∧
    (divPass r 0 limbs).2.toNat = bytesValue limbs % r.toNat := by
  have h0 : (0 : Byte).toNat = 0 := rfl
  obtain ⟨-, hlast, hval⟩ := divPass_spec h2 h255 0 limbs (by rw [h0]; omega)
  rw [h0, Nat.zero_mul, Nat.zero_add] at hval
  constructor
  · rw [hval, Nat.mul_add_div (by omega), Nat.div_eq_of_lt hlast, Nat.add_zero]
  · rw [hval, Nat.mul_add_mod, Nat.mod_eq_of_lt hlast]

/-- Dropping leading zero limbs does not change the number. -/
theorem bytesValue_dropWhile (x : List Byte) : bytesValue (x.dropWhile (fun l => l == 0)) = bytesValue x := by
  induction x with
  | nil => rfl
  | cons b x ih =>
    by_cases h : b = 0
    · subst h
      rw [List.dropWhile_cons_of_pos (by simp), ih, bytesValue_eq_digitsValue, bytesValue_eq_digitsValue,
        List.map_cons, digitsValue_cons]
      simp
    · rw [List.dropWhile_cons_of_neg (by simpa using h)]

theorem head?_dropWhile (x : List Byte) : (x.dropWhile (fun l => l == 0)).head? ≠ some 0 := by
  induction x with
  | nil => simp
  | cons b x ih =>
    by_cases h : b = 0
    · subst h; rwa [List.dropWhile_cons_of_pos (by simp)]
    · rw [List.dropWhile_cons_of_neg (by simpa using h)]; simpa using h

/-- Limbs whose first is not 0 write 0 only when there are none. -/
theorem bytesValue_eq_zero {x : List Byte} (h : x.head? ≠ some 0) : bytesValue x = 0 ↔ x = [] := by
  refine ⟨fun h0 => ?_, by rintro rfl; rfl⟩
  cases x with
  | nil => rfl
  | cons b x =>
    have hb : b.toNat ≠ 0 := fun hb => h (by simp only [List.head?_cons]; congr; exact BitVec.eq_of_toNat_eq hb)
    have := le_digitsValue (base := 256) (ds := x.map BitVec.toNat) hb
    rw [bytesValue_eq_digitsValue, List.map_cons] at h0
    have := Nat.two_pow_pos 0
    have hp : 0 < 256 ^ (x.map (BitVec.toNat (w := 8))).length := Nat.pow_pos (by decide)
    omega

/-- The passes push the digits of R161, least significant first, on the stack. -/
theorem divPasses_eq {r : BitVec 16} (h2 : 2 ≤ r.toNat) (h255 : r.toNat ≤ 255) (fuel : Nat) (wmem stack : List Byte)
    (hw : wmem.head? ≠ some 0) :
    (divPasses r fuel wmem stack).map BitVec.toNat =
      (digits r.toNat fuel (bytesValue wmem)).reverse ++ stack.map BitVec.toNat := by
  induction fuel generalizing wmem stack with
  | zero => simp [divPasses, digits]
  | succ fuel ih =>
    cases wmem with
    | nil => simp [divPasses, digits, bytesValue]
    | cons limb limbs =>
      have hne : bytesValue (limb :: limbs) ≠ 0 := fun h => by
        have := (bytesValue_eq_zero hw).1 h; cases this
      simp only [divPasses]
      obtain ⟨hq, hm⟩ := divPass_zero h2 h255 (limb :: limbs)
      rw [ih _ _ (head?_dropWhile _), bytesValue_dropWhile, hq, digits, if_neg hne, List.map_cons, hm,
        List.reverse_cons, List.append_assoc, List.singleton_append]

/-! ### The multiplier (R165) -/

/-- The number of limbs given from the least significant up. -/
def limbsValue (a : List Byte) : Nat := bytesValue a.reverse

theorem limbsValue_cons (b : Byte) (a : List Byte) : limbsValue (b :: a) = b.toNat + 256 * limbsValue a := by
  simp only [limbsValue, List.reverse_cons, bytesValue, List.foldl_append, List.foldl_cons, List.foldl_nil]
  omega

/-- One pass is `acc*R + v`, and keeps the top limb nonzero. -/
theorem mulPass_spec {r : BitVec 16} (h2 : 1 ≤ r.toNat) (h255 : r.toNat ≤ 255) (carry : Byte) (a : List Byte)
    (ha : a.getLast? ≠ some 0) :
    limbsValue (mulPass r carry a) = limbsValue a * r.toNat + carry.toNat ∧ (mulPass r carry a).getLast? ≠ some 0 := by
  induction a generalizing carry with
  | nil =>
    simp only [mulPass]
    split
    · rename_i h
      exact ⟨by simp [limbsValue, bytesValue], by simpa using h⟩
    · rename_i h
      have h : carry = 0 := by simpa using h
      subst h
      exact ⟨by simp [limbsValue, bytesValue], by simp⟩
  | cons b a ih =>
    have hb := b.isLt
    have hc := carry.isLt
    have hprod : b.toNat * r.toNat ≤ 255 * 255 := Nat.mul_le_mul (by omega) h255
    have hcur : (b.setWidth 16 * r + carry.setWidth 16 : BitVec 16).toNat = b.toNat * r.toNat + carry.toNat := by
      rw [BitVec.toNat_add, BitVec.toNat_mul, BitVec.toNat_setWidth, BitVec.toNat_setWidth,
        Nat.mod_eq_of_lt (a := b.toNat) (by omega), Nat.mod_eq_of_lt (a := carry.toNat) (by omega),
        Nat.mod_eq_of_lt (a := b.toNat * r.toNat) (by omega), Nat.mod_eq_of_lt (by omega)]
    have hlow : ((b.setWidth 16 * r + carry.setWidth 16 : BitVec 16).extractLsb' 0 8).toNat =
        (b.toNat * r.toNat + carry.toNat) % 256 := by
      rw [BitVec.extractLsb'_toNat, hcur]; rfl
    have hhigh : ((b.setWidth 16 * r + carry.setWidth 16 : BitVec 16).extractLsb' 8 8).toNat =
        (b.toNat * r.toNat + carry.toNat) / 256 := by
      rw [BitVec.extractLsb'_toNat, hcur, Nat.shiftRight_eq_div_pow]
      exact Nat.mod_eq_of_lt (by omega)
    simp only [mulPass]
    have ha' : a.getLast? ≠ some 0 := by
      cases a with
      | nil => simp
      | cons c a => rwa [List.getLast?_cons_cons] at ha
    obtain ⟨hv, hlast⟩ := ih ((b.setWidth 16 * r + carry.setWidth 16 : BitVec 16).extractLsb' 8 8) ha'
    constructor
    · rw [limbsValue_cons, hv, limbsValue_cons, hlow, hhigh]
      have := Nat.div_add_mod (b.toNat * r.toNat + carry.toNat) 256
      calc (b.toNat * r.toNat + carry.toNat) % 256 +
            256 * (limbsValue a * r.toNat + (b.toNat * r.toNat + carry.toNat) / 256)
          = (256 * ((b.toNat * r.toNat + carry.toNat) / 256) + (b.toNat * r.toNat + carry.toNat) % 256) +
              256 * (limbsValue a * r.toNat) := by ring
        _ = _ := by rw [this]; ring
    · cases hm : mulPass r ((b.setWidth 16 * r + carry.setWidth 16 : BitVec 16).extractLsb' 8 8) a with
      | cons c cs => rw [List.getLast?_cons_cons, ← hm]; exact hlast
      | nil =>
        have ha0 : a = [] := by
          cases a with
          | nil => rfl
          | cons c a => simp [mulPass] at hm
        subst ha0
        have hb0 : b.toNat ≠ 0 := fun h0 => ha (by
          simp only [List.getLast?_singleton]; congr; exact BitVec.eq_of_toNat_eq h0)
        simp only [mulPass] at hm
        split at hm
        · cases hm
        · rename_i hz
          have hz : (b.setWidth 16 * r + carry.setWidth 16 : BitVec 16).extractLsb' 8 8 = 0 := by simpa using hz
          have h0 : (0 : Byte).toNat = 0 := rfl
          rw [hz, h0] at hhigh
          have hpos : 0 < b.toNat * r.toNat := Nat.mul_pos (by omega) (by omega)
          simp only [List.getLast?_singleton, ne_eq, Option.some.injEq]
          intro h
          rw [h, h0] at hlow
          omega

/-! ### The serial shifter (R134) -/

/-- The inner loop: while `NBITS` ≥ b it emits the top b of the bits still held. -/
theorem emitGroups_eq {s : State} (hb : 1 ≤ s.width) (bit : Nat → Bool) {start n : Nat} (hn : n ≤ 15)
    {acc : BitVec 15} (hacc : acc.toNat = bitsValue bit start n) (fuel k : Nat) (out : List Byte) (hk : k ≤ fuel)
    (hkn : k ≤ n) :
    s.emitGroups fuel { acc := acc, nbits := k, out := out } =
      { acc := acc, nbits := k % s.width,
        out := out ++ (List.range (k / s.width)).map
          (fun j => s.symAt (bitsValue bit (start + (n - k) + j * s.width) s.width)) } := by
  induction fuel generalizing k out with
  | zero =>
    obtain rfl : k = 0 := by omega
    simp [State.emitGroups]
  | succ fuel ih =>
    simp only [State.emitGroups]
    split
    · rename_i hwk
      have hv : (((acc >>> (k - s.width)) &&& groupMask 15 s.width) : BitVec 15).toNat =
          bitsValue bit (start + (n - k)) s.width := by
        have hw : 2 ^ s.width ≤ 2 ^ 15 := Nat.pow_le_pow_right (by decide) (by omega)
        have hp := Nat.two_pow_pos s.width
        rw [BitVec.toNat_and, BitVec.toNat_ushiftRight, hacc, groupMask, BitVec.toNat_ofNat,
          Nat.mod_eq_of_lt (by omega), Nat.and_two_pow_sub_one_eq_mod]
        have := bitsValue_field bit start (n - k) s.width (k - s.width)
        rwa [show n - k + s.width + (k - s.width) = n by omega] at this
      rw [hv, ih (k - s.width) _ (by omega) (by omega)]
      have h1 : k / s.width = (k - s.width) / s.width + 1 := by
        rw [← Nat.add_div_right _ (by omega), Nat.sub_add_cancel hwk]
      have h2 : (k - s.width) % s.width = k % s.width := (Nat.mod_eq_sub_mod hwk).symm
      rw [h1, h2, List.range_succ_eq_map, List.map_cons, List.map_map, List.append_assoc, List.singleton_append]
      simp only [Nat.zero_mul, Nat.add_zero]
      congr 3
      refine List.map_congr_left fun j _ => ?_
      simp only [Function.comp]
      congr 2
      have : (j + 1) * s.width = j * s.width + s.width := by ring
      rw [this]
      omega
    · rename_i hwk
      rw [Nat.mod_eq_of_lt (by omega), Nat.div_eq_of_lt (by omega)]
      simp

/-- The padding loop appends (q − (o mod q)) mod q pad symbols. -/
theorem padOutput_eq {q : Nat} (hq : 0 < q) (pad : Byte) (fuel : Nat) (out : List Byte)
    (h : (q - out.length % q) % q ≤ fuel) :
    padOutput q pad fuel out = out ++ List.replicate ((q - out.length % q) % q) pad := by
  induction fuel generalizing out with
  | zero =>
    have h0 : (q - out.length % q) % q = 0 := by omega
    simp [padOutput, h0]
  | succ fuel ih =>
    simp only [padOutput]
    have hlt := Nat.mod_lt out.length hq
    split
    · rename_i hne
      have h1 : (q - out.length % q) % q = q - out.length % q := Nat.mod_eq_of_lt (by omega)
      have h2 : (q - (out ++ [pad]).length % q) % q = q - out.length % q - 1 := by
        rw [List.length_append, List.length_singleton]
        by_cases hlast : out.length % q + 1 = q
        · have : (out.length + 1) % q = 0 := by
            rw [← Nat.mod_add_mod, hlast, Nat.mod_self]
          rw [this, Nat.sub_zero, Nat.mod_self]
          omega
        · have : (out.length + 1) % q = out.length % q + 1 := by
            rw [← Nat.mod_add_mod, Nat.mod_eq_of_lt (by omega)]
          rw [this, Nat.mod_eq_of_lt (by omega)]
          omega
      rw [ih _ (by omega), h2, h1, List.append_assoc, List.singleton_append, ← List.replicate_succ]
      congr 2
      omega
    · rename_i he
      have he : out.length % q = 0 := by simpa using he
      rw [he]
      simp

/-! ### A window and its lanes (R135, R142) -/

/-- The window holds the values' stream in its top bits and zeros below. -/
theorem window_toNat {l w : Nat} (hl : l ≤ 56) {vs : List Nat} (hv : ∀ v ∈ vs, v < 2 ^ w) (hlen : w * vs.length ≤ l) :
    (window l w vs).toNat = digitsValue (2 ^ w) vs * 2 ^ (l - w * vs.length) := by
  induction vs using List.reverseRecOn with
  | nil => simp [window]
  | append_singleton vs v ih =>
    have hlen' : w * vs.length + w ≤ l := by
      rw [List.length_append, List.length_singleton, Nat.mul_add, Nat.mul_one] at hlen; exact hlen
    have ih := ih (fun u hu => hv u (List.mem_append_left _ hu)) (by omega)
    have hvv : v < 2 ^ w := hv v (by simp)
    have hsplit : window l w (vs ++ [v]) = window l w vs ||| (BitVec.ofNat 56 v <<< (l - w * (vs.length + 1))) := by
      simp [window, List.zipIdx_append, List.foldl_append]
    have hm : w * (vs.length + 1) = w * vs.length + w := by ring
    have hsmall : v * 2 ^ (l - w * (vs.length + 1)) < 2 ^ (l - w * vs.length) := by
      rw [hm, show l - w * vs.length = w + (l - (w * vs.length + w)) by omega, Nat.pow_add]
      exact Nat.mul_lt_mul_of_pos_right hvv (Nat.two_pow_pos _)
    have h56 : 2 ^ (l - w * vs.length) ≤ 2 ^ 56 := Nat.pow_le_pow_right (by decide) (by omega)
    have hv56 : v < 2 ^ 56 := lt_of_lt_of_le hvv (Nat.pow_le_pow_right (by decide) (by omega))
    rw [hsplit, BitVec.toNat_or, ih, BitVec.toNat_shiftLeft, BitVec.toNat_ofNat, Nat.mod_eq_of_lt hv56,
      Nat.shiftLeft_eq, Nat.mod_eq_of_lt (lt_of_lt_of_le hsmall h56), ← Nat.shiftLeft_eq,
      ← Nat.shiftLeft_add_eq_or_of_lt hsmall, Nat.shiftLeft_eq, digitsValue_append, List.length_append,
      List.length_singleton, pow_one, digitsValue_cons, digitsValue_nil, List.length_nil, pow_zero, mul_one, add_zero,
      Nat.add_mul]
    congr 1
    rw [hm, Nat.mul_assoc, ← Nat.pow_add]
    congr 2
    omega

/-- The window is the number of the values' stream, padded with zero bits to its length. -/
theorem window_eq_bitsValue {l w : Nat} (hl : l ≤ 56) (hw : 0 < w) {vs : List Nat} (hv : ∀ v ∈ vs, v < 2 ^ w)
    (hlen : w * vs.length ≤ l) : (window l w vs).toNat = bitsValue (valueBit w vs) 0 l := by
  rw [window_toNat hl hv hlen, digitsValue_eq_bitsValue hw hv]
  obtain ⟨c, rfl⟩ := Nat.exists_eq_add_of_le hlen
  rw [Nat.add_sub_cancel_left, bitsValue_add, Nat.mul_comm w]
  rw [bitsValue_eq_zero (start := 0 + vs.length * w) fun k _ => ?_, Nat.add_zero]
  have : vs[(0 + vs.length * w + k) / w]? = none := by
    refine List.getElem?_eq_none ?_
    rw [Nat.le_div_iff_mul_le hw]
    omega
  rw [valueBit, List.getD_eq_getElem?_getD, this, Option.getD_none, Nat.zero_testBit]

/-- Lane i of a window cuts out w bits from bit w·i. -/
theorem lane_eq_bitsValue {l w : Nat} {win : BitVec 56} {bit : Nat → Bool} (hl : l ≤ 56)
    (hwin : win.toNat = bitsValue bit 0 l) {i : Nat} (hi : w * (i + 1) ≤ l) :
    lane l w win i = bitsValue bit (w * i) w := by
  have hm : w * (i + 1) = w * i + w := by ring
  have hw : 2 ^ w ≤ 2 ^ 56 := Nat.pow_le_pow_right (by decide) (by omega)
  have hp := Nat.two_pow_pos w
  rw [lane, BitVec.toNat_and, BitVec.toNat_ushiftRight, hwin, groupMask, BitVec.toNat_ofNat,
    Nat.mod_eq_of_lt (by omega), Nat.and_two_pow_sub_one_eq_mod]
  have := bitsValue_field bit 0 (w * i) w (l - w * (i + 1))
  rw [show w * i + w + (l - w * (i + 1)) = l by omega, Nat.zero_add] at this
  exact this

end Sys2Proof.Machine
end

