-- ==== Sys2Proof/Laws/Decode.lean ====
section
/-! SUPPORT. The fields of a command word as numbers, and everything the decoder can answer. -/

namespace Sys2Proof

theorem operandField_toNat (w : Word) : operandField w = w.toNat / 256 := by
  simp only [operandField, BitVec.extractLsb'_toNat, Nat.shiftRight_eq_div_pow]
  have := w.isLt
  omega

theorem opcodeField_toNat (w : Word) : (opcodeField w).toNat = w.toNat % 256 := by
  simp [opcodeField, BitVec.extractLsb'_toNat]

/-- A command word is its operand above its opcode. -/
theorem commandWord_toNat (n : Nat) (o : Byte) (h : n < 16777216) : (commandWord n o).toNat = n * 256 + o.toNat := by
  have ho := o.isLt
  rw [commandWord, BitVec.toNat_append, BitVec.toNat_ofNat, Nat.mod_eq_of_lt h, ← Nat.shiftLeft_add_eq_or_of_lt ho,
    Nat.shiftLeft_eq]

/-- Everything the decoder can answer, and when (R90). -/
theorem decodeWord_cases (w : Word) :
    (opcodeField w = 1#8 ∧ operandField w = 0 ∧ decodeWord w = .ok .configure) ∨
    (opcodeField w = 2#8 ∧ decodeWord w = .ok (.encode (operandField w))) ∨
    (opcodeField w = 3#8 ∧ decodeWord w = .ok (.decode (operandField w))) ∨
    (opcodeField w = 4#8 ∧ operandField w = 0 ∧ decodeWord w = .ok .clear) ∨
    ((¬ (opcodeField w = 1#8 ∧ operandField w = 0)) ∧ opcodeField w ≠ 2#8 ∧ opcodeField w ≠ 3#8 ∧
      (¬ (opcodeField w = 4#8 ∧ operandField w = 0)) ∧ ∃ e, decodeWord w = .error e) := by
  simp only [decodeWord]
  split
  · split <;> simp_all
  · split
    · simp_all
    · split
      · simp_all
      · split
        · split <;> simp_all
        · simp_all

/-- A row masked to the opcode selects by the opcode alone. -/
theorem selects_low (w : Word) (o : Byte) (m : String) :
    (OpcodeRow.selects ⟨m, o.setWidth 32, 0x000000FF#32⟩ w = true) ↔ opcodeField w = o := by
  have h1 := opcodeField_toNat w
  have hand : w &&& 0xFF#32 = (opcodeField w).setWidth 32 := by
    apply BitVec.eq_of_toNat_eq
    rw [BitVec.toNat_and, BitVec.toNat_setWidth, h1, show (255#32).toNat = 2 ^ 8 - 1 by rfl,
      Nat.and_two_pow_sub_one_eq_mod]
    omega
  rw [OpcodeRow.selects, hand, beq_iff_eq]
  constructor
  · intro h
    have := congrArg BitVec.toNat h
    simp only [BitVec.toNat_setWidth] at this
    apply BitVec.eq_of_toNat_eq
    have := (opcodeField w).isLt
    have := o.isLt
    omega
  · rintro rfl; rfl

/-- A row with every bit masked selects one word. -/
theorem selects_full (w : Word) (o : Byte) (m : String) :
    (OpcodeRow.selects ⟨m, o.setWidth 32, 0xFFFFFFFF#32⟩ w = true) ↔ opcodeField w = o ∧ operandField w = 0 := by
  have h1 := opcodeField_toNat w
  have h2 := operandField_toNat w
  rw [OpcodeRow.selects, show 0xFFFFFFFF#32 = BitVec.allOnes 32 by rfl, BitVec.and_allOnes, beq_iff_eq]
  have := o.isLt
  constructor
  · intro h
    have := congrArg BitVec.toNat h
    simp only [BitVec.toNat_setWidth] at this
    refine ⟨BitVec.eq_of_toNat_eq ?_, ?_⟩ <;> omega
  · rintro ⟨h, h'⟩
    apply BitVec.eq_of_toNat_eq
    simp only [BitVec.toNat_setWidth, ← h]
    omega

end Sys2Proof
end

