-- ==== Sys2Proof/Laws/Host.lean ====
section
/-! SUPPORT. What each host operation can do (spec/20_memory.md R61 to R68): for each, one lemma that says everything its next
state can be, so that a statement about a step never unfolds the operation. -/

namespace Sys2Proof.Machine

/-! ### The host sequence does not reach the block's own state -/

@[simp] theorem State.spaceSize_host (s : State) (ops : List HostOp) (sp : Space) :
    State.spaceSize { s with host := ops } sp = s.spaceSize sp := by cases sp <;> rfl

@[simp] theorem State.byteAt_host (s : State) (ops : List HostOp) (sp : Space) (i : Nat) :
    State.byteAt { s with host := ops } sp i = s.byteAt sp i := by cases sp <;> rfl

/-! ### Register operations -/

/-- The offsets of R61 and R62. -/
theorem regRefusal_none {off : Nat} : regRefusal off = none ↔ off % 4 = 0 ∧ off ≤ 0xFC := by
  unfold regRefusal
  split
  · simp; omega
  · split <;> simp <;> omega

theorem regAt_cmd {off : Nat} : regAt off = some .cmd ↔ off = 0x10 := by
  unfold regAt; split <;> simp_all

/-- Each register stands at its offset (R21). -/
theorem regAt_offset (r : RegName) : regAt r.offset = some r := by cases r <;> rfl

/-- The offsets from 0x28 up are reserved (R32). -/
theorem regAt_reserved {off : Nat} (h : 0x28 ≤ off) : regAt off = none := by
  unfold regAt
  split <;> first | omega | rfl

/-- A `RegRead` that goes on writes only the reply. -/
theorem hostRegRead_next {s t : State} {off : Nat} (h : hostRegRead off s = .next t) :
    t = { s with reply := t.reply } := by
  unfold hostRegRead at h
  split at h
  · cases h
  · split at h <;> cases next_inj h <;> rfl

/-- A `RegWrite` that goes on issues a command, or writes one register, or is ignored. -/
theorem hostRegWrite_next {s t : State} {off : Nat} {w : Word} (h : hostRegWrite off w s = .next t) :
    (off = 0x10 ∧ ∃ u, issue w s = .next u ∧ t = u.withReply .ack) ∨
    (∃ r, r ≠ .cmd ∧ regAt off = some r ∧ t = (s.writeReg r w).withReply .ack) ∨
    (regAt off = none ∧ t = s.withReply .ack) := by
  unfold hostRegWrite at h
  split at h
  · cases h
  · split at h
    · obtain ⟨u, hu, rfl⟩ := onNext_eq_next.1 h
      exact .inl ⟨regAt_cmd.1 ‹_›, u, hu, rfl⟩
    · rename_i r hr hreg
      refine .inr (.inl ⟨r, ?_, hreg, (next_inj h).symm⟩)
      rintro rfl
      exact hr rfl
    · exact .inr (.inr ⟨‹_›, (next_inj h).symm⟩)

/-- Issuing a word runs the command it decodes to or reports IllegalCommand (R101, R85). -/
theorem issue_cases (w : Word) (s : State) :
    (∃ i, decodeWord w = .ok i ∧ issue w s = exec i s) ∨
    (∃ e, decodeWord w = .error e ∧ issue w s = .next (s.raiseErr .illegalCommand 0)) := by
  unfold issue
  cases decodeWord w with
  | ok i => exact .inl ⟨i, rfl, rfl⟩
  | error e => exact .inr ⟨e, rfl, rfl⟩

/-! ### Byte operations -/

/-- A `ByteRead` that goes on was inside its space, returns the byte there, and changes at most the count of draws, and that
only for an `OBUF` entry that holds no known byte. -/
theorem hostByteRead_next {s t : State} {sp : Space} {i : Nat} (h : hostByteRead sp i s = .next t) :
    i < s.spaceSize sp ∧ t = { s with reply := .byte (s.byteAt sp i), draws := t.draws } ∧
    ((sp = .obuf ∧ Memory.find s.obuf i = none) ∨ t.draws = s.draws) := by
  unfold hostByteRead at h
  split at h
  · cases h
  · refine ⟨by omega, ?_⟩
    cases next_inj h
    unfold State.hostByte
    split
    · exact ⟨rfl, .inl ⟨rfl, by assumption⟩⟩
    · exact ⟨rfl, .inr rfl⟩

/-- A `ByteWrite` that goes on was inside its space and wrote the one entry. -/
theorem hostByteWrite_next {s t : State} {sp : Space} {i : Nat} {b : Byte} (h : hostByteWrite sp i b s = .next t) :
    i < s.spaceSize sp ∧ t = (s.writeByte sp i b).withReply .ack := by
  unfold hostByteWrite at h
  split at h
  · cases h
  · exact ⟨by omega, (next_inj h).symm⟩

/-! ### The flat address map -/

/-- A flat address that names a register offset is that offset (R67). -/
theorem State.flatTarget_reg {s : State} {a : Word} {off : Nat} (h : s.flatTarget a = some (.reg off)) :
    a.toNat = off ∧ off < 0x100 := by
  unfold State.flatTarget at h
  simp only at h
  split at h
  · simp at h; omega
  · split at h
    · simp at h
    · split at h
      · simp at h
      · split at h <;> simp at h

/-- A flat address that names an entry names one inside its space (R67). -/
theorem State.flatTarget_entry {s : State} {a : Word} {sp : Space} {i : Nat}
    (h : s.flatTarget a = some (.entry sp i)) : 0x100 ≤ a.toNat ∧ i < s.spaceSize sp := by
  unfold State.flatTarget at h
  simp only at h
  split at h
  · simp at h
  · split at h
    · simp only [Option.some.injEq, FlatTarget.entry.injEq] at h
      obtain ⟨rfl, rfl⟩ := h
      exact ⟨by omega, by simp only [State.spaceSize_sym]; omega⟩
    · split at h
      · simp only [Option.some.injEq, FlatTarget.entry.injEq] at h
        obtain ⟨rfl, rfl⟩ := h
        exact ⟨by omega, by simp only [State.spaceSize_ibuf]; omega⟩
      · split at h
        · simp only [Option.some.injEq, FlatTarget.entry.injEq] at h
          obtain ⟨rfl, rfl⟩ := h
          exact ⟨by omega, by simp only [State.spaceSize_obuf]; omega⟩
        · simp at h

/-- A read on the flat map that goes on is the register read or the byte read it names. -/
theorem hostBusRead_next {s t : State} {a : Word} {wd : AccessWidth} (h : hostBusRead a wd s = .next t) :
    (∃ off, s.flatTarget a = some (.reg off) ∧ wd = .word ∧ hostRegRead off s = .next t) ∨
    (∃ sp i, s.flatTarget a = some (.entry sp i) ∧ wd = .byte ∧ hostByteRead sp i s = .next t) := by
  unfold hostBusRead at h
  split at h
  · cases h
  · exact .inl ⟨_, by assumption, rfl, h⟩
  · exact .inr ⟨_, _, by assumption, rfl, h⟩
  · cases h

/-- A write on the flat map that goes on is the register write or the byte write it names. -/
theorem hostBusWrite_next {s t : State} {a : Word} {d : BusData} (h : hostBusWrite a d s = .next t) :
    (∃ off w, s.flatTarget a = some (.reg off) ∧ d = .word w ∧ hostRegWrite off w s = .next t) ∨
    (∃ sp i b, s.flatTarget a = some (.entry sp i) ∧ d = .byte b ∧ hostByteWrite sp i b s = .next t) := by
  unfold hostBusWrite at h
  split at h
  · cases h
  · exact .inl ⟨_, _, by assumption, rfl, h⟩
  · exact .inr ⟨_, _, _, by assumption, rfl, h⟩
  · cases h

/-! ### Memory operations of the block keep the canonical form -/

/-- A write of one byte inside its space keeps the canonical form of every memory. -/
theorem State.memoryInv_writeByte {s : State} (h : s.MemoryInv) {sp : Space} {i : Nat} (hi : i < s.spaceSize sp)
    (b : Byte) : (s.writeByte sp i b).MemoryInv := by
  obtain ⟨h1, h2, h3, h4, h5, h6⟩ := h
  cases sp with
  | sym => exact ⟨Memory.wf_store i b h1, h2, h3, Memory.within_store h4 hi, h5, h6⟩
  | ibuf => exact ⟨h1, Memory.wf_store i b h2, h3, h4, Memory.within_store h5 hi, h6⟩
  | obuf => exact ⟨h1, h2, h3, h4, h5, h6⟩

/-- Delivering a result keeps the canonical form of every memory. -/
theorem State.memoryInv_deliver {s : State} (h : s.MemoryInv) (t : List Byte) : (s.deliver t).MemoryInv := by
  obtain ⟨h1, h2, -, h4, h5, -⟩ := h
  unfold State.deliver
  split
  · exact ⟨h1, h2, Memory.wf_ofBytes 0 [], h4, h5, by intro c hc; cases hc⟩
  · exact ⟨h1, h2, Memory.wf_ofBytes 0 t, h4, h5, Memory.within_ofBytes (Nat.not_lt.1 ‹_›)⟩

/-- The memories of the reset state are in canonical form. -/
theorem State.memoryInv_reset : State.reset.MemoryInv := by
  refine ⟨.nil, .nil, .nil, ?_, ?_, ?_⟩ <;> intro c hc <;> cases hc

end Sys2Proof.Machine
end

