-- ==== Sys2Proof/Laws/PerInstr.lean ====
section
/-! SUPPORT. The statement made instruction by instruction, for the host's case split over the constructors of `Instr`: the
encoding of each (spec/30_encoding.md R81 to R84). -/

namespace Sys2Proof.Laws.OpcodeByte

/-- The opcode of each row of R84. -/
def opcodeOf : Instr → Byte
  | .configure => 0x01#8
  | .encode _ => 0x02#8
  | .decode _ => 0x03#8
  | .clear => 0x04#8

/-- The `LEN` of a command, 0 where its format has none (R81, R82). -/
def lenOf : Instr → Nat
  | .configure => 0
  | .encode len => len
  | .decode len => len
  | .clear => 0

/-- The word of a well-formed command has the opcode of its row in `w[7:0]` and its `LEN`, or 0, in `w[31:8]`. -/
def Statement (i : Instr) : Prop :=
  i.wf = true → opcodeField (encodeInstr i) = opcodeOf i ∧ operandField (encodeInstr i) = lenOf i

/-- The two fields of a word put together from them. -/
theorem fields_commandWord (n : Nat) (o : Byte) (h : n < 16777216) :
    opcodeField (commandWord n o) = o ∧ operandField (commandWord n o) = n := by
  have hw := commandWord_toNat n o h
  have ho := o.isLt
  refine ⟨BitVec.eq_of_toNat_eq ?_, ?_⟩
  · rw [opcodeField_toNat, hw]; omega
  · rw [operandField_toNat, hw]; omega

theorem configure : Statement .configure := fun _ => fields_commandWord 0 _ (by decide)

theorem encode (len : Nat) : Statement (.encode len) := fun h => fields_commandWord len _ (of_decide_eq_true h)

theorem decode (len : Nat) : Statement (.decode len) := fun h => fields_commandWord len _ (of_decide_eq_true h)

theorem clear : Statement .clear := fun _ => fields_commandWord 0 _ (by decide)

end Sys2Proof.Laws.OpcodeByte
end

