-- ==== Sys2Proof/Machine/HostNotation.lean ====
section
/-! DEFINITION. The host-program notation of spec/30_encoding.md R88 and R89 as sequences of host operations: what the
spec's own programs are written in. The block never sees the notation; it abbreviates operations of
spec/20_memory.md R61. -/

namespace Sys2Proof.Machine

/-- `WR <reg>, <value>` (R88). -/
def lineWr (r : RegName) (w : Word) : HostOp := .regWrite r.offset w

/-- `RD <reg>` (R88). -/
def lineRd (r : RegName) : HostOp := .regRead r.offset

/-- `WRB <space>[<i>], <byte>` (R88). -/
def lineWrb (sp : Space) (i : Nat) (b : Byte) : HostOp := .byteWrite sp i b

/-- `RDB <space>[<i>]` (R88). -/
def lineRdb (sp : Space) (i : Nat) : HostOp := .byteRead sp i

/-- `CONFIGURE`, `ENCODE <len>`, `DECODE <len>`, `CLEAR`: the command's word written to `CMD` (R88). -/
def lineCommand (i : Instr) : HostOp := lineWr .cmd (encodeInstr i)

/-- `WRB` of consecutive entries from index 0, in order (R89). -/
def loadBytes (sp : Space) (bs : List Byte) : List HostOp := bs.zipIdx.map (fun p => lineWrb sp p.2 p.1)

/-- `LDSYM "<s>"` and `LDSYMB <b0>, ...`: the symbols, then `WR ALEN` (R89). -/
def ldsym (bs : List Byte) : List HostOp := loadBytes .sym bs ++ [lineWr .alen (BitVec.ofNat 32 bs.length)]

/-- `LDIN <b0>, <b1>, ...` (R89). -/
def ldin (bs : List Byte) : List HostOp := loadBytes .ibuf bs

/-- The reads of `EXPECT OBUF = ...` for `k` bytes (R89). -/
def expectReads (k : Nat) : List HostOp := lineRd .olen :: (List.range k).map (lineRdb .obuf)

/-- `SETUP <radix>, <cfg>, '<pad>'` (R89). -/
def setup (radix cfg pad : Word) : List HostOp := [lineWr .radix radix, lineWr .cfg cfg, lineWr .padsym pad]

end Sys2Proof.Machine
end

