-- ==== Sys2Proof/Tests/Slice0.lean ====
section
/-! SUPPORT. The model's own tests. Expected values come from the spec: the words from the encodings of
spec/30_encoding.md R81 to R84, the results from the worked vectors of spec/95_test_vectors.md, each named by its id. The
second half holds one witness for each statement that has hypotheses: a concrete state and operands that meet them all. -/

namespace Sys2Proof.Tests
open Sys2Proof.Machine

/-! ### Building small blocks -/

/-- `n` consecutive codes from `a` up. -/
def codes (a n : Nat) : List Byte := (List.range n).map (fun i => BitVec.ofNat 8 (a + i))

/-- Alphabet HEX of spec/95_test_vectors.md section 0. -/
def hex : List Byte := codes 0x30 10 ++ codes 0x61 6

/-- Alphabet B32. -/
def b32 : List Byte := codes 0x41 26 ++ codes 0x32 6

/-- Alphabet DEC. -/
def dec : List Byte := codes 0x30 10

/-- A block whose configuration registers, `SYM` and `IBUF` the host has loaded, with these capacities. -/
def block (radix : Nat) (cfg : BitVec 6) (pad : Byte) (syms input : List Byte) (capIbuf capObuf : Word) : State :=
  { State.reset with
    radix := BitVec.ofNat 9 radix, alen := BitVec.ofNat 9 radix, cfg := cfg, padsym := pad,
    capIbuf := capIbuf, capObuf := capObuf, sym := Memory.ofBytes 0 syms, ibuf := Memory.ofBytes 0 input }

/-- The next state of an outcome. -/
def nextState : Host.Outcome State Fault Refusal → Option State
  | .next t => some t
  | .fault _ => none
  | .refused _ => none

/-- The refusal of an outcome. -/
def refusal : Host.Outcome State Fault Refusal → Option Refusal
  | .next _ => none
  | .fault _ => none
  | .refused r => some r

/-- The state after CONFIGURE. -/
def configured (s : State) : State := (nextState (exec .configure s)).getD s

/-- What a command leaves for the host: `STATUS`, `OLEN`, `ERRPOS` and the known bytes of `OBUF`. -/
def report (o : Host.Outcome State Fault Refusal) : Option (Word × Word × Word × Memory) :=
  (nextState o).map (fun t => (t.readReg .status, t.olen, t.readReg .errpos, t.obuf))

/-- The report of a success with this text in `OBUF`. -/
def good (status : Word) (t : List Byte) : Option (Word × Word × Word × Memory) :=
  some (status, BitVec.ofNat 32 t.length, 0, Memory.ofBytes 0 t)

/-- The report of a failure that leaves `OBUF` unspecified. -/
def bad (status pos : Word) : Option (Word × Word × Word × Memory) := some (status, 0, pos, [])

/-- Configuration H: HEX, no padding, strict. -/
def hexBlock (input : List Byte) (capObuf : Word) : State := configured (block 16 0x00 0 hex input 64 capObuf)

/-- Configuration P: B32 with '=' as pad, strict. -/
def padBlock (input : List Byte) (capObuf : Word) : State := configured (block 32 0x03 0x3D b32 input 64 capObuf)

/-- Configuration D: DEC, the BRC unit. -/
def decBlock (input : List Byte) (capObuf : Word) : State := configured (block 10 0x00 0 dec input 64 capObuf)

/-! ### Well-formedness: each check refuses an ill-formed term -/

theorem test_wf_encode_refuses_wide_len : (Instr.encode 16777216).wf = false := by decide
theorem test_wf_decode_refuses_wide_len : (Instr.decode 16777216).wf = false := by decide
theorem test_wf_accepts_widest_len : (Instr.encode 16777215).wf = true ∧ (Instr.decode 16777215).wf = true := by decide
theorem test_wf_without_operand : Instr.configure.wf = true ∧ Instr.clear.wf = true := by decide

/-! ### Decoding: words written out bit by bit from R81 to R84 -/

theorem test_decode_configure : decodeWord 0b00000000000000000000000000000001#32 = .ok .configure := by decide
/-- `LEN` = 000000000000000000000100. -/
theorem test_decode_encode : decodeWord 0b00000000000000000000010000000010#32 = .ok (.encode 4) := by decide
/-- `LEN` = 100000000000000000000001: bit 31 is its most significant bit, and nothing is sign-extended. -/
theorem test_decode_decode : decodeWord 0b10000000000000000000000100000011#32 = .ok (.decode 8388609) := by decide
theorem test_decode_clear : decodeWord 0b00000000000000000000000000000100#32 = .ok .clear := by decide
/-- Illegal words of V-X3 to V-X7, rejected by name. -/
theorem test_decode_rejects_by_name :
    decodeWord 0x00000000#32 = .error (.reservedOpcode 0x00) ∧ decodeWord 0x00000005#32 = .error (.reservedOpcode 0x05) ∧
    decodeWord 0x00000101#32 = .error (.nonzeroOperand 0x01 1) ∧
    decodeWord 0x00000104#32 = .error (.nonzeroOperand 0x04 1) ∧
    decodeWord 0xFFFFFFFF#32 = .error (.reservedOpcode 0xFF) := by decide
theorem test_encode_words :
    [Instr.configure, .encode 4, .decode 8, .clear].map encodeInstr =
      [0x00000001#32, 0x00000402#32, 0x00000803#32, 0x00000004#32] := by decide
theorem test_decodeTableWord :
    decodeTableWord 32 0x00000402 = some (.encode 4) ∧ decodeTableWord 32 0x00000005 = none := by decide

/-! ### The commands -/

/-- V-C4: HEX under `CODEC_AUTO` is BPC with b = 4. -/
theorem test_configure_selects_unit :
    report (exec .configure (block 16 0x00 0 hex [] 64 512)) = some (0x11, 0, 0, []) := by decide
/-- V-C29: with `CASE_INS` the pad 'A' collides with 'a'. -/
theorem test_configure_rejects_folded_pad :
    report (exec .configure (block 16 0x05 0x41 hex [] 64 512)) = some (0x200, 0, 0, []) := by decide

/-- V-P19: seven data symbols and one pad symbol. -/
theorem test_encode_pads_partial_block :
    report (exec (.encode 4) (padBlock [0x66, 0x6F, 0x6F, 0x62] 512)) =
      good 0x15 [0x4D, 0x5A, 0x58, 0x57, 0x36, 0x59, 0x51, 0x3D] := by decide
/-- V-D1 and V-D3 in one: two zero bytes, then 256 in decimal. -/
theorem test_encode_keeps_leading_zeros :
    report (exec (.encode 4) (decBlock [0x00, 0x00, 0x01, 0x00] 512)) = good 0x03 [0x30, 0x30, 0x32, 0x35, 0x36] := by
  decide

/-- V-P20 read back (V-P23): eight symbols are five bytes. -/
theorem test_decode_whole_block :
    report (exec (.decode 8) (padBlock [0x4D, 0x5A, 0x58, 0x57, 0x36, 0x59, 0x54, 0x42] 512)) =
      good 0x15 [0x66, 0x6F, 0x6F, 0x62, 0x61] := by decide
/-- V-D7: "00256". -/
theorem test_decode_folds_digits :
    report (exec (.decode 5) (decBlock [0x30, 0x30, 0x32, 0x35, 0x36] 512)) = good 0x03 [0x00, 0x00, 0x01, 0x00] := by
  decide

/-- V-X19: CLEAR after an error, `OBUF` as it was. -/
theorem test_clear_resets_registers :
    report (exec .clear { padBlock [0x37] 512 with errpos := 2, obuf := [(3, 0x41)] }) = some (0, 0, 0, [(3, 0x41)]) := by
  decide

/-! ### The kernel runs a step on a placed word -/

/-- V-X1: right after reset ENCODE reports NotConfigured. -/
theorem test_step_encode_from_reset :
    report (step (State.reset.withFetchWord 32 0x00000202)) = some (0x700, 0, 0, []) := by decide
/-- V-X3: the zero word is illegal. -/
theorem test_step_illegal_from_reset : report (step (State.reset.withFetchWord 32 0)) = some (0x600, 0, 0, []) := by decide

/-- The lines of R88 and R89 are the operations they abbreviate. -/
theorem test_notation :
    lineCommand (.encode 2) = .regWrite 0x10 0x00000202 ∧
    ldsym [0x61, 0x62] = [.byteWrite .sym 0 0x61, .byteWrite .sym 1 0x62, .regWrite 0x04 2] ∧
    setup 3 0 0x3D = [.regWrite 0x00 3, .regWrite 0x08 0, .regWrite 0x0C 0x3D] ∧
    expectReads 1 = [.regRead 0x18, .byteRead .obuf 0] := by decide

/-! ### Tools for the witnesses -/

theorem next_of {o : Host.Outcome State Fault Refusal} (h : (nextState o).isSome = true) : ∃ t, o = .next t := by
  cases o with
  | next t => exact ⟨t, rfl⟩
  | fault r => cases r
  | refused r => cases h

/-- `State.Ready` as a computation. -/
def readyCheck (s : State) (m : Mode) : Bool :=
  s.status.cfgValid && decide (s.status.mode = m) &&
    decide (s.construct = .ok { mode := s.status.mode, bits := s.status.bits, rlut := s.rlut })

theorem ready_of {s : State} {m : Mode} (h : readyCheck s m = true) : s.Ready m := by
  simp only [readyCheck, Bool.and_eq_true, decide_eq_true_eq] at h
  exact ⟨h.1.1, h.1.2, h.2⟩

/-- `State.Inv` of a ready block as a computation. -/
def invCheck (s : State) : Bool :=
  decide (Memory.wf s.sym) && decide (Memory.wf s.ibuf) && decide (Memory.wf s.obuf) &&
  s.sym.all (fun c => decide (c.1 < 256)) && s.ibuf.all (fun c => decide (c.1 < s.ibufBytes)) &&
  s.obuf.all (fun c => decide (c.1 < s.obufBytes)) &&
  decide (1 ≤ s.ibufBytes ∧ s.ibufBytes ≤ 16777215) && decide (1 ≤ s.obufBytes ∧ s.obufBytes ≤ 268435456) &&
  decide (s.status.err = .noError) && decide (s.errpos = 0) &&
  (List.range s.olen.toNat).all (fun i => (Memory.find s.obuf i).isSome)

theorem inv_of {s : State} {m : Mode} (hr : readyCheck s m = true) (h : invCheck s = true) : s.Inv := by
  have hr := ready_of hr
  simp only [invCheck, Bool.and_eq_true, decide_eq_true_eq, List.all_eq_true, List.mem_range] at h
  obtain ⟨⟨⟨⟨⟨⟨⟨⟨⟨⟨h1, h2⟩, h3⟩, h4⟩, h5⟩, h6⟩, h7⟩, h8⟩, h9⟩, h10⟩, h11⟩ := h
  refine ⟨⟨h1, h2, h3, h4, h5, h6⟩, ⟨h7, h8⟩, ⟨fun _ => hr.2.2, fun hv => ?_⟩, fun he => absurd h9 he, fun _ _ => h10, h11⟩
  rw [hr.1] at hv; cases hv

/-- The alphabet whose symbol `i` is the code `i`, the largest there is, is accepted under any configuration without padding
or case folding. -/
theorem identity_accepted (r : Nat) (hr : r ≤ 256) (cfg : BitVec 6) (hp : cfgPadEn cfg = false)
    (hc : cfgCaseIns cfg = false) : ¬ (block r cfg 0 (codes 0 r) [] 64 512).AlphabetRejected := by
  have hrad : (block r cfg 0 (codes 0 r) [] 64 512).radix.toNat = r := by
    show (BitVec.ofNat 9 r).toNat = r
    rw [BitVec.toNat_ofNat]; omega
  have hsym : ∀ i, i < r → (block r cfg 0 (codes 0 r) [] 64 512).symAt i = BitVec.ofNat 8 i := by
    intro i hi
    simp [State.symAt, State.byteAt, State.memory, block, Memory.find_ofBytes_zero, codes, hi]
  rintro (h | ⟨i, j, hij, hj, h⟩ | ⟨h, -⟩)
  · exact h rfl
  · rw [hrad] at hj
    have hn : ∀ c, norm (block r cfg 0 (codes 0 r) [] 64 512).cfg c = c := fun c => by
      show (if cfgCaseIns cfg = true then fold c else c) = c
      rw [hc]; rfl
    rw [hn, hn, hsym i (by omega), hsym j hj] at h
    have := congrArg BitVec.toNat h
    simp only [BitVec.toNat_ofNat] at this
    omega
  · exact absurd (hp.symm.trans h) (by decide)

/-! ### Witnesses: command words -/

/-- Each row selects a word of its own and no other row does; the zero word selects none. -/
theorem witness_DecoderFollowsOpcodeMap :
    opcodeRows.map (fun r => r.selects 0x00000001#32) = [true, false, false, false] ∧
    opcodeRows.map (fun r => r.selects 0xFFFFFF02#32) = [false, true, false, false] ∧
    opcodeRows.map (fun r => r.selects 0x00000003#32) = [false, false, true, false] ∧
    opcodeRows.map (fun r => r.selects 0x00000004#32) = [false, false, false, true] ∧
    opcodeRows.map (fun r => r.selects 0x00000000#32) = [false, false, false, false] ∧
    decodeWord 0xFFFFFF02#32 = .ok (.encode 16777215) := by decide

theorem witness_DecodingInvertsEncoding :
    (Instr.encode 16777215).wf = true ∧ (Instr.decode 0).wf = true ∧
    decodeWord 0xFFFFFF03#32 = .ok (.decode 16777215) := by decide

/-- The opcodes 0, 5 and 0xFF, and both format C0 opcodes with one operand bit set. -/
theorem witness_IllegalWordOnlyReportsIllegalCommand :
    (∀ w ∈ [0x00000000#32, 0x00000005#32, 0xFFFFFFFF#32],
      w.extractLsb' 0 8 = 0#8 ∨ 5#8 ≤ w.extractLsb' 0 8) ∧
    (∀ w ∈ [0x00000101#32, 0x80000004#32],
      (w.extractLsb' 0 8 = 1#8 ∨ w.extractLsb' 0 8 = 4#8) ∧ w.extractLsb' 8 24 ≠ 0#24) ∧
    ({ State.reset with host := [.regWrite 0x10 0x80000004] }).host = .regWrite 0x10 0x80000004 :: [] :=
  ⟨by intro w hw; fin_cases hw <;> decide, by intro w hw; fin_cases hw <;> decide, rfl⟩

theorem witness_StepRunsDecodedCommand :
    ({ State.reset with host := [.regWrite 0x10 0x00000202] }).host = .regWrite 0x10 0x00000202 :: [] ∧
    decodeWord 0x00000202#32 = .ok (.encode 2) ∧ (Instr.encode 2).wf = true ∧ State.reset.host = [] := by decide

/-! ### Witnesses: every command -/

/-- V-H3: a command that ends with InvalidSymbol at 7; and V-X1, one that ends with NotConfigured and position 0. -/
theorem witness_EveryCommandEndsAndReports :
    report (exec (.decode 8) (hexBlock [0x64, 0x65, 0x61, 0x64, 0x62, 0x65, 0x65, 0x67] 512)) = bad 0x311 7 ∧
    report (exec (.encode 2) State.reset) = bad 0x700 0 := by and_intros <;> decide

theorem witness_ErrorsOfEachCommand :
    (∃ t, exec .configure (block 16 0 0 hex [] 64 512) = .next t) ∧ (∃ t, exec (.encode 0) State.reset = .next t) ∧
    (∃ t, exec (.decode 0) State.reset = .next t) ∧ (∃ t, exec .clear State.reset = .next t) ∧
    (∃ t, issue 0x00000104#32 State.reset = .next t) ∧ (∃ e, decodeWord 0x00000104#32 = .error e) :=
  ⟨next_of (by decide), next_of (by decide), next_of (by decide), next_of (by decide), next_of (by decide), _, rfl⟩

/-- V-P6 and V-P3: DECODE reports InvalidPadding at 1, and TrailingBits at 0. -/
theorem witness_ContentErrorsNeedTheirPolicy :
    report (exec (.decode 8) (padBlock [0x37, 0x3D, 0x34, 0x3D, 0x3D, 0x3D, 0x3D, 0x3D] 512)) = bad 0x415 1 ∧
    report (exec (.decode 8) (padBlock [0x37, 0x35, 0x3D, 0x3D, 0x3D, 0x3D, 0x3D, 0x3D] 512)) = bad 0x515 0 := by and_intros <;> decide

/-- V-H1, V-H2, a CONFIGURE, a CLEAR, and the illegal word of V-X6. -/
theorem witness_NoSilentFailure :
    report (exec (.encode 4) (hexBlock [0xDE, 0xAD, 0xBE, 0xEF] 512)) =
      good 0x11 [0x64, 0x65, 0x61, 0x64, 0x62, 0x65, 0x65, 0x66] ∧
    report (exec (.decode 8) (hexBlock [0x64, 0x65, 0x61, 0x64, 0x62, 0x65, 0x65, 0x66] 512)) =
      good 0x11 [0xDE, 0xAD, 0xBE, 0xEF] ∧
    (nextState (exec .configure (block 16 0 0 hex [] 64 512))).isSome = true ∧
    (nextState (exec .clear State.reset)).isSome = true ∧
    report (issue 0x00000104#32 (hexBlock [] 512)) = bad 0x611 0 := by and_intros <;> decide

theorem witness_CommandsKeepInputsAndConfiguration :
    (∃ t, exec (.encode 1) (hexBlock [0x0F] 512) = .next t) ∧ Instr.encode 1 ≠ .clear :=
  ⟨next_of (by decide), by decide⟩

/-- An `IBUF` that differs from index `LEN` on and a `SYM` that differs from index `RADIX` on. -/
theorem witness_EngineReadsOnlyItsOperands :
    let s := hexBlock [0x0F, 0x01] 512
    let t := { s with ibuf := Memory.ofBytes 0 [0x0F, 0x77], sym := Memory.ofBytes 0 (hex ++ [0x21]) }
    (∀ i < s.radix.toNat, t.byteAt .sym i = s.byteAt .sym i) ∧ (∀ i < 1, t.byteAt .ibuf i = s.byteAt .ibuf i) ∧
    s.Ready .bpc ∧ t.ibufAt 1 ≠ s.ibufAt 1 :=
  ⟨by decide, by decide, ready_of (by decide), by decide⟩

/-! ### Witnesses: CONFIGURE and CLEAR -/

/-- The least and the greatest radix of each unit: BPC 2 and 256, BRC 3 and 255, BIGRADIX 2 and 255. -/
theorem witness_ConfigureCompletes :
    (∀ r ∈ [(2, 0x00#6, Mode.bpc, 1#4), (256, 0x00#6, .bpc, 8#4), (3, 0x00#6, .brc, 0#4), (255, 0x00#6, .brc, 0#4),
        (2, 0x20#6, .brc, 0#4), (255, 0x20#6, .brc, 0#4), (256, 0x10#6, .bpc, 8#4)],
      SelectedUnit (block r.1 r.2.1 0 (codes 0 r.1) [] 64 512).radix.toNat (cfgCodec r.2.1) r.2.2.1 r.2.2.2) ∧
    (∀ r ≤ 256, ∀ cfg ∈ [0x00#6, 0x10#6, 0x20#6], ¬ (block r cfg 0 (codes 0 r) [] 64 512).AlphabetRejected) := by
  constructor
  · unfold SelectedUnit; decide
  · intro r hr cfg hcfg
    exact identity_accepted r hr cfg (by revert cfg; decide) (by revert cfg; decide)

/-- Reserved `CODEC`; every bound of InvalidRadix; and the three causes of InvalidAlphabet (V-C24, V-C26, V-C27). -/
theorem witness_ConfigureFailuresInOrder :
    cfgCodec 0x30#6 = .reserved ∧
    (∀ r ∈ [0, 1, 257, 511], RadixRejected (block r 0 0 [] [] 64 512).radix.toNat .auto) ∧
    (∀ r ∈ [0, 1, 10, 255, 257, 511], RadixRejected (block r 0x10 0 [] [] 64 512).radix.toNat .bitpack) ∧
    (∀ r ∈ [0, 1, 256, 511], RadixRejected (block r 0x20 0 [] [] 64 512).radix.toNat .bigradix) ∧
    (cfgCodec 0x00#6 ≠ .reserved ∧ cfgCodec 0x01#6 ≠ .reserved ∧ ¬ RadixRejected 16 (cfgCodec 0x00#6) ∧
      ¬ RadixRejected 4 (cfgCodec 0x00#6) ∧ ¬ RadixRejected 16 (cfgCodec 0x01#6)) ∧
    { block 16 0 0 hex [] 64 512 with alen := 15 }.AlphabetRejected ∧
    (block 4 0 0 [0x61, 0x62, 0x63, 0x61] [] 64 512).AlphabetRejected ∧
    (block 16 0x01 0x61 hex [] 64 512).AlphabetRejected := by
  have h0 : cfgCodec 0x00#6 = .auto := by decide
  have h1 : cfgCodec 0x01#6 = .auto := by decide
  refine ⟨by decide, ?_, ?_, ?_, by simp [h0, h1, RadixRejected], .inl (by decide), .inr (.inl ⟨0, 3, by decide, by decide, by decide⟩),
    .inr (.inr ⟨by decide, 10, by decide, by decide⟩)⟩
  all_goals simp only [RadixRejected]; decide

/-- V-C14 and V-C18. -/
theorem witness_InvalidRadixExactly :
    report (exec .configure (block 1 0 0 [0x30] [] 64 512)) = bad 0x100 0 ∧
    report (exec .configure (block 256 0x20 0 [] [] 64 512)) = bad 0x100 0 := by and_intros <;> decide

/-- V-C26. -/
theorem witness_InvalidAlphabetExactly :
    report (exec .configure (block 4 0 0 [0x61, 0x62, 0x63, 0x61] [] 64 512)) = bad 0x200 0 := by decide

theorem witness_ConfigureFrame : ∃ t, exec .configure (block 16 0 0 hex [0x01] 64 512) = .next t := next_of (by decide)

/-- Two blocks with the same configuration state that differ in `IBUF`, the results and the symbols past `RADIX`. -/
theorem witness_ConstructionIsDeterministic :
    let s := block 16 0 0 hex [0x01] 64 512
    let s' := { block 16 0 0 (hex ++ [0x21]) [0x02] 64 512 with olen := 7 }
    s'.radix = s.radix ∧ s'.alen = s.alen ∧ s'.cfg = s.cfg ∧ s'.padsym = s.padsym ∧
    (∀ i < s.radix.toNat, s'.symAt i = s.symAt i) ∧
    (∃ t, exec .configure s = .next t) ∧ (∃ t, exec .configure s' = .next t) :=
  ⟨rfl, rfl, rfl, rfl, by decide, next_of (by decide), next_of (by decide)⟩

/-! ### Witnesses: ENCODE -/

/-- V-X10: `LEN` one above the capacity; and an unconfigured block. -/
theorem witness_PreChecksReportAndStop :
    State.reset.status.cfgValid = false ∧ (hexBlock [] 512).status.cfgValid = true ∧ (hexBlock [] 512).ibufBytes < 65 ∧
    (Instr.encode 65 = .encode 65 ∨ Instr.encode 65 = .decode 65) ∧
    (Instr.decode 65 = .encode 65 ∨ Instr.decode 65 = .decode 65) := by decide

theorem witness_EncodeDecodeFrame :
    (∃ t, exec (.encode 1) (hexBlock [0x0F] 512) = .next t) ∧ (∃ t, exec (.decode 65) (hexBlock [] 512) = .next t) ∧
    (hexBlock [] 512).ibufBytes < 65 :=
  ⟨next_of (by decide), next_of (by decide), by decide⟩

/-- V-P1 with an output buffer of exactly 8 bytes, and with one of 7; `LEN` = `IBUF_BYTES` is allowed. -/
theorem witness_EncodeBpcWritesBitGroups :
    (padBlock [0xFF] 8).Ready .bpc ∧ (padBlock [0xFF] 7).Ready .bpc ∧ 64 ≤ (padBlock [0xFF] 8).ibufBytes ∧
    (padBlock [0xFF] 8).status.bits.toNat = 5 ∧ (8 * 1 + 5 - 1) / 5 + padsAfter 5 ((8 * 1 + 5 - 1) / 5) = 8 ∧
    report (exec (.encode 1) (padBlock [0xFF] 8)) = good 0x15 [0x37, 0x34, 0x3D, 0x3D, 0x3D, 0x3D, 0x3D, 0x3D] ∧
    report (exec (.encode 1) (padBlock [0xFF] 7)) = bad 0x915 0 :=
  ⟨ready_of (by decide), ready_of (by decide), by decide, by decide, by decide, by decide, by decide⟩

/-- Whole groups (b = 8, and b = 5 with a block of five bytes), and a partial one. -/
theorem witness_PadCountIsLeastCompletion :
    8 * 1 % 8 = 0 ∧ 8 * 5 % 5 = 0 ∧ 8 * 1 % 5 ≠ 0 ∧ padCount true 5 1 (groupCount 5 1) = 6 := by decide

/-- V-D1 with an output buffer of exactly 3 bytes, and with one of 2. -/
theorem witness_EncodeBrcWritesDigits :
    (decBlock [0x00, 0x00, 0x01] 3).Ready .brc ∧ (decBlock [0x00, 0x00, 0x01] 2).Ready .brc ∧
    3 ≤ (decBlock [0x00, 0x00, 0x01] 3).ibufBytes ∧
    report (exec (.encode 3) (decBlock [0x00, 0x00, 0x01] 3)) = good 0x03 [0x30, 0x30, 0x31] ∧
    report (exec (.encode 3) (decBlock [0x00, 0x00, 0x01] 2)) = bad 0x903 0 :=
  ⟨ready_of (by decide), ready_of (by decide), by decide, by decide, by decide⟩

/-! ### Witnesses: DECODE -/

/-- Configuration HL: HEX, lenient. -/
def lenientBlock (input : List Byte) (capObuf : Word) : State := configured (block 16 0x08 0 hex input 64 capObuf)

/-- "MZXQ====". -/
def padText : List Byte := [0x4D, 0x5A, 0x58, 0x51, 0x3D, 0x3D, 0x3D, 0x3D]

/-- The text of V-P17 into an output buffer of exactly its 2 bytes and into one of 1; a text of pads only (d = 0) under PN;
and trailing bits dropped under HL (V-H15). -/
theorem witness_DecodeBpcWritesBytes :
    (padBlock padText 2).Ready .bpc ∧ (padBlock padText 1).Ready .bpc ∧
    (padBlock padText 2).Spells ((padBlock padText 2).input 4) [12, 25, 23, 16] ∧
    (∀ i, 4 ≤ i → i < 4 + 4 → (padBlock padText 2).IsPad ((padBlock padText 2).ibufAt i)) ∧
    4 = padsAfter (padBlock padText 2).status.bits.toNat 4 ∧
    (∀ t, 8 * 2 ≤ t → t < 4 * 5 → valueBit 5 [12, 25, 23, 16] t = false) ∧
    report (exec (.decode (4 + 4)) (padBlock padText 2)) = good 0x15 [0x66, 0x6F] ∧
    report (exec (.decode (4 + 4)) (padBlock padText 1)) = bad 0x915 0 := by
  have hr : (padBlock padText 2).Ready .bpc := ready_of (by decide)
  exact ⟨hr, ready_of (by decide), hr.spells_iff.2 (by decide), by unfold State.IsPad; decide, by decide, by decide,
    by decide, by decide⟩

theorem witness_DecodeBpcWritesBytes_no_data :
    let s := configured (block 32 0x01 0x3D b32 [0x3D, 0x3D] 64 512)
    s.Ready .bpc ∧ s.Spells (s.input 0) [] ∧ (∀ i, 0 ≤ i → i < 0 + 2 → s.IsPad (s.ibufAt i)) ∧
    cfgPadStrict s.cfg = false := by
  have hr : (configured (block 32 0x01 0x3D b32 [0x3D, 0x3D] 64 512)).Ready .bpc := ready_of (by decide)
  exact ⟨hr, hr.spells_iff.2 (by decide), by unfold State.IsPad; decide, by decide⟩

theorem witness_DecodeBpcWritesBytes_lenient :
    let s := lenientBlock [0x64, 0x65, 0x61] 512
    s.Ready .bpc ∧ s.Spells (s.input 3) [13, 14, 10] ∧ cfgPadEn s.cfg = false ∧ cfgLenient s.cfg = true := by
  have hr : (lenientBlock [0x64, 0x65, 0x61] 512).Ready .bpc := ready_of (by decide)
  exact ⟨hr, hr.spells_iff.2 (by decide), by decide, by decide⟩

/-- V-P4: two data symbols and five pads; and V-P10, pads only. -/
theorem witness_DecodeBpcRejectsWrongPadCount :
    let s := padBlock [0x37, 0x34, 0x3D, 0x3D, 0x3D, 0x3D, 0x3D] 512
    let s' := padBlock [0x3D, 0x3D, 0x3D, 0x3D] 512
    s.Ready .bpc ∧ 2 + 5 ≤ s.ibufBytes ∧ cfgPadEn s.cfg = true ∧ cfgPadStrict s.cfg = true ∧
    (∀ i, 2 ≤ i → i < 2 + 5 → s.IsPad (s.ibufAt i)) ∧ ¬ s.IsPad (s.ibufAt (2 - 1)) ∧
    5 ≠ padsAfter s.status.bits.toNat 2 ∧
    s'.Ready .bpc ∧ (∀ i, 0 ≤ i → i < 0 + 4 → s'.IsPad (s'.ibufAt i)) ∧ 4 ≠ padsAfter s'.status.bits.toNat 0 :=
  ⟨ready_of (by decide), by decide, by decide, by decide, by unfold State.IsPad; decide, by unfold State.IsPad; decide,
    by decide, ready_of (by decide), by unfold State.IsPad; decide, by decide⟩

/-- V-P6: a pad symbol at data index 1, after a symbol at 0; and V-P7: an unknown code there. -/
theorem witness_DecodeBpcRejectsLeftmostBadSymbol :
    let s := padBlock [0x37, 0x3D, 0x34, 0x3D, 0x3D, 0x3D, 0x3D, 0x3D] 512
    let s' := padBlock [0x37, 0x24, 0x3D, 0x3D, 0x3D, 0x3D, 0x3D, 0x3D] 512
    (s.Ready .bpc ∧ 3 + 5 ≤ s.ibufBytes ∧ (∀ j, 3 ≤ j → j < 3 + 5 → s.IsPad (s.ibufAt j)) ∧
      ¬ s.IsPad (s.ibufAt (3 - 1)) ∧ 5 = padsAfter s.status.bits.toNat 3 ∧ 1 < 3 ∧ s.IsSymbol (s.ibufAt 0) 31 ∧
      s.IsPad (s.ibufAt 1)) ∧
    (s'.Ready .bpc ∧ (∀ j, 2 ≤ j → j < 2 + 6 → s'.IsPad (s'.ibufAt j)) ∧ ¬ s'.IsPad (s'.ibufAt (2 - 1)) ∧
      6 = padsAfter s'.status.bits.toNat 2 ∧ s'.IsSymbol (s'.ibufAt 0) 31 ∧ ¬ ∃ v, s'.IsSymbol (s'.ibufAt 1) v) := by
  have h : (padBlock [0x37, 0x3D, 0x34, 0x3D, 0x3D, 0x3D, 0x3D, 0x3D] 512).Ready .bpc := ready_of (by decide)
  have h' : (padBlock [0x37, 0x24, 0x3D, 0x3D, 0x3D, 0x3D, 0x3D, 0x3D] 512).Ready .bpc := ready_of (by decide)
  refine ⟨⟨h, by decide, by unfold State.IsPad; decide, by unfold State.IsPad; decide, by decide, by decide,
    h.cls_eq_data.1 (by decide), by unfold State.IsPad; decide⟩,
    h', by unfold State.IsPad; decide, by unfold State.IsPad; decide, by decide, h'.cls_eq_data.1 (by decide), ?_⟩
  rintro ⟨v, hv⟩
  exact absurd ((h'.cls_eq_data.2 hv).symm.trans (show _ = SymClass.invalid by decide)) (by simp)

/-- V-P3: "75======", bit 9 of its stream is set. -/
theorem witness_DecodeBpcRejectsTrailingBits :
    let s := padBlock [0x37, 0x35, 0x3D, 0x3D, 0x3D, 0x3D, 0x3D, 0x3D] 512
    s.Ready .bpc ∧ 2 + 6 ≤ s.ibufBytes ∧ s.Spells (s.input 2) [31, 29] ∧
    (∀ i, 2 ≤ i → i < 2 + 6 → s.IsPad (s.ibufAt i)) ∧ 6 = padsAfter s.status.bits.toNat 2 ∧ cfgLenient s.cfg = false ∧
    8 * (2 * s.status.bits.toNat / 8) ≤ 9 ∧ 9 < 2 * s.status.bits.toNat ∧
    valueBit s.status.bits.toNat [31, 29] 9 = true := by
  have h : (padBlock [0x37, 0x35, 0x3D, 0x3D, 0x3D, 0x3D, 0x3D, 0x3D] 512).Ready .bpc := ready_of (by decide)
  exact ⟨h, by decide, h.spells_iff.2 (by decide), by unfold State.IsPad; decide, by decide, by decide, by decide,
    by decide, by decide⟩

/-- V-D7 into an output buffer of exactly its 4 bytes and into one of 3. -/
theorem witness_DecodeBrcWritesBytes :
    let s := decBlock [0x30, 0x30, 0x32, 0x35, 0x36] 4
    s.Ready .brc ∧ 5 ≤ s.ibufBytes ∧ s.Spells (s.input 5) [0, 0, 2, 5, 6] ∧
    (decBlock [0x30, 0x30, 0x32, 0x35, 0x36] 3).Ready .brc ∧
    report (exec (.decode 5) s) = good 0x03 [0x00, 0x00, 0x01, 0x00] ∧
    report (exec (.decode 5) (decBlock [0x30, 0x30, 0x32, 0x35, 0x36] 3)) = bad 0x903 0 := by
  have h : (decBlock [0x30, 0x30, 0x32, 0x35, 0x36] 4).Ready .brc := ready_of (by decide)
  exact ⟨h, by decide, h.spells_iff.2 (by decide), ready_of (by decide), by decide, by decide⟩

/-- V-D6: "12a". -/
theorem witness_DecodeBrcRejectsLeftmostUnknown :
    let s := decBlock [0x31, 0x32, 0x61] 512
    s.Ready .brc ∧ 3 ≤ s.ibufBytes ∧ 2 < 3 ∧ (∀ j < 2, ∃ v, s.IsSymbol (s.ibufAt j) v) ∧
    ¬ ∃ v, s.IsSymbol (s.ibufAt 2) v := by
  have h : (decBlock [0x31, 0x32, 0x61] 512).Ready .brc := ready_of (by decide)
  refine ⟨h, by decide, by decide, fun j hj => ⟨j + 1, ?_⟩, ?_⟩
  · interval_cases j <;> exact h.cls_eq_data.1 (by decide)
  · rintro ⟨v, hv⟩
    exact absurd ((h.cls_eq_data.2 hv).symm.trans (show _ = SymClass.invalid by decide)) (by simp)

/-! ### Witnesses: laws of the units and datapaths -/

theorem witness_EmptyInputGivesEmptyOutput :
    (hexBlock [] 512).Ready .bpc ∧ (decBlock [] 512).Ready .brc ∧
    (Instr.encode 0 = .encode 0 ∨ Instr.encode 0 = .decode 0) ∧ (Instr.decode 0 = .encode 0 ∨ Instr.decode 0 = .decode 0) :=
  ⟨ready_of (by decide), ready_of (by decide), .inl rfl, .inr rfl⟩

/-- A ready BPC block with padding; the hypothesis of every law of the BPC unit and of its datapaths. -/
theorem witness_BpcRoundTrip : (padBlock [] 512).Ready .bpc ∧ (hexBlock [] 512).Ready .bpc :=
  ⟨ready_of (by decide), ready_of (by decide)⟩
theorem witness_SerialPackComputesBpEncode : (padBlock [] 512).Ready .bpc := witness_BpcRoundTrip.1
theorem witness_PackLanesComputeBpEncode : (padBlock [] 512).Ready .bpc := witness_BpcRoundTrip.1
theorem witness_SerialUnpackComputesBpDecode : (padBlock [] 512).Ready .bpc := witness_BpcRoundTrip.1
theorem witness_UnpackLanesComputeBpDecode : (padBlock [] 512).Ready .bpc := witness_BpcRoundTrip.1

/-- A ready BRC block; the hypothesis of every law of the BRC unit and of its datapaths. -/
theorem witness_BrcRoundTrip : (decBlock [] 512).Ready .brc := ready_of (by decide)
theorem witness_DividerComputesBrEncode : (decBlock [] 512).Ready .brc := witness_BrcRoundTrip
theorem witness_MultiplierComputesBrDecode : (decBlock [] 512).Ready .brc := witness_BrcRoundTrip

/-- "00256" spells its own digits. -/
theorem witness_BrcTextsAreCanonical :
    (decBlock [] 512).Ready .brc ∧ (decBlock [] 512).Spells [0x30, 0x30, 0x32, 0x35, 0x36] [0, 0, 2, 5, 6] :=
  ⟨witness_BrcRoundTrip, witness_BrcRoundTrip.spells_iff.2 (by decide)⟩

/-- V-H1 and V-H2 in a row, in a block that meets the invariant. -/
theorem witness_CommandsRoundTrip :
    let s := hexBlock [0xDE, 0xAD] 512
    s.Inv ∧ s.status.cfgValid = true ∧
    ∃ t, exec (.encode 2) s = .next t ∧ t.status.err = .noError ∧ t.olen.toNat ≤ t.ibufBytes ∧ 2 ≤ t.obufBytes ∧
      ∀ i < t.olen.toNat, Memory.find (Memory.ofBytes 0 [0x64, 0x65, 0x61, 0x64]) i = Memory.find t.obuf i := by
  refine ⟨inv_of (m := .bpc) (by decide) (by decide), by decide, ?_⟩
  obtain ⟨t, ht⟩ := next_of (o := exec (.encode 2) (hexBlock [0xDE, 0xAD] 512)) (by decide)
  have h : nextState (exec (.encode 2) (hexBlock [0xDE, 0xAD] 512)) = some t := by rw [ht]; rfl
  have hc : (nextState (exec (.encode 2) (hexBlock [0xDE, 0xAD] 512))).all (fun t =>
      decide (t.status.err = .noError) && decide (t.olen.toNat ≤ t.ibufBytes) && decide (2 ≤ t.obufBytes) &&
      decide (∀ i < t.olen.toNat, Memory.find (Memory.ofBytes 0 [0x64, 0x65, 0x61, 0x64]) i = Memory.find t.obuf i))
      = true := by decide
  rw [h] at hc
  simp only [Option.all_some, Bool.and_eq_true, decide_eq_true_eq] at hc
  exact ⟨t, ht, hc.1.1.1, hc.1.1.2, hc.1.2, hc.2⟩

theorem witness_LeadingZerosArePreserved :
    (decBlock [] 512).Ready .brc ∧ (decBlock [] 512).brDecode [0x32, 0x35, 0x36] = .ok [0x01, 0x00] :=
  ⟨witness_BrcRoundTrip, by decide⟩

/-- HEX configured for each unit: `CODEC` AUTO (V-C4) and BIGRADIX (V-C19). -/
theorem witness_UnitsDifferOnRadixSixteen :
    let s := hexBlock [] 512
    let s' := configured (block 16 0x20 0 hex [] 64 512)
    s.Ready .bpc ∧ s'.Ready .brc ∧ s.radix = 16 ∧ s'.radix = 16 :=
  ⟨ready_of (by decide), ready_of (by decide), by decide, by decide⟩

/-- Input of 1 byte and 8 of output; text of 8 codes and 8 of output; and capacities 8 times apart. -/
theorem witness_OverflowNeedsSmallBuffer :
    let s := hexBlock (List.replicate 8 0x30) 8
    s.Inv ∧ (∃ t, exec (.encode 1) s = .next t) ∧ 8 * 1 ≤ s.obufBytes ∧ (∃ t, exec (.decode 8) s = .next t) ∧
    8 ≤ s.obufBytes ∧ 8 * (hexBlock [] 512).ibufBytes ≤ (hexBlock [] 512).obufBytes :=
  ⟨inv_of (m := .bpc) (by decide) (by decide), next_of (by decide), by decide, next_of (by decide), by decide, by decide⟩

theorem witness_BrcIgnoresPaddingPolicy :
    (decBlock [] 512).status.mode = .brc ∧ cfgCaseIns 0x0B#6 = cfgCaseIns (decBlock [] 512).cfg := by decide

theorem witness_CaseNormalisation :
    cfgPadEn 0x0E#6 = cfgPadEn (hexBlock [] 512).cfg ∧ cfgCaseIns (block 16 0x04 0 hex [] 64 512).cfg = true ∧
    [0x44#8, 0x45#8].map fold = [0x64#8, 0x65#8].map fold := by decide

/-- Where b divides 8 the strict policy (R137, R146; spec/90_conflicts.md C7) takes "de0" and no pad at all: "0=" fails at
1. Under PN (V-P27) any pads; and one base-32 symbol of value 0 with its seven pads (V-P11). -/
theorem witness_NonCanonicalTextsDecode :
    let s := configured (block 16 0x03 0x3D hex [0x64, 0x65, 0x30] 64 512)
    let s' := configured (block 16 0x03 0x3D hex [0x30, 0x3D] 64 512)
    s.Ready .bpc ∧ s.radix = 16 ∧ 8 % s.status.bits.toNat = 0 ∧ cfgPadEn s.cfg = true ∧ cfgPadStrict s.cfg = true ∧
    report (exec (.decode 3) s) = good 0x11 [0xDE] ∧ report (exec (.decode 2) s') = bad 0x411 1 ∧
    (configured (block 32 0x01 0x3D b32 [] 64 512)).Ready .bpc ∧ cfgPadStrict 0x01#6 = false ∧ cfgPadEn 0x01#6 = true ∧
    (padBlock [] 512).Ready .bpc ∧ (padBlock [] 512).radix = 32 :=
  ⟨ready_of (by decide), by decide, by decide, by decide, by decide, by decide, by decide, ready_of (by decide),
    by decide, by decide, ready_of (by decide), by decide⟩

/-! ### Witnesses: host accesses -/

/-- A block whose host's next operation is this one. -/
def facing (op : HostOp) (s : State) : State := { s with host := [op] }

/-- The last entry of `SYM`, the value the entry already holds included. -/
theorem witness_ConfigurationWriteUnconfigures :
    (facing (.regWrite 0x00 16) (hexBlock [] 512)).host = [.regWrite 0x00 16] ∧
    (facing (.byteWrite .sym 255 0x41) (hexBlock [] 512)).host = [.byteWrite .sym 255 0x41] ∧ 255 < 256 := by decide

/-- CONFIGURE through the register and through the flat map. -/
theorem witness_OnlyConfigureConfigures :
    (nextState (step (facing (.regWrite 0x10 1) (block 16 0 0 hex [] 64 512)))).map (fun t => t.status.cfgValid) = some true ∧
    (nextState (step (facing (.busWrite 0x10 (.word 1)) (block 16 0 0 hex [] 64 512)))).map (fun t => t.status.cfgValid)
      = some true ∧ (block 16 0 0 hex [] 64 512).status.cfgValid = false := by decide

/-- A write beside `CMD` on either side of it. -/
theorem witness_ResultsLastUntilNextCommand :
    (∃ t, step (facing (.regWrite 0x0C 5) (hexBlock [] 512)) = .next t) ∧
    (∃ t, step (facing (.regWrite 0x14 5) (hexBlock [] 512)) = .next t) ∧
    (∀ w, (facing (.regWrite 0x0C 5) (hexBlock [] 512)).host ≠ [.regWrite 0x10 w]) :=
  ⟨next_of (by decide), next_of (by decide), by intro w h; simp [facing] at h⟩

/-- The first and last offsets of each range, and V-H3's `ERRPOS` as the host reads it. -/
theorem witness_RegisterFileReadsAndWrites :
    (∀ off ∈ [0x14, 0xFC], 0x14 ≤ off ∧ off ≤ 0xFC ∧ off % 4 = 0) ∧
    (∀ off ∈ [0x10, 0x28, 0xFC], off = 0x10 ∨ 0x28 ≤ off ∧ off ≤ 0xFC ∧ off % 4 = 0) ∧
    (nextState (step (facing (.regWrite 0xFC 7) (hexBlock [] 512)))).isSome = true ∧
    (nextState (step (facing (.regRead 0x1C) { hexBlock [] 512 with olen := 5, errpos := 7 }))).map (fun t => t.reply) =
      some (.word 7) := by decide

/-- The last accepted and the first refused access of each kind. -/
theorem witness_AccessesRefusedExactly :
    refusal (step (facing (.regRead 0xFC) (hexBlock [] 512))) = none ∧
    refusal (step (facing (.regRead 0x100) (hexBlock [] 512))) = some (.outOfRange 0x100) ∧
    refusal (step (facing (.regRead 0x02) (hexBlock [] 512))) = some (.misalignedReg 2) ∧
    refusal (step (facing (.regWrite 0xFC 0) (hexBlock [] 512))) = none ∧
    refusal (step (facing (.regWrite 0x11 0) (hexBlock [] 512))) = some (.misalignedReg 0x11) ∧
    refusal (step (facing (.byteRead .sym 255) (hexBlock [] 512))) = none ∧
    refusal (step (facing (.byteRead .sym 256) (hexBlock [] 512))) = some (.outOfRange 256) ∧
    refusal (step (facing (.byteWrite .ibuf 63 0) (hexBlock [] 512))) = none ∧
    refusal (step (facing (.byteWrite .ibuf 64 0) (hexBlock [] 512))) = some (.outOfRange 64) ∧
    refusal (step (facing (.byteWrite .obuf 511 0) (hexBlock [] 512))) = none ∧
    refusal (step (facing (.byteWrite .obuf 512 0) (hexBlock [] 512))) = some (.outOfRange 512) := by decide

/-- A read of an `OBUF` entry that holds no byte, and one of a known `SYM` entry. -/
theorem witness_HostReadsChangeNothing :
    (∃ t, step (facing (.regRead 0x14) (hexBlock [] 512)) = .next t) ∧
    (nextState (step (facing (.byteRead .obuf 0) (hexBlock [] 512)))).map (fun t => t.draws) = some 1 ∧
    (nextState (step (facing (.byteRead .sym 15) (hexBlock [] 512)))).map (fun t => (t.draws, t.reply)) =
      some (0, .byte 0x66) :=
  ⟨next_of (by decide), by decide, by decide⟩

theorem witness_ByteWriteStoresOneByte :
    (facing (.byteWrite .sym 255 1) (hexBlock [] 512)).host = [.byteWrite .sym 255 1] ∧
    255 < (hexBlock [] 512).spaceSize .sym ∧ 63 < (hexBlock [] 512).spaceSize .ibuf ∧
    511 < (hexBlock [] 512).spaceSize .obuf := by decide

/-- A write to the neighbouring entry, and one through the flat map. -/
theorem witness_BytesHeldUntilWritten :
    (∃ t, step (facing (.byteWrite .ibuf 1 0x41) (hexBlock [] 512)) = .next t) ∧
    (∃ t, step (facing (.busWrite 0x10000001 (.byte 0x41)) (hexBlock [] 512)) = .next t) ∧
    (∀ v, (facing (.byteWrite .ibuf 1 0x41) (hexBlock [] 512)).host ≠ [.byteWrite .ibuf 0 v]) ∧
    (hexBlock [] 512).flatTarget 0x10000001 ≠ some (.entry .ibuf 0) :=
  ⟨next_of (by decide), next_of (by decide), by intro v h; simp [facing] at h, by decide⟩

/-- Both ends of every window of the map, and the addresses next to them (`IBUF_BYTES` = 64, `OBUF_BYTES` = 512). -/
theorem witness_FlatMapReachesTheSpaces :
    (hexBlock [] 512).Inv ∧
    [0x0#32, 0xFF#32, 0x100#32, 0x1FF#32, 0x200#32, 0x0FFFFFFF#32, 0x10000000#32, 0x1000003F#32, 0x10000040#32,
      0x1FFFFFFF#32, 0x20000000#32, 0x200001FF#32, 0x20000200#32, 0xFFFFFFFF#32].map (hexBlock [] 512).flatTarget =
    [some (.reg 0), some (.reg 0xFF), some (.entry .sym 0), some (.entry .sym 255), none, none, some (.entry .ibuf 0),
      some (.entry .ibuf 63), none, none, some (.entry .obuf 0), some (.entry .obuf 511), none, none] :=
  ⟨inv_of (m := .bpc) (by decide) (by decide), by decide⟩

/-! ### Witnesses: reset and the invariant -/

theorem witness_ResetClearsRegisters :
    (facing .reset (hexBlock [] 512)).host = .reset :: [] ∧
    (facing (.resetDuring 0x00000402) (hexBlock [] 512)).host = .resetDuring 0x00000402 :: [] := by decide

/-- A step that runs ENCODE on a configured block that meets the invariant. -/
theorem witness_StepKeepsInvariant :
    ((hexBlock [0xDE] 512).withFetchWord 32 0x00000102).Inv ∧
    ∃ t, step ((hexBlock [0xDE] 512).withFetchWord 32 0x00000102) = .next t :=
  ⟨inv_of (m := .bpc) (by decide) (by decide), next_of (by decide)⟩

end Sys2Proof.Tests
end

section
/-! SUPPORT. What one step can do (spec/20_memory.md R61 to R69, spec/70_reset_and_hazards.md R220): one inversion lemma over
all host operations, and the frame of the commands. Every statement about all steps is a case split over these. -/

namespace Sys2Proof.Machine

/-! ### The commands -/

/-- ENCODE changes nothing but the result, however it ends (R108). -/
theorem sameButResult_execEncode {n : Nat} {s t : State} (h : execEncode n s = .next t) : s.SameButResult t := by
  rcases execEncode_cases n s with ⟨-, he⟩ | ⟨-, -, he⟩ | ⟨-, -, he⟩ <;> obtain rfl := next_inj (he.symm.trans h)
  · exact s.sameButResult_raiseErr _ _
  · exact s.sameButResult_raiseErr _ _
  · exact s.sameButResult_deliver _

/-- DECODE changes nothing but the result, however it ends (R109). -/
theorem sameButResult_execDecode {n : Nat} {s t : State} (h : execDecode n s = .next t) : s.SameButResult t := by
  rcases execDecode_cases n s with ⟨-, he⟩ | ⟨-, -, he⟩ | ⟨-, -, e, -, he⟩ | ⟨-, -, y, -, he⟩ <;>
    obtain rfl := next_inj (he.symm.trans h)
  · exact s.sameButResult_raiseErr _ _
  · exact s.sameButResult_raiseErr _ _
  · exact s.sameButResult_failed _ _
  · exact s.sameButResult_deliver _

/-- The two codec commands change nothing but the result. -/
theorem exec_sameButResult {i : Instr} {s t : State} (h : exec i s = .next t) (hcfg : i ≠ .configure)
    (hclr : i ≠ .clear) : s.SameButResult t := by
  cases i with
  | configure => exact absurd rfl hcfg
  | encode n => exact sameButResult_execEncode h
  | decode n => exact sameButResult_execDecode h
  | clear => exact absurd rfl hclr

/-- Of the commands only CONFIGURE sets `CFG_VALID` (R27). -/
theorem exec_sets_cfgValid {i : Instr} {s t : State} (h : exec i s = .next t) (hs : s.status.cfgValid = false)
    (ht : t.status.cfgValid = true) : i = .configure := by
  cases i with
  | configure => rfl
  | encode n | decode n =>
    obtain ⟨-, -, -, -, -, -, hv, -⟩ := exec_sameButResult h nofun nofun
    simp [hv, hs] at ht
  | clear =>
    obtain rfl := next_inj ((execClear_eq s).symm.trans h)
    simp at ht

/-- The one word of CONFIGURE (R84). -/
theorem decodeWord_eq_configure {w : Word} (h : decodeWord w = .ok .configure) : w = 1#32 := by
  rcases decodeWord_cases w with ⟨ho, hi, -⟩ | ⟨-, hw⟩ | ⟨-, hw⟩ | ⟨-, -, hw⟩ | ⟨-, -, -, -, e, hw⟩
  · have hlow := opcodeField_toNat w
    have hhigh := operandField_toNat w
    rw [ho, BitVec.toNat_ofNat] at hlow
    apply BitVec.eq_of_toNat_eq
    rw [BitVec.toNat_ofNat]
    omega
  all_goals rw [hw] at h; cases h

/-! ### The host operations -/

/-- What a host operation that goes on does to the block. -/
inductive HostEffect (s : State) : HostOp → State → Prop where
  /-- A read, or a write that is ignored. -/
  | nothing (op : HostOp) (r : Reply) (d : Nat) : HostEffect s op { s with reply := r, draws := d }
  /-- The issue of a command word. -/
  | command (op : HostOp) (w : Word) (u : State) (hop : op = .regWrite 0x10 w ∨ op = .busWrite 0x10#32 (.word w))
      (hu : issue w s = .next u) : HostEffect s op (u.withReply .ack)
  /-- A write to one register other than `CMD`. -/
  | register (op : HostOp) (r : RegName) (w : Word) (hr : r ≠ .cmd) : HostEffect s op ((s.writeReg r w).withReply .ack)
  /-- A write to one entry of a byte-wide space. -/
  | entry (op : HostOp) (sp : Space) (i : Nat) (b : Byte) (hi : i < s.spaceSize sp)
      (hop : op = .byteWrite sp i b ∨ ∃ a, op = .busWrite a (.byte b) ∧ s.flatTarget a = some (.entry sp i)) :
      HostEffect s op ((s.writeByte sp i b).withReply .ack)
  /-- The reset event. -/
  | reset (op : HostOp) (hop : op = .reset ∨ ∃ w, op = .resetDuring w) : HostEffect s op s.afterReset

/-- A `RegRead` has no effect. -/
theorem hostEffect_regRead {s t : State} {off : Nat} (op : HostOp) (h : hostRegRead off s = .next t) :
    HostEffect s op t := by
  rw [hostRegRead_next h]
  exact .nothing op t.reply s.draws

/-- The effect of a `RegWrite`, by whichever operation it is reached. -/
theorem hostEffect_regWrite {s t : State} {off : Nat} {w : Word} {op : HostOp}
    (hop : off = 0x10 → op = .regWrite 0x10 w ∨ op = .busWrite 0x10#32 (.word w))
    (h : hostRegWrite off w s = .next t) : HostEffect s op t := by
  rcases hostRegWrite_next h with ⟨hoff, u, hu, rfl⟩ | ⟨r, hr, -, rfl⟩ | ⟨-, rfl⟩
  · exact .command op w u (hop hoff) hu
  · exact .register op r w hr
  · exact .nothing op .ack s.draws

/-- A `ByteRead` has no effect but on the model's count of draws. -/
theorem hostEffect_byteRead {s t : State} {sp : Space} {i : Nat} (op : HostOp) (h : hostByteRead sp i s = .next t) :
    HostEffect s op t := by
  obtain ⟨-, ht, -⟩ := hostByteRead_next h
  rw [ht]
  exact .nothing op _ _

/-- The effect of a `ByteWrite`, by whichever operation it is reached. -/
theorem hostEffect_byteWrite {s t : State} {sp : Space} {i : Nat} {b : Byte} {op : HostOp}
    (hop : op = .byteWrite sp i b ∨ ∃ a, op = .busWrite a (.byte b) ∧ s.flatTarget a = some (.entry sp i))
    (h : hostByteWrite sp i b s = .next t) : HostEffect s op t := by
  obtain ⟨hi, rfl⟩ := hostByteWrite_next h
  exact .entry op sp i b hi hop

/-- Everything a host operation that goes on can do. -/
theorem hostStep_effect {op : HostOp} {s t : State} (h : hostStep op s = .next t) : HostEffect s op t := by
  cases op with
  | regRead off => exact hostEffect_regRead _ h
  | regWrite off w => exact hostEffect_regWrite (fun hoff => .inl (by rw [hoff])) h
  | byteRead sp i => exact hostEffect_byteRead _ h
  | byteWrite sp i b => exact hostEffect_byteWrite (.inl rfl) h
  | busRead a wd =>
    rcases hostBusRead_next h with ⟨off, -, -, hr⟩ | ⟨sp, i, -, -, hr⟩
    · exact hostEffect_regRead _ hr
    · exact hostEffect_byteRead _ hr
  | busWrite a d =>
    rcases hostBusWrite_next h with ⟨off, w, hf, rfl, hw⟩ | ⟨sp, i, b, hf, rfl, hw⟩
    · refine hostEffect_regWrite (fun hoff => .inr ?_) hw
      have ha : a = 0x10#32 := BitVec.eq_of_toNat_eq ((State.flatTarget_reg hf).1.trans hoff)
      rw [ha]
    · exact hostEffect_byteWrite (.inr ⟨a, rfl, hf⟩) hw
  | reset => cases next_inj h; exact .reset _ (.inl rfl)
  | resetDuring w => cases next_inj h; exact .reset _ (.inr ⟨w, rfl⟩)

/-! ### The step -/

/-- A step with an operation to come performs it (R69). -/
theorem step_cons {s : State} {op : HostOp} {rest : List HostOp} (h : s.host = op :: rest) :
    step s = hostStep op { s with host := rest } := by
  unfold step; rw [h]

/-- Everything a step that goes on can do: nothing (R204), or the effect of the next operation. -/
theorem step_cases {s t : State} (h : step s = .next t) :
    (s.host = [] ∧ t = s) ∨ ∃ op rest, s.host = op :: rest ∧ HostEffect { s with host := rest } op t := by
  cases hh : s.host with
  | nil =>
    unfold step at h; rw [hh] at h
    exact .inl ⟨rfl, (next_inj h).symm⟩
  | cons op rest => exact .inr ⟨op, rest, rfl, hostStep_effect (step_cons hh ▸ h)⟩

end Sys2Proof.Machine
end

section
/-! SUPPORT. The invariant of Safety.lean under each operation of the block, from the pieces of a command's ending up to the
host's operations. -/

namespace Sys2Proof.Machine

/-! ### The two conditions on the registers -/

/-- A dropped configuration meets the condition on `CFG_VALID`, whatever the configuration state (R33). -/
theorem State.configInv_unconfigured {s : State} {st : Status} (h : s.status = st.unconfigured) : s.ConfigInv :=
  ⟨fun hv => by simp [h] at hv, fun _ => by simp [h]⟩

/-- A reported error meets the condition on the result registers: `OLEN` = 0 tells of no byte (R202). -/
theorem State.resultInv_of_olen_eq_zero {s : State} (ho : s.olen = 0)
    (hp : s.status.err ≠ .invalidSymbol → s.status.err ≠ .invalidPadding → s.errpos = 0) : s.ResultInv := by
  refine ⟨fun _ => ho, hp, fun i hi => ?_⟩
  simp [ho] at hi

/-- A success over the bytes it wrote meets the condition on the result registers (R110). -/
theorem State.resultInv_done {s : State} {n : Nat} (h : ∀ i < n, (Memory.find s.obuf i).isSome = true) :
    (s.done n).ResultInv := by
  refine ⟨fun he => absurd rfl he, fun _ _ => rfl, fun i hi => h i ?_⟩
  rw [State.done_olen, BitVec.toNat_ofNat] at hi
  exact hi.trans_le (Nat.mod_le _ _)

theorem State.resultInv_done_zero (s : State) : (s.done 0).ResultInv :=
  State.resultInv_done fun i hi => absurd hi (Nat.not_lt_zero i)

theorem State.resultInv_deliver (s : State) (t : List Byte) : (s.deliver t).ResultInv := by
  rcases s.deliver_cases t with ⟨-, h⟩ | ⟨-, h⟩ <;> rw [h]
  · exact State.resultInv_of_olen_eq_zero rfl fun _ _ => rfl
  · refine State.resultInv_done fun i hi => ?_
    simp [Memory.find_ofBytes_zero, hi]

/-! ### The positions of content errors (R209) -/

/-- A position other than 0 is recorded only with InvalidSymbol and InvalidPadding. -/
def CmdError.PosJustified (e : CmdError) : Prop :=
  e.kind ≠ .invalidSymbol → e.kind ≠ .invalidPadding → e.pos = 0

theorem State.posJustified_mapSymbols {s : State} {text : List Byte} {i : Nat} {e : CmdError}
    (h : s.mapSymbols text i = .error e) : e.PosJustified := by
  induction text generalizing i with
  | nil => cases h
  | cons c cs ih =>
    simp only [State.mapSymbols] at h
    split at h
    · cases h; exact fun _ hp => absurd rfl hp
    · cases h; exact fun hs => absurd rfl hs
    · split at h
      · cases h; exact ih ‹_›
      · cases h

theorem State.posJustified_mapDigits {s : State} {text : List Byte} {i : Nat} {e : CmdError}
    (h : s.mapDigits text i = .error e) : e.PosJustified := by
  induction text generalizing i with
  | nil => cases h
  | cons c cs ih =>
    simp only [State.mapDigits] at h
    split at h
    · split at h
      · cases h; exact ih ‹_›
      · cases h
    · cases h; exact fun hs => absurd rfl hs
    · cases h; exact fun hs => absurd rfl hs

theorem posJustified_unpackValues {b : Nat} {lenient : Bool} {vs : List Nat} {e : CmdError}
    (h : unpackValues b lenient vs = .error e) : e.PosJustified := by
  simp only [unpackValues] at h
  split at h
  · cases h; exact fun _ _ => rfl
  · cases h

/-- A content error of DECODE other than InvalidSymbol and InvalidPadding records position 0 (R209). -/
theorem State.posJustified_decodeText {s : State} {text : List Byte} {e : CmdError}
    (h : s.decodeText text = .error e) : e.PosJustified := by
  unfold State.decodeText at h
  split at h
  · simp only [State.bpDecode] at h
    split at h
    · cases h; exact fun _ hp => absurd rfl hp
    · split at h
      · cases h; exact State.posJustified_mapSymbols ‹_›
      · exact posJustified_unpackValues h
  · unfold State.brDecode at h
    split at h
    · cases h; exact State.posJustified_mapDigits ‹_›
    · cases h

/-! ### The whole invariant: the endings of a command -/

/-- The host's sequence, the last reply and the count of draws are outside the invariant. -/
theorem State.Inv.bookkeeping {s : State} (h : s.Inv) (ops : List HostOp) (r : Reply) (d : Nat) :
    State.Inv { s with host := ops, reply := r, draws := d } := h

/-- Dropping the configuration asks nothing of the configuration that is dropped (R33). -/
theorem State.inv_dropConfig {s : State} (hm : s.MemoryInv) (hc : s.CapacityInv) (hr : s.ResultInv) : s.dropConfig.Inv :=
  ⟨hm, hc, State.configInv_unconfigured rfl, hr⟩

theorem State.Inv.raiseErr {s : State} (h : s.Inv) {e : ErrCode} {pos : Nat} (hp : CmdError.PosJustified ⟨e, pos⟩) :
    (s.raiseErr e pos).Inv := by
  obtain ⟨hm, hc, hcfg, -⟩ := h
  refine ⟨hm, hc, hcfg, State.resultInv_of_olen_eq_zero rfl fun h1 h2 => ?_⟩
  rw [State.raiseErr_errpos, show pos = 0 from hp h1 h2]
  rfl

/-- A failed command leaves no known byte in `OBUF` and else reports like any error (R40). -/
theorem State.Inv.failed {s : State} (h : s.Inv) {e : CmdError} (hp : e.PosJustified) : (s.failed e.kind e.pos).Inv := by
  obtain ⟨⟨hs, hi, -, hs', hi', -⟩, hc, hcfg, -, hpos, -⟩ := State.Inv.raiseErr h hp
  exact ⟨⟨hs, hi, .nil, hs', hi', by intro c hc; cases hc⟩, hc, hcfg,
    State.resultInv_of_olen_eq_zero rfl hpos⟩

theorem State.Inv.deliver {s : State} (h : s.Inv) (t : List Byte) : (s.deliver t).Inv := by
  obtain ⟨hm, hc, hcfg, -⟩ := h
  refine ⟨State.memoryInv_deliver hm t, ?_, ?_, s.resultInv_deliver t⟩ <;>
    rcases s.deliver_cases t with ⟨-, hd⟩ | ⟨-, hd⟩ <;> rw [hd] <;> assumption

/-! ### The whole invariant: the commands -/

theorem State.Inv.configure {s t : State} (h : s.Inv) (ht : execConfigure s = .next t) : t.Inv := by
  obtain ⟨hm, hc, -, hr⟩ := h
  rcases execConfigure_cases s with ⟨e, -, hx⟩ | ⟨c, hok, hx⟩ <;> obtain rfl := next_inj (hx.symm.trans ht)
  · exact (State.inv_dropConfig hm hc hr).raiseErr fun _ _ => rfl
  · exact ⟨hm, hc, ⟨fun _ => hok, fun hv => by simp at hv⟩, s.resultInv_done_zero⟩

theorem State.Inv.encode {s t : State} {n : Nat} (h : s.Inv) (ht : execEncode n s = .next t) : t.Inv := by
  rcases execEncode_cases n s with ⟨-, hx⟩ | ⟨-, -, hx⟩ | ⟨-, -, hx⟩ <;> obtain rfl := next_inj (hx.symm.trans ht)
  · exact h.raiseErr fun _ _ => rfl
  · exact h.raiseErr fun _ _ => rfl
  · exact h.deliver _

theorem State.Inv.decode {s t : State} {n : Nat} (h : s.Inv) (ht : execDecode n s = .next t) : t.Inv := by
  rcases execDecode_cases n s with ⟨-, hx⟩ | ⟨-, -, hx⟩ | ⟨-, -, e, he, hx⟩ | ⟨-, -, y, -, hx⟩ <;>
    obtain rfl := next_inj (hx.symm.trans ht)
  · exact h.raiseErr fun _ _ => rfl
  · exact h.raiseErr fun _ _ => rfl
  · exact h.failed (State.posJustified_decodeText he)
  · exact h.deliver _

theorem State.Inv.clear {s t : State} (h : s.Inv) (ht : execClear s = .next t) : t.Inv := by
  obtain rfl := next_inj ((execClear_eq s).symm.trans ht)
  obtain ⟨hm, hc, -, -⟩ := h
  exact ⟨hm, hc, State.configInv_unconfigured (st := s.status.withErr .noError) rfl, s.resultInv_done_zero⟩

/-- Every command keeps the invariant. -/
theorem State.Inv.exec {s t : State} {i : Instr} (h : s.Inv) (ht : exec i s = .next t) : t.Inv := by
  cases i with
  | configure => exact h.configure ht
  | encode n => exact h.encode ht
  | decode n => exact h.decode ht
  | clear => exact h.clear ht

/-- So does every word written to `CMD`, the illegal ones among them. -/
theorem State.Inv.issue {s t : State} {w : Word} (h : s.Inv) (ht : issue w s = .next t) : t.Inv := by
  rcases issue_cases w s with ⟨i, -, hx⟩ | ⟨e, -, hx⟩
  · exact h.exec (hx.symm.trans ht)
  · obtain rfl := next_inj (hx.symm.trans ht)
    exact h.raiseErr fun _ _ => rfl

/-! ### The whole invariant: the host's writes and the reset event -/

/-- A register write keeps the invariant: it drops the configuration or is ignored (R33). -/
theorem State.Inv.writeReg {s : State} (h : s.Inv) (r : RegName) (w : Word) : (s.writeReg r w).Inv := by
  obtain ⟨hm, hc, -, hr⟩ := id h
  cases r with
  | radix | alen | cfg | padsym => exact State.inv_dropConfig hm hc hr
  | cmd | status | olen | errpos | capIbuf | capObuf => exact h

/-- A byte write keeps the invariant: one to `SYM` drops the configuration, and one to `IBUF` touches nothing that the
configuration or the result speaks of (R33, R68). -/
theorem State.Inv.writeByte {s : State} (h : s.Inv) {sp : Space} {i : Nat} (hi : i < s.spaceSize sp) (b : Byte) :
    (s.writeByte sp i b).Inv := by
  obtain ⟨hm, hc, hcfg, hr⟩ := id h
  have hm' := State.memoryInv_writeByte hm hi b
  cases sp with
  | sym => exact State.inv_dropConfig (s := { s with sym := Memory.store s.sym i b }) hm' hc hr
  | ibuf => exact ⟨hm', hc, hcfg, hr⟩
  | obuf => exact h

theorem State.memoryInv_afterReset (s : State) : s.afterReset.MemoryInv := by
  refine ⟨.nil, .nil, .nil, ?_, ?_, ?_⟩ <;> intro c hc <;> cases hc

/-- The reset event keeps the invariant: it keeps the capacities and clears the rest (R43). -/
theorem State.Inv.afterReset {s : State} (h : s.Inv) : s.afterReset.Inv := by
  obtain ⟨-, hc, -, -⟩ := h
  exact ⟨s.memoryInv_afterReset, hc, State.configInv_unconfigured (st := State.reset.status) rfl,
    State.resultInv_of_olen_eq_zero rfl fun _ _ => rfl⟩

/-- Every effect of a host operation keeps the invariant. -/
theorem State.Inv.effect {s t : State} {op : HostOp} (h : s.Inv) (ht : HostEffect s op t) : t.Inv := by
  cases ht with
  | nothing r d => exact h.bookkeeping s.host r d
  | command w u hop hu => exact (h.issue hu).bookkeeping _ _ _
  | register r w hr => exact (h.writeReg r w).bookkeeping _ _ _
  | entry sp i b hi hop => exact (h.writeByte hi b).bookkeeping _ _ _
  | reset hop => exact h.afterReset

end Sys2Proof.Machine
end

section
/-! SUPPORT. The statements about the state: the invariant, the frame of the commands, what configures the block, the register
file and the reset event (spec/10_state.md R20 to R43). -/

namespace Sys2Proof.Machine

/-! ### The invariant -/

/-- Settles O58: a step is idle or one host operation, and each effect a host operation can have keeps the invariant. -/
theorem stepKeepsInvariant : Obligations.StepKeepsInvariant := by
  intro s t h hstep
  rcases step_cases hstep with ⟨-, rfl⟩ | ⟨op, rest, -, heff⟩
  · exact h
  · exact (h.bookkeeping rest s.reply s.draws).effect heff

/-! ### Commands -/

/-- Settles O10, command by command: ENCODE and DECODE by their frame, CONFIGURE and CLEAR by their answers. -/
theorem commandsKeepInputsAndConfiguration : Obligations.CommandsKeepInputsAndConfiguration := by
  intro i s t h
  cases i with
  | configure =>
    rcases execConfigure_cases s with ⟨e, -, hx⟩ | ⟨c, -, hx⟩ <;> obtain rfl := next_inj (hx.symm.trans h) <;>
      exact ⟨fun _ => rfl, fun _ => rfl, rfl, rfl, rfl, rfl, rfl, rfl, fun _ => ⟨rfl, rfl, rfl, rfl⟩⟩
  | encode n | decode n =>
    obtain ⟨hra, hal, hcf, hpa, hci, hco, -, -, -, -, hsy, hib, hep, hdr, hho, hre⟩ := exec_sameButResult h nofun nofun
    exact ⟨hsy, hib, hci, hco, hep, hdr, hho, hre, fun _ => ⟨hra, hal, hcf, hpa⟩⟩
  | clear =>
    obtain rfl := next_inj ((execClear_eq s).symm.trans h)
    exact ⟨fun _ => rfl, fun _ => rfl, rfl, rfl, rfl, rfl, rfl, rfl, fun hne => absurd rfl hne⟩

/-- Settles O47: no effect but a command's sets `CFG_VALID`, no command but CONFIGURE does, and one word is CONFIGURE's. -/
theorem onlyConfigureConfigures : Obligations.OnlyConfigureConfigures := by
  intro s t hstep hs ht
  rcases step_cases hstep with ⟨-, rfl⟩ | ⟨op, rest, hop, heff⟩
  · simp [hs] at ht
  · cases heff with
    | nothing r d => simp [hs] at ht
    | command w u hcmd hu =>
      rcases issue_cases w { s with host := rest } with ⟨i, hi, hx⟩ | ⟨e, -, hx⟩
      · obtain rfl := exec_sets_cfgValid (hx.symm.trans hu) hs ht
        obtain rfl := decodeWord_eq_configure hi
        exact ⟨rest, hcmd.imp (fun h => by rw [hop, h]) (fun h => by rw [hop, h])⟩
      · obtain rfl := next_inj (hx.symm.trans hu)
        simp [hs] at ht
    | register r w hr => cases r <;> simp [State.writeReg, hs] at ht
    | entry sp i b hi hwr => cases sp <;> simp [State.writeByte, hs] at ht
    | reset hre => simp [State.reset] at ht

/-! ### Writes to configuration state -/

theorem hostByteWrite_of_lt {s : State} {sp : Space} {i : Nat} (hi : i < s.spaceSize sp) (b : Byte) :
    hostByteWrite sp i b s = .next ((s.writeByte sp i b).withReply .ack) := by
  unfold hostByteWrite
  rw [if_neg (Nat.not_le.2 hi)]

theorem State.symAt_store_same {s : State} {m : Memory} {i : Nat} {v : Byte} (h : s.sym = Memory.store m i v) :
    s.symAt i = v := by
  simp [State.symAt, State.byteAt, h, Memory.find_store_same]

/-- Settles O46: the four registers by running the write, `SYM` by what a store does to the entry and to the others. -/
theorem configurationWriteUnconfigures : Obligations.ConfigurationWriteUnconfigures := by
  intro s rest dropped
  refine ⟨fun w h => step_cons h, fun w h => step_cons h, fun w h => step_cons h, fun w h => step_cons h,
    fun i v hi h => ?_⟩
  refine ⟨_, (step_cons h).trans (hostByteWrite_of_lt hi v), rfl, State.symAt_store_same rfl, fun j hj => ?_, rfl⟩
  exact State.byteAt_congr_held _ _ _ _ (by decide) (Memory.find_store_other s.sym i j v hj) rfl

/-! ### The register file -/

/-- A read of a register returns its word (R21, R61). -/
theorem hostRegRead_offset (s : State) (r : RegName) :
    hostRegRead r.offset s = .next (s.withReply (.word (s.readReg r))) := by
  cases r <;> rfl

/-- A reserved offset reads 0 (R32). -/
theorem hostRegRead_reserved (s : State) {off : Nat} (h1 : 0x28 ≤ off) (h2 : off ≤ 0xFC) (h4 : off % 4 = 0) :
    hostRegRead off s = .next (s.withReply (.word 0)) := by
  unfold hostRegRead
  rw [regRefusal_none.2 ⟨h4, h2⟩, regAt_reserved h1]

/-- A write to a reserved offset is ignored (R32). -/
theorem hostRegWrite_reserved (s : State) {off : Nat} (h1 : 0x28 ≤ off) (h2 : off ≤ 0xFC) (h4 : off % 4 = 0) (w : Word) :
    hostRegWrite off w s = .next (s.withReply .ack) := by
  unfold hostRegWrite
  rw [regRefusal_none.2 ⟨h4, h2⟩, regAt_reserved h1]

/-- What a register of `n` implemented bits reads back (R21). -/
theorem setWidth_setWidth_eq_and (w : Word) {n : Nat} (hn : n ≤ 32) :
    (w.setWidth n).setWidth 32 = w &&& BitVec.ofNat 32 (2 ^ n - 1) := by
  have hpow : 2 ^ n - 1 < 2 ^ 32 := by
    have := Nat.pow_le_pow_right (n := 2) (by decide) hn
    have := Nat.two_pow_pos n
    omega
  apply BitVec.eq_of_toNat_eq
  rw [BitVec.toNat_and, BitVec.toNat_ofNat, Nat.mod_eq_of_lt hpow, Nat.and_two_pow_sub_one_eq_mod, BitVec.toNat_setWidth,
    BitVec.toNat_setWidth, Nat.mod_eq_of_lt (lt_of_le_of_lt (Nat.mod_le _ _) w.isLt)]

/-- Two fields side by side are a sum. -/
theorem toNat_append_eq_add {m n : Nat} (x : BitVec m) (y : BitVec n) : (x ++ y).toNat = x.toNat * 2 ^ n + y.toNat := by
  rw [BitVec.toNat_append, ← Nat.shiftLeft_add_eq_or_of_lt y.isLt, Nat.shiftLeft_eq]

/-- `ERRPOS` stands in [23:0] below zeros (R29). -/
theorem zero_append_eq_setWidth (p : BitVec 24) : 0#8 ++ p = p.setWidth 32 := by
  apply BitVec.eq_of_toNat_eq
  have := p.isLt
  rw [toNat_append_eq_add, BitVec.toNat_setWidth, BitVec.toNat_ofNat]
  omega

/-- Settles O49: the four configuration registers by the bits they keep, a write above `CMD` by whether a register stands
at its offset, the reads by the word of each register. -/
theorem registerFileReadsAndWrites : Obligations.RegisterFileReadsAndWrites := by
  refine ⟨fun s off w mask hmem => ?_, fun s off w h1 h2 h4 => ?_, fun s off hoff => ?_,
    fun s => hostRegRead_offset { s with host := [] } .olen, fun s => ?_,
    fun s => hostRegRead_offset { s with host := [] } .capIbuf, fun s => hostRegRead_offset { s with host := [] } .capObuf⟩
  · simp only [List.mem_cons, Prod.mk.injEq, List.not_mem_nil, or_false] at hmem
    rcases hmem with ⟨rfl, rfl⟩ | ⟨rfl, rfl⟩ | ⟨rfl, rfl⟩ | ⟨rfl, rfl⟩
    · exact ⟨_, _, rfl, rfl, congrArg Reply.word (setWidth_setWidth_eq_and w (n := 9) (by decide))⟩
    · exact ⟨_, _, rfl, rfl, congrArg Reply.word (setWidth_setWidth_eq_and w (n := 9) (by decide))⟩
    · exact ⟨_, _, rfl, rfl, congrArg Reply.word (setWidth_setWidth_eq_and w (n := 6) (by decide))⟩
    · exact ⟨_, _, rfl, rfl, congrArg Reply.word (setWidth_setWidth_eq_and w (n := 8) (by decide))⟩
  · by_cases hres : 0x28 ≤ off
    · exact hostRegWrite_reserved _ hres h2 h4 w
    · have hro : off = 0x14 ∨ off = 0x18 ∨ off = 0x1C ∨ off = 0x20 ∨ off = 0x24 := by omega
      rcases hro with rfl | rfl | rfl | rfl | rfl <;> rfl
  · rcases hoff with rfl | ⟨h1, h2, h4⟩
    · exact hostRegRead_offset { s with host := [] } .cmd
    · exact hostRegRead_reserved _ h1 h2 h4
  · rw [zero_append_eq_setWidth]
    exact hostRegRead_offset { s with host := [] } .errpos

/-- The word of `STATUS` is the sum of its fields at their places (R27). -/
theorem Status.word_toNat (st : Status) :
    st.word.toNat = st.err.code.toNat * 256 + st.bits.toNat * 4 + st.mode.code.toNat * 2 +
      (cfgValidBit st.cfgValid).toNat := by
  unfold Status.word
  simp only [toNat_append_eq_add, BitVec.ofNat_eq_ofNat, BitVec.toNat_ofNat]
  omega

theorem Mode.code_toNat (m : Mode) : m.code.toNat * 2 = if m = .brc then 2 else 0 := by cases m <;> rfl

theorem cfgValidBit_toNat (v : Bool) : (cfgValidBit v).toNat = if v = true then 1 else 0 := by cases v <;> rfl

/-- Settles O50: the read is one of a register, and its word is the sum of the four fields. -/
theorem statusReadsItsFields : Obligations.StatusReadsItsFields := by
  intro s
  refine ⟨s.status.word, hostRegRead_offset { s with host := [] } .status, ?_⟩
  rw [Status.word_toNat, Mode.code_toNat, cfgValidBit_toNat]

/-! ### Reset -/

theorem State.ibufBytes_reset : State.reset.ibufBytes = Config.ibufBytes := by
  have hlt := Config.ibufParam.isLt
  simp only [State.ibufBytes, State.reset, Config.ibufBytes, BitVec.toNat_ofNat]
  omega

theorem State.obufBytes_reset : State.reset.obufBytes = Config.obufBytes := by
  have hlt := Config.obufParam.isLt
  simp only [State.obufBytes, State.reset, Config.obufBytes, BitVec.toNat_ofNat]
  omega

/-- The two capacities are in the range of R5, whatever the free parameters are. -/
theorem State.capacityInv_reset : State.reset.CapacityInv := by
  have hi := Config.ibufParam.isLt
  have ho := Config.obufParam.isLt
  rw [State.CapacityInv, State.ibufBytes_reset, State.obufBytes_reset, Config.ibufBytes, Config.obufBytes]
  omega

/-- Settles O57: no byte is known, the capacities are in range, and nothing is configured or reported. -/
theorem resetMeetsInvariant : Obligations.ResetMeetsInvariant :=
  ⟨State.memoryInv_reset, State.capacityInv_reset, State.configInv_unconfigured (st := State.reset.status) rfl,
    State.resultInv_of_olen_eq_zero rfl fun _ _ => rfl⟩

/-- Every register but the two capacity constants is 0 at reset (R43). -/
theorem State.readReg_reset {r : RegName} (hi : r ≠ .capIbuf) (ho : r ≠ .capObuf) : State.reset.readReg r = 0 := by
  cases r with
  | capIbuf => exact absurd rfl hi
  | capObuf => exact absurd rfl ho
  | _ => rfl

/-- After the reset event every register but the two capacity constants reads as at reset. -/
theorem State.readReg_afterReset (s : State) {r : RegName} (hi : r ≠ .capIbuf) (ho : r ≠ .capObuf) :
    s.afterReset.readReg r = State.reset.readReg r := by
  cases r with
  | capIbuf => exact absurd rfl hi
  | capObuf => exact absurd rfl ho
  | _ => rfl

/-- Settles O56: either event ends in `afterReset`, whose registers are those of the reset state. -/
theorem resetClearsRegisters : Obligations.ResetClearsRegisters := by
  refine ⟨fun s w rest h => ⟨State.afterReset { s with host := rest }, ?_, rfl, fun r hi ho => ?_, rfl, rfl,
    fun sp i => ?_⟩, fun r hi ho => State.readReg_reset hi ho, State.ibufBytes_reset, State.obufBytes_reset,
    fun sp i => ?_⟩
  · rcases h with h | h <;> exact step_cons h
  · exact (State.readReg_afterReset _ hi ho).trans (State.readReg_reset hi ho)
  · cases sp <;> rfl
  · cases sp <;> rfl

end Sys2Proof.Machine
end

section
/-! SUPPORT. What a command reads (spec/20_memory.md R72), what a write of one byte does to every byte, when a host access
takes a step (R61, R62), and what each range of flat addresses names (R67). -/

namespace Sys2Proof.Machine

/-! ### What the commands read -/

/-- The block with other contents in its two input memories. -/
def State.withInputs (s : State) (ib sy : Memory) : State := { s with ibuf := ib, sym := sy }

theorem State.input_congr {s t : State} {n : Nat} (h : ∀ i < n, t.ibufAt i = s.ibufAt i) : t.input n = s.input n :=
  List.map_congr_left fun i hi => h i (List.mem_range.1 hi)

/-- A group of `b` bits is the number of a symbol of the 2^b. -/
theorem groupAt_lt (b : Nat) (x : List Byte) (j : Nat) : groupAt b x j < 2 ^ b :=
  Nat.mod_lt _ (Nat.two_pow_pos b)

/-- `BPEncode` of a ready block looks up no symbol from `RADIX` on (R131). -/
theorem State.Ready.bpEncode_congr {s t : State} (h : s.Ready .bpc) (hst : t.status = s.status) (hc : t.cfg = s.cfg)
    (hp : t.padsym = s.padsym) (hs : ∀ i < s.radix.toNat, t.symAt i = s.symAt i) (x : List Byte) :
    t.bpEncode x = s.bpEncode x := by
  have hw : t.width = s.width := by unfold State.width; rw [hst]
  have hlook : ∀ j, t.symAt (groupAt s.width x j) = s.symAt (groupAt s.width x j) := fun j =>
    hs _ (h.width.2.2 ▸ groupAt_lt s.width x j)
  simp only [State.bpEncode, hw, hc, hp, hlook]

/-- `BREncode` of a ready block looks up no symbol from `RADIX` on (R161). -/
theorem State.Ready.brEncode_congr {s t : State} (h : s.Ready .brc) (hx : t.radix = s.radix)
    (hs : ∀ i < s.radix.toNat, t.symAt i = s.symAt i) (x : List Byte) : t.brEncode x = s.brEncode x := by
  have hbase : t.base = s.base := congrArg BitVec.toNat hx
  have hpos : 0 < s.base := lt_of_lt_of_le (by decide) h.base.1
  have hlook : ∀ fuel v, (digits s.base fuel v).reverse.map t.symAt = (digits s.base fuel v).reverse.map s.symAt :=
    fun fuel v => List.map_congr_left fun d hd => hs d (digits_lt hpos fuel v d (List.mem_reverse.1 hd))
  simp only [State.brEncode, hbase, hs 0 hpos, hlook]

/-- Encoding by a ready block depends on its registers and on `SYM[0, RADIX)` alone. -/
theorem State.Ready.encodeText_congr {s t : State} {m : Mode} (h : s.Ready m) (hx : t.radix = s.radix)
    (hst : t.status = s.status) (hc : t.cfg = s.cfg) (hp : t.padsym = s.padsym)
    (hs : ∀ i < s.radix.toNat, t.symAt i = s.symAt i) (x : List Byte) : t.encodeText x = s.encodeText x := by
  unfold State.encodeText
  rw [hst, h.2.1]
  cases m with
  | bpc => exact h.bpEncode_congr hst hc hp hs x
  | brc => exact h.brEncode_congr hx hs x

/-- Delivery neither reads nor writes the input memories. -/
theorem State.deliver_withInputs (s : State) (ib sy : Memory) (t : List Byte) :
    (s.withInputs ib sy).deliver t = (s.deliver t).withInputs ib sy := by
  rcases s.deliver_cases t with ⟨h, hd⟩ | ⟨h, hd⟩ <;> rw [hd]
  · exact State.deliver_overflow h
  · exact State.deliver_fits h

/-- DECODE does the same whatever `IBUF` holds from `LEN` on, and whatever `SYM` holds. -/
theorem execDecode_withInputs {s : State} {ib sy : Memory} {n : Nat}
    (hib : ∀ i < n, (s.withInputs ib sy).ibufAt i = s.ibufAt i) :
    execDecode n (s.withInputs ib sy) = onNext (·.withInputs ib sy) (execDecode n s) := by
  have hpre : (s.withInputs ib sy).preCheck n = s.preCheck n := rfl
  have htext : (s.withInputs ib sy).decodeText ((s.withInputs ib sy).input n) = s.decodeText (s.input n) := by
    rw [State.input_congr hib]
    exact State.decodeText_congr (s := s) (t := s.withInputs ib sy) rfl rfl rfl rfl rfl rfl _
  unfold execDecode
  rw [hpre, htext]
  cases s.preCheck n with
  | some e => rfl
  | none =>
    cases s.decodeText (s.input n) with
    | error e => rfl
    | ok y => exact congrArg Host.Outcome.next (s.deliver_withInputs ib sy y)

section
variable {s : State} {ib sy : Memory} (hsy : ∀ i < s.radix.toNat, (s.withInputs ib sy).symAt i = s.symAt i)
include hsy

/-- CONFIGURE does the same whatever `IBUF` holds, and `SYM` from `RADIX` on. -/
theorem execConfigure_withInputs :
    execConfigure (s.withInputs ib sy) = onNext (·.withInputs ib sy) (execConfigure s) := by
  have hcon : (s.withInputs ib sy).construct = s.construct := State.construct_congr rfl rfl rfl rfl hsy
  unfold execConfigure
  rw [hcon]
  cases s.construct <;> rfl

/-- ENCODE of a ready block does the same whatever `IBUF` holds from `LEN` on, and `SYM` from `RADIX` on. -/
theorem execEncode_withInputs {m : Mode} {n : Nat} (h : s.Ready m)
    (hib : ∀ i < n, (s.withInputs ib sy).ibufAt i = s.ibufAt i) :
    execEncode n (s.withInputs ib sy) = onNext (·.withInputs ib sy) (execEncode n s) := by
  have hpre : (s.withInputs ib sy).preCheck n = s.preCheck n := rfl
  have htext : (s.withInputs ib sy).encodeText ((s.withInputs ib sy).input n) = s.encodeText (s.input n) := by
    rw [State.input_congr hib]
    exact h.encodeText_congr (t := s.withInputs ib sy) rfl rfl rfl rfl hsy _
  unfold execEncode
  rw [hpre, htext, State.deliver_withInputs]
  cases s.preCheck n <;> rfl

end

/-! ### Bytes after a write -/

@[simp] theorem State.byteAt_withReply (s : State) (r : Reply) (sp : Space) (i : Nat) :
    (s.withReply r).byteAt sp i = s.byteAt sp i := by cases sp <;> rfl

/-- A byte written to `SYM` or `IBUF` reads back. -/
theorem State.byteAt_writeByte_same (s : State) {sp : Space} (hsp : sp ≠ .obuf) (i : Nat) (b : Byte) :
    (s.writeByte sp i b).byteAt sp i = b := by
  cases sp with
  | obuf => exact absurd rfl hsp
  | sym | ibuf => simp [State.writeByte, State.byteAt, Memory.find_store_same]

/-- Every other byte reads as before a write, and every byte as before a write to `OBUF`. -/
theorem State.byteAt_writeByte_other (s : State) {sp sp' : Space} {i j : Nat} (b : Byte)
    (h : sp' ≠ sp ∨ j ≠ i ∨ sp = .obuf) : (s.writeByte sp i b).byteAt sp' j = s.byteAt sp' j := by
  refine State.byteAt_congr _ _ _ _ ?_ (by cases sp <;> rfl) (by cases sp <;> rfl)
  cases sp with
  | obuf => rfl
  | sym =>
    cases sp' with
    | sym => exact Memory.find_store_other s.sym i j b (by simpa using h)
    | ibuf | obuf => rfl
  | ibuf =>
    cases sp' with
    | ibuf => exact Memory.find_store_other s.ibuf i j b (by simpa using h)
    | sym | obuf => rfl

/-- A write to a register changes no byte. -/
theorem State.byteAt_writeReg (s : State) (r : RegName) (w : Word) (sp : Space) (i : Nat) :
    (s.writeReg r w).byteAt sp i = s.byteAt sp i :=
  State.byteAt_congr _ _ _ _ (by cases r <;> cases sp <;> rfl) (by cases r <;> rfl) (by cases r <;> rfl)

/-! ### Which accesses go on -/

/-- Every command ends in a next state (R190). -/
theorem exec_next (i : Instr) (s : State) : ∃ t, exec i s = .next t := by
  cases i with
  | configure => rcases execConfigure_cases s with ⟨e, -, h⟩ | ⟨c, -, h⟩ <;> exact ⟨_, h⟩
  | encode n => rcases execEncode_cases n s with ⟨-, h⟩ | ⟨-, -, h⟩ | ⟨-, -, h⟩ <;> exact ⟨_, h⟩
  | decode n =>
    rcases execDecode_cases n s with ⟨-, h⟩ | ⟨-, -, h⟩ | ⟨-, -, e, -, h⟩ | ⟨-, -, y, -, h⟩ <;> exact ⟨_, h⟩
  | clear => exact ⟨_, execClear_eq s⟩

/-- Every word written to `CMD` ends in a next state. -/
theorem issue_next (w : Word) (s : State) : ∃ t, issue w s = .next t := by
  rcases issue_cases w s with ⟨i, -, h⟩ | ⟨e, -, h⟩
  · rw [h]; exact exec_next i s
  · exact ⟨_, h⟩

/-- A `RegRead` goes on exactly at the offsets of R61 and R62. -/
theorem hostRegRead_next_iff (off : Nat) (s : State) :
    (∃ t, hostRegRead off s = .next t) ↔ off % 4 = 0 ∧ off ≤ 0xFC := by
  rw [← regRefusal_none]
  unfold hostRegRead
  cases regRefusal off with
  | some r => simp
  | none => cases regAt off <;> simp

/-- A `RegWrite` goes on exactly at the offsets of R61 and R62. -/
theorem hostRegWrite_next_iff (off : Nat) (w : Word) (s : State) :
    (∃ t, hostRegWrite off w s = .next t) ↔ off % 4 = 0 ∧ off ≤ 0xFC := by
  rw [← regRefusal_none]
  obtain ⟨u, hu⟩ := issue_next w s
  unfold hostRegWrite
  cases regRefusal off with
  | some r => simp
  | none =>
    cases regAt off with
    | none => simp
    | some r => cases r <;> simp [hu]

/-- A `ByteRead` goes on exactly inside its space (R61). -/
theorem hostByteRead_next_iff (sp : Space) (i : Nat) (s : State) :
    (∃ t, hostByteRead sp i s = .next t) ↔ i < s.spaceSize sp := by
  unfold hostByteRead
  split <;> simp <;> omega

/-- A `ByteWrite` goes on exactly inside its space (R61). -/
theorem hostByteWrite_next_iff (sp : Space) (i : Nat) (b : Byte) (s : State) :
    (∃ t, hostByteWrite sp i b s = .next t) ↔ i < s.spaceSize sp :=
  ⟨fun ⟨_, h⟩ => (hostByteWrite_next h).1, fun h => ⟨_, hostByteWrite_of_lt h b⟩⟩

/-- There is no fault, so an outcome that does not go on is a refusal. -/
theorem refused_of_not_next {o : Host.Outcome State Fault Refusal} (h : ∀ t, o ≠ .next t) : ∃ r, o = .refused r := by
  cases o with
  | next t => exact absurd rfl (h t)
  | fault r => cases r
  | refused r => exact ⟨r, rfl⟩

/-! ### The ranges of the flat address map -/

/-- The base address of each byte-wide space (R67). -/
def Space.base : Space → Nat
  | .sym => 0x100
  | .ibuf => 0x10000000
  | .obuf => 0x20000000

/-- The last address of a space is a 32-bit address. -/
theorem State.CapacityInv.base_add_lt {s : State} (h : s.CapacityInv) {sp : Space} {i : Nat} (hi : i < s.spaceSize sp) :
    sp.base + i < 2 ^ 32 := by
  obtain ⟨⟨-, hib⟩, -, hob⟩ := h
  cases sp <;> simp only [State.spaceSize_sym, State.spaceSize_ibuf, State.spaceSize_obuf, Space.base] at hi ⊢ <;> omega

theorem State.flatTarget_of_lt (s : State) {a : Word} (h : a.toNat < 0x100) : s.flatTarget a = some (.reg a.toNat) :=
  if_pos h

/-- Address `base + i` names entry `i`: the windows of the map do not overlap. -/
theorem State.CapacityInv.flatTarget_base_add {s : State} (h : s.CapacityInv) {sp : Space} {i : Nat} {a : Word}
    (hi : i < s.spaceSize sp) (ha : a.toNat = sp.base + i) : s.flatTarget a = some (.entry sp i) := by
  obtain ⟨⟨-, hib⟩, -, -⟩ := h
  unfold State.flatTarget
  cases sp with
  | sym =>
    simp only [State.spaceSize_sym, Space.base] at hi ha
    simp only
    rw [if_neg (by omega), if_pos (by omega), ha, Nat.add_sub_cancel_left]
  | ibuf =>
    simp only [State.spaceSize_ibuf, Space.base] at hi ha
    simp only
    rw [if_neg (by omega), if_neg (by omega), if_pos (by omega), ha, Nat.add_sub_cancel_left]
  | obuf =>
    simp only [State.spaceSize_obuf, Space.base] at hi ha
    simp only
    rw [if_neg (by omega), if_neg (by omega), if_neg (by omega), if_pos (by omega), ha, Nat.add_sub_cancel_left]

/-- An address outside every window names nothing. -/
theorem State.flatTarget_eq_none (s : State) {a : Word} (h : 0x200 ≤ a.toNat)
    (hib : ¬ (0x10000000 ≤ a.toNat ∧ a.toNat < 0x10000000 + s.ibufBytes))
    (hob : ¬ (0x20000000 ≤ a.toNat ∧ a.toNat < 0x20000000 + s.obufBytes)) : s.flatTarget a = none := by
  unfold State.flatTarget
  simp only
  rw [if_neg (by omega), if_neg (by omega), if_neg hib, if_neg hob]

/-! ### Accesses on the flat map -/

section
variable {s : State} {a : Word}

theorem hostBusRead_reg {off : Nat} (h : s.flatTarget a = some (.reg off)) :
    hostBusRead a .word s = hostRegRead off s := by unfold hostBusRead; rw [h]

theorem hostBusRead_entry {sp : Space} {i : Nat} (h : s.flatTarget a = some (.entry sp i)) :
    hostBusRead a .byte s = hostByteRead sp i s := by unfold hostBusRead; rw [h]

theorem hostBusRead_unmapped (h : s.flatTarget a = none) (wd : AccessWidth) :
    hostBusRead a wd s = .refused (.unmapped a) := by unfold hostBusRead; rw [h]

theorem hostBusWrite_reg {off : Nat} (h : s.flatTarget a = some (.reg off)) (w : Word) :
    hostBusWrite a (.word w) s = hostRegWrite off w s := by unfold hostBusWrite; rw [h]

theorem hostBusWrite_entry {sp : Space} {i : Nat} (h : s.flatTarget a = some (.entry sp i)) (b : Byte) :
    hostBusWrite a (.byte b) s = hostByteWrite sp i b s := by unfold hostBusWrite; rw [h]

theorem hostBusWrite_unmapped (h : s.flatTarget a = none) (d : BusData) :
    hostBusWrite a d s = .refused (.unmapped a) := by unfold hostBusWrite; rw [h]

/-- A read goes on only as a word below 0x100 or as a byte from there on (R62); any other is refused. -/
theorem hostBusRead_refused {wd : AccessWidth} (hw : wd = .word → 0x100 ≤ a.toNat) (hb : wd = .byte → a.toNat < 0x100) :
    ∃ r, hostBusRead a wd s = .refused r := by
  refine refused_of_not_next fun t h => ?_
  rcases hostBusRead_next h with ⟨off, hf, hwd, -⟩ | ⟨sp, i, hf, hwd, -⟩
  · have := State.flatTarget_reg hf
    have := hw hwd
    omega
  · exact absurd (hb hwd) (Nat.not_lt.2 (State.flatTarget_entry hf).1)

/-- A write goes on only as a word below 0x100 or as a byte from there on (R62); any other is refused. -/
theorem hostBusWrite_refused {d : BusData} (hw : d.width = .word → 0x100 ≤ a.toNat)
    (hb : d.width = .byte → a.toNat < 0x100) : ∃ r, hostBusWrite a d s = .refused r := by
  refine refused_of_not_next fun t h => ?_
  rcases hostBusWrite_next h with ⟨off, w, hf, rfl, -⟩ | ⟨sp, i, b, hf, rfl, -⟩
  · have := State.flatTarget_reg hf
    have := hw rfl
    omega
  · exact absurd (hb rfl) (Nat.not_lt.2 (State.flatTarget_entry hf).1)

end

end Sys2Proof.Machine
end

section
/-! SUPPORT. The statements about the memories and the host's accesses (spec/20_memory.md R60 to R74). -/

namespace Sys2Proof.Machine

/-! ### Operands and bytes -/

/-- Settles O11: the checks of CONFIGURE, the texts of ENCODE and the input of DECODE are the same, and their endings keep
`IBUF` and `SYM`. -/
theorem engineReadsOnlyItsOperands : Obligations.EngineReadsOnlyItsOperands := fun _ _ _ _ _ hsy =>
  ⟨execConfigure_withInputs hsy, fun h hib => ⟨execEncode_withInputs hsy h hib, execDecode_withInputs hib⟩⟩

/-- Settles O53, by what `writeByte` does to the byte written and to the others. -/
theorem byteWriteStoresOneByte : Obligations.ByteWriteStoresOneByte := by
  intro s rest sp i v hh hi
  have hi' : i < State.spaceSize { s with host := rest } sp := by rwa [State.spaceSize_host]
  refine ⟨_, (step_cons hh).trans (hostByteWrite_of_lt hi' v), fun hsp => ?_, fun sp' j hj => ?_, ?_, ?_⟩
  · rw [State.byteAt_withReply, State.byteAt_writeByte_same _ hsp]
  · rw [State.byteAt_withReply, State.byteAt_writeByte_other _ v hj, State.byteAt_host]
  · rintro rfl; rfl
  · rintro rfl; rfl

/-- Settles O54, by the effects a step can have: only a write to the entry itself and a reset could change its byte. -/
theorem bytesHeldUntilWritten : Obligations.BytesHeldUntilWritten := by
  intro s t sp i hsp hstep hwrite hbus hreset hduring
  rcases step_cases hstep with ⟨-, rfl⟩ | ⟨op, rest, hop, heff⟩
  · rfl
  rw [← State.byteAt_host s rest]
  cases heff with
  | nothing r d => exact State.byteAt_congr_held _ _ _ _ hsp rfl rfl
  | command w u hcmd hu =>
    rw [State.byteAt_withReply]
    rcases issue_cases w { s with host := rest } with ⟨c, -, hx⟩ | ⟨e, -, hx⟩
    · obtain ⟨hsym, hibuf, -⟩ := commandsKeepInputsAndConfiguration c _ _ (hx.symm.trans hu)
      cases sp with
      | sym => exact hsym i
      | ibuf => exact hibuf i
      | obuf => exact absurd rfl hsp
    · obtain rfl := next_inj (hx.symm.trans hu)
      exact State.byteAt_congr _ _ _ _ (by cases sp <;> rfl) rfl rfl
  | register r w hr => rw [State.byteAt_withReply, State.byteAt_writeReg]
  | entry sp' j b hj hwr =>
    rw [State.byteAt_withReply, State.byteAt_writeByte_other]
    by_contra hsame
    simp only [not_or, not_not] at hsame
    obtain ⟨rfl, rfl, -⟩ := hsame
    rcases hwr with rfl | ⟨a, rfl, hf⟩
    · exact hwrite b rest hop
    · exact hbus a (.byte b) rest hop hf
  | reset hre =>
    rcases hre with rfl | ⟨w, rfl⟩
    · exact absurd hop (hreset rest)
    · exact absurd hop (hduring w rest)

/-! ### Host accesses -/

/-- Settles O55: each range of addresses has its target, and the bus operation does what its target says. -/
theorem flatMapReachesTheSpaces : Obligations.FlatMapReachesTheSpaces := by
  intro s rest hinv go
  have hcap : State.CapacityInv { s with host := rest } := hinv.2.1
  refine ⟨fun off hoff => ?_, fun sp base i hmem hi => ?_, fun a ha hib hob => ?_, fun a => ?_⟩
  · have hnat : (BitVec.ofNat 32 off).toNat = off := by rw [BitVec.toNat_ofNat]; omega
    have hf := State.flatTarget_of_lt { s with host := rest } (hnat ▸ hoff)
    rw [hnat] at hf
    exact ⟨hostBusRead_reg hf, hostBusWrite_reg hf⟩
  · have hbase : base = sp.base := by
      simp only [List.mem_cons, Prod.mk.injEq, List.not_mem_nil, or_false] at hmem
      rcases hmem with ⟨rfl, rfl⟩ | ⟨rfl, rfl⟩ | ⟨rfl, rfl⟩ <;> rfl
    rw [hbase]
    have hi' : i < State.spaceSize { s with host := rest } sp := by rwa [State.spaceSize_host]
    have hf := hcap.flatTarget_base_add hi'
      ((BitVec.toNat_ofNat _ _).trans (Nat.mod_eq_of_lt (hcap.base_add_lt hi')))
    exact ⟨hostBusRead_entry hf, hostBusWrite_entry hf⟩
  · have hf := State.flatTarget_eq_none { s with host := rest } ha hib hob
    exact ⟨hostBusRead_unmapped hf, hostBusWrite_unmapped hf⟩
  · exact ⟨hostBusRead_refused nofun nofun, fun _ => hostBusWrite_refused nofun nofun,
      fun ha => ⟨hostBusRead_refused nofun fun _ => ha, fun _ => hostBusWrite_refused nofun fun _ => ha⟩,
      fun ha => ⟨hostBusRead_refused (fun _ => ha) nofun, fun _ => hostBusWrite_refused (fun _ => ha) nofun⟩⟩

/-- Settles O51, operation by operation; `Fault` has no value. -/
theorem accessesRefusedExactly : Obligations.AccessesRefusedExactly := by
  intro s rest
  refine ⟨fun off h => ?_, fun off w h => ?_, fun sp i h => ?_, fun sp i v h => ?_, nofun⟩ <;> rw [step_cons h]
  · exact hostRegRead_next_iff off _
  · exact hostRegWrite_next_iff off w _
  · exact (hostByteRead_next_iff sp i _).trans (by rw [State.spaceSize_host])
  · exact (hostByteWrite_next_iff sp i v _).trans (by rw [State.spaceSize_host])

/-- Settles O52, by everything the two reads can answer. -/
theorem hostReadsChangeNothing : Obligations.HostReadsChangeNothing := by
  intro s t rest
  refine ⟨fun off h hstep => hostRegRead_next ((step_cons h).symm.trans hstep), fun sp i h hstep => ?_⟩
  obtain ⟨-, ht, hd⟩ := hostByteRead_next ((step_cons h).symm.trans hstep)
  rw [State.byteAt_host] at ht
  exact ⟨ht, hd⟩

end Sys2Proof.Machine
end

section
/-! SUPPORT. The decoder as one equivalence: a word decodes to a command exactly when its two fields are the command's opcode
and operand (spec/30_encoding.md R81 to R84, R90). Everything about command words is read off it. -/

namespace Sys2Proof

open Laws.OpcodeByte

/-! ### The fields of a word -/

/-- `LEN` has 24 bits (R82). -/
theorem operandField_lt (w : Word) : operandField w < 16777216 := (w.extractLsb' 8 24).isLt

/-- The two fields are the whole word (R81, R82). -/
theorem word_eq_of_fields {v w : Word} (hopc : opcodeField v = opcodeField w) (himm : operandField v = operandField w) :
    v = w := by
  have hlow := congrArg BitVec.toNat hopc
  rw [opcodeField_toNat, opcodeField_toNat] at hlow
  rw [operandField_toNat, operandField_toNat] at himm
  exact BitVec.eq_of_toNat_eq (by omega)

/-! ### The fields of a command -/

/-- The check of R82 is a bound on the operand, 0 where the format has none. -/
theorem Instr.wf_iff_lenOf_lt (i : Instr) : i.wf = true ↔ lenOf i < 16777216 := by
  cases i <;> simp [Instr.wf, lenOf]

/-- The word of every well-formed command has the command's opcode and operand in its fields. -/
theorem fields_encodeInstr (i : Instr) : Statement i := by
  cases i with
  | configure => exact configure
  | encode len => exact encode len
  | decode len => exact decode len
  | clear => exact clear

/-- A word decodes to a command exactly when its fields are the command's (R90). -/
theorem decodeWord_eq_ok_iff {w : Word} {i : Instr} :
    decodeWord w = .ok i ↔ opcodeField w = opcodeOf i ∧ operandField w = lenOf i := by
  constructor
  · intro h
    rcases decodeWord_cases w with ⟨hopc, himm, hw⟩ | ⟨hopc, hw⟩ | ⟨hopc, hw⟩ | ⟨hopc, himm, hw⟩ | ⟨-, -, -, -, e, hw⟩ <;>
      cases hw.symm.trans h
    · exact ⟨hopc, himm⟩
    · exact ⟨hopc, rfl⟩
    · exact ⟨hopc, rfl⟩
    · exact ⟨hopc, himm⟩
  · rintro ⟨hopc, himm⟩
    cases i <;> simp [decodeWord, hopc, himm, opcodeOf, lenOf]

/-- Decoding undoes encoding. -/
theorem decodeWord_encodeInstr {i : Instr} (h : i.wf = true) : decodeWord (encodeInstr i) = .ok i :=
  decodeWord_eq_ok_iff.2 (fields_encodeInstr i h)

/-- Only a well-formed command comes out of the decoder. -/
theorem wf_of_decodeWord {w : Word} {i : Instr} (h : decodeWord w = .ok i) : i.wf = true := by
  obtain ⟨-, himm⟩ := decodeWord_eq_ok_iff.1 h
  exact i.wf_iff_lenOf_lt.2 (himm ▸ operandField_lt w)

/-- Encoding undoes decoding. -/
theorem encodeInstr_of_decodeWord {w : Word} {i : Instr} (h : decodeWord w = .ok i) : encodeInstr i = w := by
  obtain ⟨hopc, himm⟩ := decodeWord_eq_ok_iff.1 h
  obtain ⟨hopc', himm'⟩ := fields_encodeInstr i (wf_of_decodeWord h)
  exact word_eq_of_fields (hopc'.trans hopc.symm) (himm'.trans himm.symm)

/-! ### The rows of the opcode map -/

/-- One case per row of R84. -/
theorem Instr.exists_iff {P : Instr → Prop} :
    (∃ i, P i) ↔ P .configure ∨ (∃ n, P (.encode n)) ∨ (∃ n, P (.decode n)) ∨ P .clear := by
  constructor
  · rintro ⟨i, hi⟩
    cases i with
    | configure => exact .inl hi
    | encode n => exact .inr (.inl ⟨n, hi⟩)
    | decode n => exact .inr (.inr (.inl ⟨n, hi⟩))
    | clear => exact .inr (.inr (.inr hi))
  · rintro (h | ⟨n, h⟩ | ⟨n, h⟩ | h) <;> exact ⟨_, h⟩

/-- A row selects exactly the words of its command (R84): a row with every bit masked its one word, the others every word
of their opcode. -/
theorem OpcodeRow.selects_iff {r : OpcodeRow} (hr : r ∈ opcodeRows) (w : Word) :
    r.selects w = true ↔ ∃ i, decodeWord w = .ok i ∧ i.mnemonic = r.mnemonic := by
  simp only [opcodeRows, List.mem_cons, List.not_mem_nil, or_false] at hr
  simp only [Instr.exists_iff, decodeWord_eq_ok_iff]
  rcases hr with rfl | rfl | rfl | rfl
  · exact (selects_full w 1#8 _).trans (by simp [Instr.mnemonic, opcodeOf, lenOf])
  · exact (selects_low w 2#8 _).trans (by simp [Instr.mnemonic, opcodeOf, lenOf])
  · exact (selects_low w 3#8 _).trans (by simp [Instr.mnemonic, opcodeOf, lenOf])
  · exact (selects_full w 4#8 _).trans (by simp [Instr.mnemonic, opcodeOf, lenOf])

/-- No two rows share a mnemonic. -/
theorem opcodeRows_mnemonic_inj : ∀ r ∈ opcodeRows, ∀ r' ∈ opcodeRows, r.mnemonic = r'.mnemonic → r = r' := by decide

/-- Every command has its row. -/
theorem Instr.exists_row (i : Instr) : ∃ r ∈ opcodeRows, i.mnemonic = r.mnemonic := by
  cases i <;> simp [opcodeRows, Instr.mnemonic]

/-! ### Illegal words -/

/-- No command has one of the reserved opcodes (R84). -/
theorem opcodeOf_not_reserved (i : Instr) : ¬ (opcodeOf i = 0#8 ∨ 5#8 ≤ opcodeOf i) := by
  cases i <;> simp [opcodeOf]

/-- The opcodes of format C0 have no operand (R81). -/
theorem lenOf_eq_zero {i : Instr} (h : opcodeOf i = 1#8 ∨ opcodeOf i = 4#8) : lenOf i = 0 := by
  cases i with
  | configure | clear => rfl
  | encode n | decode n => simp [opcodeOf] at h

/-- The words R85 names are illegal: their fields are those of no command. -/
theorem decodeWord_error_of_illegal {w : Word}
    (h : (w.extractLsb' 0 8 = 0#8 ∨ 5#8 ≤ w.extractLsb' 0 8) ∨
      ((w.extractLsb' 0 8 = 1#8 ∨ w.extractLsb' 0 8 = 4#8) ∧ w.extractLsb' 8 24 ≠ 0#24)) :
    ∃ e, decodeWord w = .error e := by
  cases hw : decodeWord w with
  | error e => exact ⟨e, rfl⟩
  | ok i =>
    obtain ⟨hopc, himm⟩ := decodeWord_eq_ok_iff.1 hw
    rw [opcodeField] at hopc
    rw [hopc] at h
    rcases h with hreserved | ⟨hC0, hnonzero⟩
    · exact absurd hreserved (opcodeOf_not_reserved i)
    · have hzero : operandField w = 0 := himm.trans (lenOf_eq_zero hC0)
      exact (hnonzero (BitVec.eq_of_toNat_eq hzero)).elim

end Sys2Proof

namespace Sys2Proof.Machine

/-- A write to `CMD` issues the word (R26, R101). -/
theorem hostRegWrite_cmd (w : Word) (s : State) :
    hostRegWrite 0x10 w s = onNext (fun t => t.withReply .ack) (issue w s) := rfl

/-- Issuing an illegal word only reports it (R85). -/
theorem issue_of_error {w : Word} {e : IllegalWord} (h : decodeWord w = .error e) (s : State) :
    issue w s = .next (s.raiseErr .illegalCommand 0) := by
  rcases issue_cases w s with ⟨i, hi, -⟩ | ⟨-, -, hs⟩
  · cases hi.symm.trans h
  · exact hs

end Sys2Proof.Machine
end

section
/-! SUPPORT. The statements about command words (spec/30_encoding.md R80 to R90). -/

namespace Sys2Proof.Machine

/-- Settles O3: the fields of a word are those of the command, both ways. -/
theorem decodingInvertsEncoding : Obligations.DecodingInvertsEncoding :=
  ⟨fun _ => decodeWord_encodeInstr, fun _ _ h => ⟨wf_of_decodeWord h, encodeInstr_of_decodeWord h⟩⟩

/-- Settles O2: a row selects the words of its command, so two rows that select one word share its mnemonic, and a word
that no row selects has no command. -/
theorem decoderFollowsOpcodeMap : Obligations.DecoderFollowsOpcodeMap := by
  intro w
  refine ⟨fun r hr => OpcodeRow.selects_iff hr w, fun r hr r' hr' hs hs' => ?_, fun n h => ?_, fun hnone => ?_⟩
  · obtain ⟨i, hi, hm⟩ := (OpcodeRow.selects_iff hr w).1 hs
    obtain ⟨j, hj, hm'⟩ := (OpcodeRow.selects_iff hr' w).1 hs'
    cases hi.symm.trans hj
    exact opcodeRows_mnemonic_inj r hr r' hr' (hm.symm.trans hm')
  · have himm : operandField w = n := by rcases h with h | h <;> exact (decodeWord_eq_ok_iff.1 h).2
    exact himm.symm.trans (operandField_toNat w)
  · cases hw : decodeWord w with
    | error e => exact ⟨e, rfl⟩
    | ok i =>
      obtain ⟨r, hr, hm⟩ := i.exists_row
      exact absurd ((OpcodeRow.selects_iff hr w).2 ⟨i, hw, hm⟩) (by simp [hnone r hr])

/-- Settles O1: each is the word of the command it should decode to. -/
theorem commandWordsDecodeAsWritten : Obligations.CommandWordsDecodeAsWritten :=
  ⟨decodeWord_encodeInstr (i := .configure) rfl, decodeWord_encodeInstr (i := .encode 4) rfl,
    decodeWord_encodeInstr (i := .encode 16777215) rfl, decodeWord_encodeInstr (i := .decode 8) rfl,
    decodeWord_encodeInstr (i := .clear) rfl⟩

/-- Settles O4: the word is illegal, and its issue raises IllegalCommand with nothing else changed. -/
theorem illegalWordOnlyReportsIllegalCommand : Obligations.IllegalWordOnlyReportsIllegalCommand := by
  intro s w rest hillegal hh
  obtain ⟨e, he⟩ := decodeWord_error_of_illegal hillegal
  refine ⟨rfl, ?_⟩
  calc step s = hostRegWrite 0x10 w { s with host := rest } := step_cons hh
    _ = onNext (fun t => t.withReply .ack) (.next (State.raiseErr { s with host := rest } .illegalCommand 0)) := by
        rw [hostRegWrite_cmd, issue_of_error he]
    _ = _ := rfl

end Sys2Proof.Machine
end

section
/-! SUPPORT. What CONFIGURE settles as a function of its checks' result, which result each kind of configuration state has
(spec/40_commands.md R102, R201), how a failed pre-check ends a command (R108, R109), and the issue of a legal word (R101). -/

namespace Sys2Proof.Machine

/-! ### CONFIGURE after its checks -/

/-- The state that CONFIGURE leaves once its checks have answered (R102). -/
def State.configureWith (s : State) : Except ErrCode Construction → State
  | .error e => s.dropConfig.raiseErr e 0
  | .ok c => { s with status := s.status.configured c.mode c.bits, rlut := c.rlut }.done 0

theorem exec_configure_eq (s : State) : exec .configure s = .next (s.configureWith s.construct) := by
  rcases execConfigure_cases s with ⟨e, hc, hx⟩ | ⟨c, hc, hx⟩ <;> rw [hc] <;> exact hx

/-- CONFIGURE writes `STATUS`, `OLEN`, `ERRPOS` and `RLUT` only (R102). -/
theorem State.configureWith_frame (s : State) (r : Except ErrCode Construction) :
    s.configureWith r =
      { s with
        status := (s.configureWith r).status, olen := (s.configureWith r).olen,
        errpos := (s.configureWith r).errpos, rlut := (s.configureWith r).rlut } := by
  cases r <;> rfl

@[simp] theorem State.byteAt_configureWith (s : State) (r : Except ErrCode Construction) (sp : Space) (i : Nat) :
    (s.configureWith r).byteAt sp i = s.byteAt sp i := by
  rw [s.configureWith_frame r]
  cases sp <;> rfl

/-- What CONFIGURE writes does not enter its own checks (R111). -/
@[simp] theorem State.construct_configureWith (s : State) (r : Except ErrCode Construction) :
    (s.configureWith r).construct = s.construct := by
  rw [s.configureWith_frame r]
  rfl

/-- A second CONFIGURE with the same result writes what already stands there. -/
theorem State.configureWith_idem (s : State) (r : Except ErrCode Construction) :
    (s.configureWith r).configureWith r = s.configureWith r := by
  cases r <;> rfl

/-- `STATUS` after CONFIGURE does not depend on `STATUS` before it. -/
theorem State.configureWith_status_congr (s t : State) (r : Except ErrCode Construction) :
    (s.configureWith r).status = (t.configureWith r).status := by
  cases r <;> rfl

@[simp] theorem State.configureWith_olen (s : State) (r : Except ErrCode Construction) : (s.configureWith r).olen = 0 := by
  cases r <;> rfl

@[simp] theorem State.configureWith_errpos (s : State) (r : Except ErrCode Construction) :
    (s.configureWith r).errpos = 0 := by
  cases r <;> rfl

/-- Where CONFIGURE configures the block, `RLUT` is the one just built. -/
theorem State.configureWith_rlut_congr (s t : State) {r : Except ErrCode Construction}
    (h : (s.configureWith r).status.cfgValid = true) : (t.configureWith r).rlut = (s.configureWith r).rlut := by
  cases r with
  | error e => cases h
  | ok c => rfl

/-- A CONFIGURE whose checks fail leaves the block unconfigured and reports nothing but the error (R102, R202). -/
theorem exec_configure_of_error {s : State} {e : ErrCode} (h : s.construct = .error e) :
    ∃ t, exec .configure s = .next t ∧ t.status = { cfgValid := false, mode := .bpc, bits := 0, err := e } ∧
      t.olen = 0 ∧ t.errpos = 0 :=
  ⟨_, exec_configure_eq s, by rw [h]; rfl, s.configureWith_olen _, s.configureWith_errpos _⟩

/-! ### The failures of the checks, in their priority (R201) -/

theorem State.construct_of_reserved {s : State} (h : cfgCodec s.cfg = .reserved) :
    s.construct = .error .illegalCommand := by
  unfold State.construct
  rw [if_pos h]

/-- No row of R103 that raises InvalidRadix has the reserved `CODEC`. -/
theorem RadixRejected.ne_reserved {r : Nat} {c : Codec} (h : RadixRejected r c) : c ≠ .reserved := by
  rintro rfl
  exact h

theorem State.construct_of_radixRejected {s : State} (h : RadixRejected s.radix.toNat (cfgCodec s.cfg)) :
    s.construct = .error .invalidRadix := by
  unfold State.construct
  rw [if_neg h.ne_reserved, (select_eq_none h.ne_reserved).2 h]

theorem State.construct_of_alphabetRejected {s : State} (hc : cfgCodec s.cfg ≠ .reserved)
    (hr : ¬ RadixRejected s.radix.toNat (cfgCodec s.cfg)) (ha : s.AlphabetRejected) :
    s.construct = .error .invalidAlphabet := by
  unfold State.construct
  rw [if_neg hc]
  cases hsel : select s.radix.toNat (cfgCodec s.cfg) with
  | none => exact absurd ((select_eq_none hc).1 hsel) hr
  | some u => simp only [(State.validate_eq_none (select_eq_some.1 hsel).radix_le).2 ha]

/-! ### A failed pre-check -/

/-- The pre-checks fail on an unconfigured block and on a `LEN` above `IBUF_BYTES` (R108, R109). -/
theorem State.preCheck_some {s : State} {n : Nat} (h : s.status.cfgValid = false ∨ s.ibufBytes < n) :
    ∃ e, s.preCheck n = some e := by
  rcases s.preCheck_cases n with ⟨-, hp⟩ | ⟨-, -, hp⟩ | ⟨hv, hn, -⟩
  · exact ⟨_, hp⟩
  · exact ⟨_, hp⟩
  · rcases h with h | h
    · cases hv.symm.trans h
    · omega

/-- A command that fails a pre-check only reports it. -/
theorem exec_of_preCheck_some {s : State} {n : Nat} {e : ErrCode} {i : Instr} (hi : i = .encode n ∨ i = .decode n)
    (h : s.preCheck n = some e) : exec i s = .next (s.raiseErr e 0) := by
  rcases hi with rfl | rfl
  · simp only [exec, execEncode, h]
  · simp only [exec, execDecode, h]

/-- A report changes no byte. -/
@[simp] theorem State.byteAt_raiseErr (s : State) (e : ErrCode) (pos : Nat) (sp : Space) (i : Nat) :
    (s.raiseErr e pos).byteAt sp i = s.byteAt sp i := by
  cases sp <;> rfl

/-! ### The issue of a legal word -/

/-- Issuing a legal word runs its command (R101). -/
theorem issue_of_ok {w : Word} {i : Instr} (h : decodeWord w = .ok i) (s : State) : issue w s = exec i s := by
  rcases issue_cases w s with ⟨j, hj, hs⟩ | ⟨e, he, -⟩
  · cases hj.symm.trans h
    exact hs
  · cases he.symm.trans h

/-- A step that meets a write of a legal word to `CMD` runs its command (R69, R101). -/
theorem step_of_cmd_write {s : State} {w : Word} {i : Instr} {rest : List HostOp}
    (hh : s.host = .regWrite 0x10 w :: rest) (hw : decodeWord w = .ok i) :
    step s = onNext (fun t => t.withReply .ack) (exec i { s with host := rest }) :=
  calc step s = hostRegWrite 0x10 w { s with host := rest } := step_cons hh
    _ = onNext (fun t => t.withReply .ack) (exec i { s with host := rest }) := by rw [hostRegWrite_cmd, issue_of_ok hw]

/-- The table's numbering of a word is the word's own (R80). -/
theorem tableWord_toNat (w : Word) : tableWord 32 w.toNat = w := by
  rw [tableWord, Nat.mod_eq_of_lt w.isLt, BitVec.ofNat_toNat, BitVec.setWidth_eq]

end Sys2Proof.Machine
end

section
/-! SUPPORT. The statements about the commands (spec/40_commands.md R100 to R111). -/

namespace Sys2Proof.Machine

/-! ### CONFIGURE and CLEAR -/

/-- Settles O12: the checks pass, and their result is what CONFIGURE writes. -/
theorem configureCompletes : Obligations.ConfigureCompletes := by
  intro s m b hunit hacc
  obtain ⟨table, hok, hinv⟩ := State.construct_of_accepted hunit hacc
  have hexec := exec_configure_eq s
  rw [hok] at hexec
  exact ⟨_, hexec, rfl, rfl, rfl, hinv⟩

/-- Settles O13: each cause, where none before it applies, is the answer of the checks. -/
theorem configureFailuresInOrder : Obligations.ConfigureFailuresInOrder := fun _ =>
  ⟨fun hc => exec_configure_of_error (State.construct_of_reserved hc),
    fun hr => exec_configure_of_error (State.construct_of_radixRejected hr),
    fun hc hr ha => exec_configure_of_error (State.construct_of_alphabetRejected hc hr ha)⟩

/-- Settles O16, by the frame of what CONFIGURE writes. -/
theorem configureFrame : Obligations.ConfigureFrame := by
  intro s t h
  obtain rfl := next_inj ((exec_configure_eq s).symm.trans h)
  exact ⟨s.byteAt_configureWith _, s.configureWith_frame _⟩

/-- Settles O17: the checks read the five items alone, so both blocks have one result; and CONFIGURE writes none of the
five, so the second run has the result of the first and writes it again. -/
theorem constructionIsDeterministic : Obligations.ConstructionIsDeterministic := by
  refine ⟨fun s s' t t' hr ha hc hp hs h h' => ?_, fun s t h => ?_⟩
  · obtain rfl := next_inj ((exec_configure_eq s).symm.trans h)
    obtain rfl := next_inj ((exec_configure_eq s').symm.trans h')
    rw [State.construct_congr hr ha hc hp hs]
    exact ⟨s'.configureWith_status_congr s _, by simp, by simp, s.configureWith_rlut_congr s'⟩
  · obtain rfl := next_inj ((exec_configure_eq s).symm.trans h)
    have hagain := exec_configure_eq (s.configureWith s.construct)
    rw [State.construct_configureWith, State.configureWith_idem] at hagain
    exact ⟨_, hagain, rfl, rfl, rfl, fun _ => rfl⟩

/-- Settles O18: CLEAR has one answer, whose fields are those of the reset state or the old ones. -/
theorem clearResetsRegistersOnly : Obligations.ClearResetsRegistersOnly := by
  refine ⟨decodeWord_encodeInstr (i := .clear) rfl, decodeWord_error_of_illegal (.inr (by decide)), fun s =>
    ⟨_, execClear_eq s, State.succeeded_done _ 0, rfl, fun r hi ho => ?_, rfl, rfl, fun sp a => ?_,
      rfl, rfl, rfl, rfl, rfl, rfl, rfl⟩⟩
  · cases r with
    | capIbuf => exact absurd rfl hi
    | capObuf => exact absurd rfl ho
    | radix | alen | cfg | padsym | cmd | status | olen | errpos => rfl
  · cases sp <;> rfl

/-! ### ENCODE and DECODE -/

/-- Settles O20: the two commands change nothing but the result, and a failed pre-check only reports. -/
theorem encodeDecodeFrame : Obligations.EncodeDecodeFrame := by
  intro s t n i hi h
  refine ⟨?_, fun hfail a => ?_⟩
  · rcases hi with rfl | rfl <;> exact exec_sameButResult h nofun nofun
  · obtain ⟨e, he⟩ := State.preCheck_some hfail
    obtain rfl := next_inj ((exec_of_preCheck_some hi he).symm.trans h)
    exact s.byteAt_raiseErr e 0 .obuf a

/-! ### The step of a command -/

/-- Settles O5: a write of a legal word to `CMD` runs its command, `withFetchWord` places the command's own word, and an
empty sequence leaves the step nothing to do. -/
theorem stepRunsDecodedCommand : Obligations.StepRunsDecodedCommand := by
  refine ⟨fun s w i rest hh hw => step_of_cmd_write hh hw, fun s i hwf => ?_, fun s hidle => ?_⟩
  · have hw : decodeWord (tableWord 32 (encodeInstr i).toNat) = .ok i := by
      rw [tableWord_toNat, decodeWord_encodeInstr hwf]
    exact step_of_cmd_write (s := s.withFetchWord 32 (encodeInstr i).toNat) rfl hw
  · unfold step
    rw [hidle]

end Sys2Proof.Machine
end

section
/-! SUPPORT. Blocks, groups and pads as numbers (spec/41_bitpack.md R130, R132, R137): a block is a whole number of bytes and
of symbols, which groups an input has, and the one formula for the pad count. -/

namespace Sys2Proof.Machine

/-! ### The block -/

theorem blockSymbols_mul (b : Nat) : blockSymbols b * b = blockBits b := Nat.div_mul_cancel (Nat.dvd_lcm_right 8 b)

theorem mul_blockBytes (b : Nat) : 8 * blockBytes b = blockBits b := Nat.mul_div_cancel' (Nat.dvd_lcm_left 8 b)

theorem blockBits_pos {b : Nat} (hb : 0 < b) : 0 < blockBits b := Nat.lcm_pos (by decide) hb

theorem blockSymbols_pos {b : Nat} (hb : 0 < b) : 0 < blockSymbols b :=
  Nat.div_pos (Nat.le_of_dvd (blockBits_pos hb) (Nat.dvd_lcm_right 8 b)) hb

theorem blockBytes_pos {b : Nat} (hb : 0 < b) : 0 < blockBytes b :=
  Nat.div_pos (Nat.le_of_dvd (blockBits_pos hb) (Nat.dvd_lcm_left 8 b)) (by decide)

/-- The window of the lanes is wide enough for every block (R130). -/
theorem blockBits_le {b : Nat} (h1 : 1 ≤ b) (h8 : b ≤ 8) : blockBits b ≤ 56 := by
  interval_cases b <;> decide

/-! ### Counting groups and pads -/

/-- Piece `j` is one of the ceil(a/b) exactly when it starts before the end. -/
theorem lt_ceilDiv_iff {a b j : Nat} (hb : 0 < b) : j < ceilDiv a b ↔ j * b < a := by
  unfold ceilDiv
  rw [Nat.lt_iff_add_one_le, Nat.le_div_iff_mul_le hb, Nat.succ_mul]
  omega

/-- The formula of R132 is the distance to the next multiple of Q. -/
theorem pads_eq_sub {q d m : Nat} (hle : d ≤ m * q) (hlt : m * q < d + q) : (q - d % q) % q = m * q - d := by
  obtain ⟨c, hc⟩ := Nat.exists_eq_add_of_le hle
  rw [hc, Nat.add_sub_cancel_left]
  have hq : 0 < q := by omega
  have hmod := Nat.mod_lt d hq
  have hsum : (d % q + c) % q = 0 := by rw [Nat.mod_add_mod, ← hc, Nat.mul_mod_left]
  rcases Nat.lt_or_ge (d % q + c) q with h | h
  · rw [Nat.mod_eq_of_lt h] at hsum
    rw [show d % q = 0 by omega, Nat.sub_zero, Nat.mod_self]
    omega
  · rw [Nat.mod_eq_sub_mod h, Nat.mod_eq_of_lt (by omega)] at hsum
    rw [show q - d % q = c by omega, Nat.mod_eq_of_lt (by omega)]

/-- The groups of an input fill whole blocks exactly when the last of them is filled by the input (R132). -/
theorem groupCount_mod_blockSymbols {b : Nat} (h1 : 1 ≤ b) (h8 : b ≤ 8) (n : Nat) :
    groupCount b n % blockSymbols b = 0 ↔ 8 * n % b = 0 := by
  obtain ⟨hlo, hhi⟩ := groupCount_mul_ge n h1
  rw [← Nat.dvd_iff_mod_eq_zero, ← Nat.dvd_iff_mod_eq_zero]
  constructor
  · intro h
    have hblock : blockBits b ∣ groupCount b n * b := blockSymbols_mul b ▸ Nat.mul_dvd_mul_right h b
    obtain ⟨k, hk⟩ : 8 ∣ groupCount b n * b := (Nat.dvd_lcm_left 8 b).trans hblock
    rw [show 8 * n = groupCount b n * b by omega]
    exact Nat.dvd_mul_left ..
  · intro h
    have hfull : groupCount b n * b = 8 * n := by
      obtain ⟨c, hc⟩ := h
      rw [hc, Nat.mul_comm b c] at hlo hhi ⊢
      have hle : groupCount b n < c + 1 := Nat.lt_of_mul_lt_mul_right (Nat.succ_mul c b ▸ hhi)
      exact le_antisymm (Nat.mul_le_mul_right b (Nat.le_of_lt_succ hle)) hlo
    have hblock : blockBits b ∣ groupCount b n * b :=
      Nat.lcm_dvd (hfull ▸ Nat.dvd_mul_right 8 n) (Nat.dvd_mul_left ..)
    exact Nat.dvd_of_mul_dvd_mul_right h1 (blockSymbols_mul b ▸ hblock)

/-- The three cases of R132 are one formula. -/
theorem padCount_eq {b : Nat} (h1 : 1 ≤ b) (h8 : b ≤ 8) (padEn : Bool) (n : Nat) :
    padCount padEn b n (groupCount b n) =
      if padEn = true then (blockSymbols b - groupCount b n % blockSymbols b) % blockSymbols b else 0 := by
  have hiff := groupCount_mod_blockSymbols h1 h8 n
  unfold padCount
  cases padEn with
  | false => rfl
  | true =>
    rw [if_neg (by decide), if_pos rfl]
    split
    · rw [hiff.2 ‹_›, Nat.sub_zero, Nat.mod_self]
    · have hne : groupCount b n % blockSymbols b ≠ 0 := mt hiff.1 ‹_›
      exact (Nat.mod_eq_of_lt (Nat.sub_lt (blockSymbols_pos h1) (Nat.pos_of_ne_zero hne))).symm

/-- The encoder's pad count is the one the strict decoder expects (R132, R137). -/
theorem padCount_eq_padsAfter {b : Nat} (h1 : 1 ≤ b) (h8 : b ≤ 8) (padEn : Bool) (n : Nat) :
    padCount padEn b n (groupCount b n) = if padEn = true then padsAfter b (groupCount b n) else 0 := by
  rw [padCount_eq h1 h8, padsAfter_groupCount h1 h8]

end Sys2Proof.Machine
end

section
/-! SUPPORT. A bit stream cut into groups (spec/41_bitpack.md R131) and joined again (R136). -/

namespace Sys2Proof.Machine

/-- The first `d` groups of `w` bits of a stream, each as a number. -/
def bitGroups (w : Nat) (bit : Nat → Bool) (d : Nat) : List Nat :=
  (List.range d).map (fun j => bitsValue bit (j * w) w)

@[simp] theorem length_bitGroups (w : Nat) (bit : Nat → Bool) (d : Nat) : (bitGroups w bit d).length = d := by
  simp [bitGroups]

theorem bitGroups_lt (w : Nat) (bit : Nat → Bool) (d : Nat) : ∀ v ∈ bitGroups w bit d, v < 2 ^ w := by
  intro v hv
  obtain ⟨j, -, rfl⟩ := List.mem_map.1 hv
  exact bitsValue_lt ..

/-- The groups of a stream write the stream. -/
theorem valueBit_bitGroups {w t d : Nat} (bit : Nat → Bool) (hw : 0 < w) (ht : t < d * w) :
    valueBit w (bitGroups w bit d) t = bit t := by
  have hj : t / w < d := (Nat.div_lt_iff_lt_mul hw).2 ht
  have hmod := Nat.mod_lt t hw
  have hdiv := Nat.div_add_mod' t w
  have hget : (bitGroups w bit d).getD (t / w) 0 = bitsValue bit (t / w * w) w := by
    simp [bitGroups, List.getD_eq_getElem?_getD, hj]
  rw [valueBit, hget, testBit_bitsValue _ _ _ _ (by omega)]
  congr 1
  omega

/-- The bytes of a stream that begins as a byte sequence's are that sequence. -/
theorem map_bitsValue_eq {x : List Byte} {bit : Nat → Bool} (h : ∀ t < 8 * x.length, bit t = streamBit x t) :
    (List.range x.length).map (fun j => BitVec.ofNat 8 (bitsValue bit (8 * j) 8)) = x := by
  refine List.ext_getElem (by simp) fun j hj hj' => ?_
  have hbyte : bitsValue bit (8 * j) 8 = x[j].toNat := by
    rw [← bitsValue_streamBit x j hj']
    exact bitsValue_congr fun k hk => h _ (by omega)
  simp [hbyte]

/-- The whole bytes of the groups of an input are the input, and its padding is zero bits (R131, R139). -/
theorem unpackValues_bitGroups {b : Nat} (h1 : 1 ≤ b) (h8 : b ≤ 8) (lenient : Bool) (x : List Byte) :
    unpackValues b lenient (bitGroups b (streamBit x) (groupCount b x.length)) = .ok x := by
  obtain ⟨hlo, hhi⟩ := groupCount_mul_ge x.length h1
  have hbytes : groupCount b x.length * b / 8 = x.length := by omega
  have hstream : ∀ t < groupCount b x.length * b,
      valueBit b (bitGroups b (streamBit x) (groupCount b x.length)) t = streamBit x t :=
    fun t ht => valueBit_bitGroups _ h1 ht
  rw [unpackValues_ok h1 (bitGroups_lt b _ _) (.inr fun t ht ht' => ?_), length_bitGroups, hbytes,
    map_bitsValue_eq fun t ht => hstream t (by omega)]
  rw [length_bitGroups] at ht ht'
  rw [hstream t ht', streamBit_past x t (by omega)]

/-- `BPEncode` spells the groups of the input's stream and appends the pads of R132. -/
theorem State.bpEncode_eq {s : State} (hw : 0 < s.width) (x : List Byte) :
    s.bpEncode x = (bitGroups s.width (streamBit x) (groupCount s.width x.length)).map s.symAt ++
      List.replicate (padCount (cfgPadEn s.cfg) s.width x.length (groupCount s.width x.length)) s.padsym := by
  have hgroups : (List.range (groupCount s.width x.length)).map (fun j => s.symAt (groupAt s.width x j)) =
      (bitGroups s.width (streamBit x) (groupCount s.width x.length)).map s.symAt := by
    rw [bitGroups, List.map_map]
    refine List.map_congr_left fun j hj => ?_
    rw [groupAt_eq_bitsValue hw (List.mem_range.1 hj), Function.comp]
  rw [← hgroups]
  rfl

/-- The text of an input has its groups' symbols and its pads. -/
theorem State.length_bpEncode (s : State) (x : List Byte) : (s.bpEncode x).length =
    groupCount s.width x.length + padCount (cfgPadEn s.cfg) s.width x.length (groupCount s.width x.length) := by
  simp [State.bpEncode]

end Sys2Proof.Machine
end

section
/-! SUPPORT. `BPDecode` of a text that is a part and its trailing pads (spec/41_bitpack.md R136 to R139). -/

namespace Sys2Proof.Machine

/-! ### The two checks, in their order -/

section
variable {s : State} {text pads : List Byte} (hpads : ∀ c ∈ pads, s.cls c = .pad)
  (hlast : ∀ c ∈ text.getLast?, s.cls c ≠ .pad)
include hpads hlast

/-- A pad count that `checkpad` rejects is the error, whatever the text before it holds (R137, R201). -/
theorem State.bpDecode_of_padCount_bad (hbad : s.padCountOk text.length pads.length = false) :
    s.bpDecode (text ++ pads) = .error { kind := .invalidPadding, pos := text.length } := by
  simp only [State.bpDecode, State.trailingPads_eq hpads hlast, List.length_append, Nat.add_sub_cancel, if_pos hbad]

/-- With the pad count accepted a bad symbol is the error (R138). -/
theorem State.bpDecode_of_symbol_bad (hok : s.padCountOk text.length pads.length = true) {e : CmdError}
    (he : s.mapSymbols text 0 = .error e) : s.bpDecode (text ++ pads) = .error e := by
  simp [State.bpDecode, State.trailingPads_eq hpads hlast, hok, he]

/-- With the pad count accepted and every symbol known, the values are joined and cut into bytes (R139). -/
theorem State.bpDecode_of_values (hok : s.padCountOk text.length pads.length = true) {vs : List Nat}
    (hvs : s.mapSymbols text 0 = .ok vs) :
    s.bpDecode (text ++ pads) = unpackValues s.width (cfgLenient s.cfg) vs := by
  simp [State.bpDecode, State.trailingPads_eq hpads hlast, hok, hvs]

end

/-! ### A ready block -/

section
variable {s : State} (h : s.Ready .bpc)
include h

theorem State.Ready.cls_pad {c : Byte} : s.cls c = .pad ↔ s.IsPad c := by
  obtain ⟨-, hmode, -⟩ := h
  rw [State.cls_eq_pad]
  exact and_iff_right hmode

/-- The configured pad symbol is one. -/
theorem State.Ready.cls_padsym (hp : cfgPadEn s.cfg = true) : s.cls s.padsym = .pad := h.cls_pad.2 ⟨hp, rfl⟩

/-- A spelled text does not end in a pad. -/
theorem State.Ready.last_not_pad {text : List Byte} {vs : List Nat} (hs : s.Spells text vs) :
    ∀ c ∈ text.getLast?, s.cls c ≠ .pad := by
  intro c hc hpad
  have hmem : s.cls c ∈ text.map s.cls := List.mem_map_of_mem (List.mem_of_getLast? hc)
  rw [h.spells_iff.1 hs, hpad] at hmem
  simp at hmem

/-- A text that spells `vs`, with pads whose count is acceptable, decodes as the values do. -/
theorem State.Ready.bpDecode_spelled {text pads : List Byte} {vs : List Nat} (hs : s.Spells text vs)
    (hpads : ∀ c ∈ pads, s.IsPad c)
    (hcount : cfgPadEn s.cfg = true → cfgPadStrict s.cfg = true → pads.length = padsAfter s.width vs.length) :
    s.bpDecode (text ++ pads) = unpackValues s.width (cfgLenient s.cfg) vs :=
  State.bpDecode_of_values (fun c hc => h.cls_pad.2 (hpads c hc)) (h.last_not_pad hs)
    (State.padCountOk_iff.2 (hs.1 ▸ hcount)) (State.mapSymbols_eq_ok.2 (h.spells_iff.1 hs))

/-- `BPDecode` inverts `BPEncode` (R145). -/
theorem State.Ready.bpDecode_bpEncode (x : List Byte) : s.bpDecode (s.bpEncode x) = .ok x := by
  obtain ⟨h1, h8, hradix⟩ := h.width
  have hcount := padCount_eq_padsAfter h1 h8 (cfgPadEn s.cfg) x.length
  rw [State.bpEncode_eq h1, h.bpDecode_spelled (State.spells_map_symAt (hradix ▸ bitGroups_lt s.width _ _)) (fun c hc => ?_)
    (fun hp _ => ?_)]
  · exact unpackValues_bitGroups h1 h8 _ x
  · obtain ⟨hne, rfl⟩ := List.mem_replicate.1 hc
    refine ⟨?_, rfl⟩
    by_contra hp
    exact hne (hcount.trans (if_neg hp))
  · rw [List.length_replicate, length_bitGroups, hcount, if_pos hp]

end

end Sys2Proof.Machine
end

section
/-! SUPPORT. Digits taken from a number and read again, and the round trip of the BRC unit (spec/42_bigradix.md R161, R164,
R169). -/

namespace Sys2Proof.Machine

/-! ### Digits of the number that digits write -/

/-- The loop of R161 gives back the digits that write the number, when the first of them is not 0. -/
theorem digits_digitsValue {base fuel : Nat} {ds : List Nat} (hd : ∀ d ∈ ds, d < base) (h0 : ds.head? ≠ some 0)
    (hfuel : ds.length ≤ fuel) : digits base fuel (digitsValue base ds) = ds.reverse := by
  induction ds using List.reverseRecOn generalizing fuel with
  | nil => cases fuel <;> rfl
  | append_singleton ds d ih =>
    have hdlt : d < base := hd d (by simp)
    have hds : ∀ e ∈ ds, e < base := fun e he => hd e (List.mem_append_left _ he)
    have hhead : ds.head? ≠ some 0 := by
      cases ds with
      | nil => simp
      | cons e es => exact h0
    have hne : digitsValue base (ds ++ [d]) ≠ 0 := fun hz => by
      have := digitsValue_inj (es := []) (by omega) hd (by simp) h0 (by simp) hz
      simp at this
    have hval : digitsValue base (ds ++ [d]) = base * digitsValue base ds + d := by
      rw [digitsValue_append, digitsValue_cons]
      simp [Nat.mul_comm]
    obtain ⟨fuel, rfl⟩ : ∃ k, fuel = k + 1 := Nat.exists_eq_add_one.2 (by simp at hfuel; omega)
    rw [digits, if_neg hne, hval, Nat.mul_add_mod, Nat.mod_eq_of_lt hdlt, Nat.mul_add_div (by omega),
      Nat.div_eq_of_lt hdlt, Nat.add_zero, ih hds hhead (by simpa using hfuel), List.reverse_append,
      List.reverse_singleton, List.singleton_append]

/-- A number below base^n has at most n digits when the first of them is not 0. -/
theorem length_le_of_digitsValue_lt {base n : Nat} {ds : List Nat} (hb : 1 < base) (h0 : ds.head? ≠ some 0)
    (h : digitsValue base ds < base ^ n) : ds.length ≤ n := by
  cases ds with
  | nil => exact Nat.zero_le n
  | cons d ds => exact (Nat.pow_lt_pow_iff_right hb).1 ((le_digitsValue (by simpa using h0)).trans_lt h)

/-! ### Leading zeros -/

theorem leadingZeros_replicate_append {z : Nat} {ds : List Nat} (h0 : ds.head? ≠ some 0) :
    leadingZeros (List.replicate z 0 ++ ds) = z := by
  have hds : ds.takeWhile (fun v => v == 0) = [] := by
    cases ds with
    | nil => rfl
    | cons d ds => exact List.takeWhile_cons_of_neg (by simpa using h0)
  rw [leadingZeros, List.takeWhile_append_of_pos (by simp), hds, List.append_nil, List.length_replicate]

/-- A byte sequence is its leading zero bytes and then the rest. -/
theorem replicate_leadingZeros_append_bytes (x : List Byte) :
    List.replicate (leadingZeros (x.map BitVec.toNat)) 0 ++ x.drop (leadingZeros (x.map BitVec.toNat)) = x := by
  have h := congrArg (List.map (BitVec.ofNat 8)) (replicate_leadingZeros_append (x.map BitVec.toNat))
  simpa [← List.map_drop, Function.comp_def] using h

/-! ### The BRC unit -/

/-- The bytes of zeros and digits are as many zero bytes and the minimal bytes of the number (R164). -/
theorem State.digitBytes_replicate_append (s : State) {z : Nat} {ds : List Nat} (h0 : ds.head? ≠ some 0) :
    s.digitBytes (List.replicate z 0 ++ ds) =
      List.replicate z 0 ++ (digits 256 ds.length (digitsValue s.base ds)).reverse.map (BitVec.ofNat 8) := by
  simp [State.digitBytes, leadingZeros_replicate_append h0]

/-- A text that spells `vs` decodes to their bytes (R164). -/
theorem State.Ready.brDecode_spelled {s : State} (h : s.Ready .brc) {text : List Byte} {vs : List Nat}
    (hs : s.Spells text vs) : s.brDecode text = .ok (s.digitBytes vs) := by
  unfold State.brDecode
  rw [State.mapDigits_eq_ok.2 (h.spells_iff.1 hs)]

/-- The digits that `BREncode` takes of the bytes after the leading zeros (R161). -/
def State.bytesDigits (s : State) (y : List Byte) : List Nat := (digits s.base (8 * y.length) (bytesValue y)).reverse

section
variable {s : State} (h : s.Ready .brc) (y : List Byte)
include h

theorem State.Ready.bytesDigits_lt : ∀ d ∈ s.bytesDigits y, d < s.base := fun d hd =>
  digits_lt (by have := h.base; omega) _ _ d (List.mem_reverse.1 hd)

theorem State.Ready.head?_bytesDigits : (s.bytesDigits y).head? ≠ some 0 :=
  head?_reverse_digits h.base.1 _ _ (by rw [pow_mul]; exact bytesValue_lt y)

theorem State.Ready.digitsValue_bytesDigits : digitsValue s.base (s.bytesDigits y) = bytesValue y :=
  digitsValue_digits h.base.1 _ _ (by rw [pow_mul]; exact bytesValue_lt y)

/-- The minimal bytes of the number that bytes without leading zeros write are those bytes. -/
theorem State.Ready.digits_bytesDigits (hy : (y.map BitVec.toNat).head? ≠ some 0) :
    (digits 256 (s.bytesDigits y).length (digitsValue s.base (s.bytesDigits y))).reverse.map (BitVec.ofNat 8) = y := by
  obtain ⟨h2, h255⟩ := h.base
  have hbytes : ∀ d ∈ y.map BitVec.toNat, d < 256 := by
    intro d hd
    obtain ⟨c, -, rfl⟩ := List.mem_map.1 hd
    exact c.isLt
  have hvalue : digitsValue 256 (y.map BitVec.toNat) < 256 ^ (s.bytesDigits y).length :=
    calc digitsValue 256 (y.map BitVec.toNat) = digitsValue s.base (s.bytesDigits y) := by
          rw [h.digitsValue_bytesDigits, bytesValue_eq_digitsValue]
      _ < s.base ^ (s.bytesDigits y).length := digitsValue_lt (h.bytesDigits_lt y)
      _ ≤ 256 ^ (s.bytesDigits y).length := Nat.pow_le_pow_left (by omega) _
  rw [h.digitsValue_bytesDigits, bytesValue_eq_digitsValue,
    digits_digitsValue hbytes hy (length_le_of_digitsValue_lt (by decide) hy hvalue)]
  simp [Function.comp_def]

end

/-- `BRDecode` inverts `BREncode` (R169). -/
theorem State.Ready.brDecode_brEncode {s : State} (h : s.Ready .brc) (x : List Byte) :
    s.brDecode (s.brEncode x) = .ok x := by
  have hbase : 0 < s.base := by have := h.base; omega
  let z := leadingZeros (x.map BitVec.toNat)
  have hy : ((x.drop z).map BitVec.toNat).head? ≠ some 0 := by
    rw [List.map_drop]
    exact head?_drop_leadingZeros _
  have henc : s.brEncode x = (List.replicate z 0 ++ s.bytesDigits (x.drop z)).map s.symAt := by
    rw [List.map_append, List.map_replicate]
    rfl
  have hdigits : ∀ d ∈ List.replicate z 0 ++ s.bytesDigits (x.drop z), d < s.base := by
    intro d hd
    rcases List.mem_append.1 hd with hd | hd
    · rwa [(List.mem_replicate.1 hd).2]
    · exact h.bytesDigits_lt _ d hd
  rw [henc, h.brDecode_spelled (State.spells_map_symAt hdigits), s.digitBytes_replicate_append (h.head?_bytesDigits _),
    h.digits_bytesDigits _ hy, replicate_leadingZeros_append_bytes]

end Sys2Proof.Machine
end

section
/-! SUPPORT. How ENCODE and DECODE of a ready block end (spec/40_commands.md R108, R109), and the input of a DECODE as a
text and its trailing pads. -/

namespace Sys2Proof.Machine

/-! ### The unit that `STATUS.MODE` selects -/

theorem State.Ready.encodeText_bpc {s : State} (h : s.Ready .bpc) (x : List Byte) : s.encodeText x = s.bpEncode x := by
  obtain ⟨-, hmode, -⟩ := h
  unfold State.encodeText
  rw [hmode]

theorem State.Ready.decodeText_bpc {s : State} (h : s.Ready .bpc) (text : List Byte) :
    s.decodeText text = s.bpDecode text := by
  obtain ⟨-, hmode, -⟩ := h
  unfold State.decodeText
  rw [hmode]

/-- Decoding inverts encoding in either unit (R145, R169). -/
theorem State.Ready.decodeText_encodeText {s : State} {m : Mode} (h : s.Ready m) (x : List Byte) :
    s.decodeText (s.encodeText x) = .ok x := by
  obtain ⟨-, hmode, -⟩ := id h
  unfold State.decodeText State.encodeText
  rw [hmode]
  cases m with
  | bpc => exact h.bpDecode_bpEncode x
  | brc => exact h.brDecode_brEncode x

/-- A ready block is ready after ENCODE and DECODE, and with another input. -/
theorem State.Ready.after_result {s t : State} {m : Mode} (h : s.Ready m) (hst : s.SameButResult t) (ib : Memory) :
    State.Ready { t with ibuf := ib } m := by
  obtain ⟨hradix, halen, hcfg, hpad, -, -, hvalid, hmode, hbits, hrlut, hsym, -⟩ := hst
  obtain ⟨hv, hm, hheld⟩ := h
  refine ⟨hvalid.trans hv, hmode.trans hm, ?_⟩
  have hcon : State.construct { t with ibuf := ib } = s.construct :=
    State.construct_congr hradix halen hcfg hpad fun i _ => hsym i
  rw [State.ConfigHeld, hcon, hheld, hmode, hbits, hrlut]

/-- A configured block that meets the invariant is ready. -/
theorem State.Inv.ready {s : State} (h : s.Inv) (hv : s.status.cfgValid = true) : s.Ready s.status.mode := by
  obtain ⟨-, -, ⟨hheld, -⟩, -⟩ := h
  exact ⟨hv, rfl, hheld hv⟩

/-! ### Delivery -/

/-- The two ends of a command that delivers a result (R108, R109). -/
theorem State.deliver_ends {s : State} {text : List Byte} {o : Host.Outcome State Fault Refusal}
    (h : o = .next (s.deliver text)) :
    (text.length ≤ s.obufBytes → ∃ t, o = .next t ∧ t.Succeeded ∧ t.Holds text ∧ s.SameButResult t) ∧
    (s.obufBytes < text.length → o = .next (s.failed .outputOverflow 0)) := by
  refine ⟨fun hfit => ⟨_, h, ?_, ?_, s.sameButResult_deliver text⟩, fun hover => ?_⟩
  · rw [State.deliver_fits hfit]
    exact State.succeeded_done _ _
  · rw [State.deliver_fits hfit]
    exact State.holds_done hfit
  · rw [h, State.deliver_overflow hover]

/-- An ENCODE that succeeded has delivered its text whole. -/
theorem execEncode_holds {s t : State} {n : Nat} (h : execEncode n s = .next t) (ht : t.status.err = .noError) :
    t.Holds (s.encodeText (s.input n)) := by
  rcases execEncode_cases n s with ⟨-, hx⟩ | ⟨-, -, hx⟩ | ⟨-, -, hx⟩ <;> obtain rfl := next_inj (hx.symm.trans h)
  · cases ht
  · cases ht
  · rcases s.deliver_cases (s.encodeText (s.input n)) with ⟨-, hd⟩ | ⟨hfit, hd⟩ <;> rw [hd] at ht ⊢
    · cases ht
    · exact State.holds_done hfit

/-- The input reads as the sequence whose bytes `IBUF` lists. -/
theorem State.input_eq_of_find {s : State} {x : List Byte}
    (h : ∀ i < x.length, Memory.find s.ibuf i = some (x.getD i 0)) : s.input x.length = x := by
  refine List.ext_getElem (s.length_input _) fun i hi hi' => ?_
  rw [State.getElem_input, State.ibufAt, State.byteAt, State.memory_ibuf, h i hi', Option.getD_some,
    List.getD_eq_getElem _ _ hi']

/-! ### A text and its trailing pads in `IBUF` -/

/-- The `p` bytes of `IBUF` from index `d` on. -/
def State.inputFrom (s : State) (d p : Nat) : List Byte := (List.range p).map (fun j => s.ibufAt (d + j))

@[simp] theorem State.length_inputFrom (s : State) (d p : Nat) : (s.inputFrom d p).length = p := by
  simp [State.inputFrom]

theorem State.input_add (s : State) (d p : Nat) : s.input (d + p) = s.input d ++ s.inputFrom d p := by
  simp [State.input, State.inputFrom, List.range_add, Function.comp_def]

theorem State.isPad_inputFrom {s : State} {d p : Nat} (h : ∀ i, d ≤ i → i < d + p → s.IsPad (s.ibufAt i)) :
    ∀ c ∈ s.inputFrom d p, s.IsPad c := by
  intro c hc
  obtain ⟨j, hj, rfl⟩ := List.mem_map.1 hc
  have := List.mem_range.1 hj
  exact h _ (by omega) (by omega)

theorem State.Ready.input_last_not_pad {s : State} (h : s.Ready .bpc) {d : Nat}
    (hl : 0 < d → ¬ s.IsPad (s.ibufAt (d - 1))) : ∀ c ∈ (s.input d).getLast?, s.cls c ≠ .pad := by
  intro c hc
  obtain ⟨hne, rfl⟩ := List.mem_getLast?_eq_getLast hc
  have hd : 0 < d := by simpa [State.length_input] using List.length_pos_iff.2 hne
  rw [List.getLast_eq_getElem, State.getElem_input, State.length_input, Ne, h.cls_pad]
  exact hl hd

/-- DECODE of a text that spells `vs` and ends in acceptable pads does what steps 3 and 4 of R136 do. -/
theorem State.Ready.decodeText_input_spelled {s : State} (h : s.Ready .bpc) {vs : List Nat} {p : Nat}
    (hs : s.Spells (s.input vs.length) vs) (hp : ∀ i, vs.length ≤ i → i < vs.length + p → s.IsPad (s.ibufAt i))
    (hcount : cfgPadEn s.cfg = true → cfgPadStrict s.cfg = true → p = padsAfter s.width vs.length) :
    s.decodeText (s.input (vs.length + p)) = unpackValues s.width (cfgLenient s.cfg) vs := by
  rw [h.decodeText_bpc, State.input_add]
  exact h.bpDecode_spelled hs (State.isPad_inputFrom hp) (by rwa [State.length_inputFrom])

end Sys2Proof.Machine
end

section
/-! SUPPORT. Decoding sees the classes of the codes alone (spec/40_commands.md R105), pads after any text
(spec/41_bitpack.md R146), and the empty sequence (R143, spec/42_bigradix.md R168). -/

namespace Sys2Proof.Machine

/-! ### Decoding depends on the classes of the codes -/

section
variable {s : State}

/-- The pads of step 1 of R136 are counted on the classes. -/
theorem State.trailingPads_eq_classes (s : State) (text : List Byte) :
    s.trailingPads text = ((text.map s.cls).reverse.takeWhile (fun k => k == .pad)).length := by
  rw [← List.map_reverse, List.takeWhile_map, List.length_map]
  rfl

theorem State.mapSymbols_congr_classes {text text' : List Byte} (h : text.map s.cls = text'.map s.cls) (i : Nat) :
    s.mapSymbols text i = s.mapSymbols text' i := by
  induction text generalizing text' i with
  | nil => rw [List.map_eq_nil_iff.1 h.symm]
  | cons c cs ih =>
    obtain ⟨c', cs', rfl, hc, hcs⟩ := List.map_eq_cons_iff.1 h.symm
    simp only [State.mapSymbols, hc, ih hcs.symm]

theorem State.mapDigits_congr_classes {text text' : List Byte} (h : text.map s.cls = text'.map s.cls) (i : Nat) :
    s.mapDigits text i = s.mapDigits text' i := by
  induction text generalizing text' i with
  | nil => rw [List.map_eq_nil_iff.1 h.symm]
  | cons c cs ih =>
    obtain ⟨c', cs', rfl, hc, hcs⟩ := List.map_eq_cons_iff.1 h.symm
    simp only [State.mapDigits, hc, ih hcs.symm]

theorem State.bpDecode_congr_classes {text text' : List Byte} (h : text.map s.cls = text'.map s.cls) :
    s.bpDecode text = s.bpDecode text' := by
  have hlen : text.length = text'.length := by simpa using congrArg List.length h
  have hsyms : ∀ d, s.mapSymbols (text.take d) 0 = s.mapSymbols (text'.take d) 0 := fun d =>
    State.mapSymbols_congr_classes (by rw [List.map_take, List.map_take, h]) 0
  simp only [State.bpDecode, State.trailingPads_eq_classes, h, hlen, hsyms]

theorem State.brDecode_congr_classes {text text' : List Byte} (h : text.map s.cls = text'.map s.cls) :
    s.brDecode text = s.brDecode text' := by
  unfold State.brDecode
  rw [State.mapDigits_congr_classes h]

/-- Under `CFG.CASE_INS` = 1 the case of a letter does not enter its class (R9). -/
theorem State.map_cls_congr_fold (hci : cfgCaseIns s.cfg = true) {text text' : List Byte}
    (h : text.map fold = text'.map fold) : text.map s.cls = text'.map s.cls := by
  have hlen : text.length = text'.length := by simpa using congrArg List.length h
  refine List.ext_getElem (by simpa using hlen) fun i hi hi' => ?_
  have hfold : fold (text[i]'(by simpa using hi)) = fold (text'[i]'(by simpa using hi')) := by
    have := List.getElem_of_eq h (i := i) (by simpa using hi)
    rwa [List.getElem_map, List.getElem_map] at this
  simp only [List.getElem_map, State.cls, norm, hci, if_true, hfold]

end

/-! ### Pads after any text -/

theorem State.trailingPads_append {s : State} {pads : List Byte} (hp : ∀ c ∈ pads, s.cls c = .pad) (text : List Byte) :
    s.trailingPads (text ++ pads) = s.trailingPads text + pads.length := by
  unfold State.trailingPads
  rw [List.reverse_append, List.takeWhile_append_of_pos (fun c hc => by simpa using hp c (List.mem_reverse.1 hc)),
    List.length_append, List.length_reverse, Nat.add_comm]

/-- Where the policy is not strict further pads change nothing (R137, R146). -/
theorem State.bpDecode_append_of_not_strict {s : State} (hns : cfgPadStrict s.cfg = false) {pads : List Byte}
    (hp : ∀ c ∈ pads, s.cls c = .pad) (text : List Byte) : s.bpDecode (text ++ pads) = s.bpDecode text := by
  have hok : ∀ d p, s.padCountOk d p = true := fun d p =>
    State.padCountOk_iff.2 fun _ hs => by rw [hns] at hs; cases hs
  simp only [State.bpDecode, State.trailingPads_append hp, List.length_append, Nat.add_sub_add_right, hok,
    List.take_append_of_le_length (Nat.sub_le text.length _)]

/-! ### The empty sequence -/

theorem groupCount_zero (b : Nat) : groupCount b 0 = 0 := by
  cases b with
  | zero => rfl
  | succ b => exact Nat.div_eq_of_lt (by omega)

theorem padsAfter_zero (b : Nat) : padsAfter b 0 = 0 := by
  unfold padsAfter
  split
  · rfl
  · rw [Nat.zero_mod, Nat.sub_zero, Nat.mod_self]

theorem State.bpEncode_nil (s : State) : s.bpEncode [] = [] := by
  rw [← List.length_eq_zero_iff, State.length_bpEncode, List.length_nil, groupCount_zero]
  simp [padCount]

theorem State.bpDecode_nil (s : State) : s.bpDecode [] = .ok [] := by
  have hok : s.padCountOk 0 0 = true := State.padCountOk_iff.2 fun _ _ => (padsAfter_zero _).symm
  calc s.bpDecode ([] ++ []) = unpackValues s.width (cfgLenient s.cfg) [] :=
        State.bpDecode_of_values (by simp) (by simp) hok rfl
    _ = .ok [] := by simp [unpackValues]

theorem State.brEncode_nil (s : State) : s.brEncode [] = [] := rfl

theorem State.brDecode_nil (s : State) : s.brDecode [] = .ok [] := rfl

theorem State.encodeText_nil (s : State) : s.encodeText [] = [] := by
  unfold State.encodeText
  split
  · exact s.bpEncode_nil
  · exact s.brEncode_nil

theorem State.decodeText_nil (s : State) : s.decodeText [] = .ok [] := by
  unfold State.decodeText
  split
  · exact s.bpDecode_nil
  · exact s.brDecode_nil

end Sys2Proof.Machine
end

section
/-! SUPPORT. The serial shifter of spec/41_bitpack.md R134 and R141 follows a bit stream: what its registers hold after the
first bits, for packing and for unpacking alike. -/

namespace Sys2Proof.Machine

/-! ### The accumulator -/

/-- Masking keeps the low bits (R130). -/
theorem toNat_and_groupMask {n w : Nat} (h : w ≤ n) (x : BitVec n) : (x &&& groupMask n w).toNat = x.toNat % 2 ^ w := by
  have hle : 2 ^ w ≤ 2 ^ n := Nat.pow_le_pow_right (by decide) h
  have hpos := Nat.two_pow_pos w
  rw [BitVec.toNat_and, groupMask, BitVec.toNat_ofNat, Nat.mod_eq_of_lt (by omega), Nat.and_two_pow_sub_one_eq_mod]

section
variable {bit : Nat → Bool} {start k c : Nat} {acc v : BitVec 15} (hacc : acc.toNat = bitsValue bit start k)
include hacc

/-- Shifting in the next `c` bits of the stream: `ACC` never needs more than its 15 bits (R134). -/
theorem toNat_shift_or (hv : v.toNat = bitsValue bit (start + k) c) (h15 : k + c ≤ 15) :
    ((acc <<< c) ||| v).toNat = bitsValue bit start (k + c) := by
  have hlt : bitsValue bit start k * 2 ^ c < 2 ^ 15 :=
    calc bitsValue bit start k * 2 ^ c < 2 ^ k * 2 ^ c :=
          Nat.mul_lt_mul_of_pos_right (bitsValue_lt ..) (Nat.two_pow_pos c)
      _ = 2 ^ (k + c) := (Nat.pow_add ..).symm
      _ ≤ 2 ^ 15 := Nat.pow_le_pow_right (by decide) h15
  rw [BitVec.toNat_or, BitVec.toNat_shiftLeft, hacc, hv, Nat.shiftLeft_eq, Nat.mod_eq_of_lt hlt, ← Nat.shiftLeft_eq,
    ← Nat.shiftLeft_add_eq_or_of_lt (bitsValue_lt ..), Nat.shiftLeft_eq, bitsValue_add]

/-- Masking `ACC` to its last `c` bits drops the bits before them from the stretch it holds. -/
theorem toNat_mask_last (h15 : k ≤ 15) (hc : c ≤ k) :
    (acc &&& groupMask 15 c).toNat = bitsValue bit (start + (k - c)) c := by
  have hmod := bitsValue_mod bit start (k - c) c
  rw [Nat.sub_add_cancel hc] at hmod
  rw [toNat_and_groupMask (hc.trans h15), hacc, hmod]

end

/-! ### Following a stream -/

theorem bitGroups_add (w : Nat) (bit : Nat → Bool) (d e : Nat) :
    bitGroups w bit (d + e) = bitGroups w bit d ++ (List.range e).map (fun j => bitsValue bit (d * w + j * w) w) := by
  simp [bitGroups, List.range_add, Function.comp_def, Nat.add_mul]

/-- The shifter after the first `n` bits of a stream: every whole group of `w` bits is out, as what `emit` makes of it, and
the bits after them are in `ACC`. -/
structure Shifter.Follows (r : Shifter) (w : Nat) (emit : Nat → Byte) (bit : Nat → Bool) (n : Nat) : Prop where
  nbits : r.nbits = n % w
  acc : r.acc.toNat = bitsValue bit (n - n % w) (n % w)
  out : r.out = (bitGroups w bit (n / w)).map emit

theorem Shifter.follows_start (w : Nat) (emit : Nat → Byte) (bit : Nat → Bool) : Shifter.start.Follows w emit bit 0 :=
  ⟨(Nat.zero_mod w).symm, by rw [Nat.zero_mod]; rfl, by rw [Nat.zero_div]; rfl⟩

/-! ### Packing (R134) -/

/-- One byte into the pack shifter is eight bits of the stream. -/
theorem State.packByte_follows {s : State} (h1 : 1 ≤ s.width) (h8 : s.width ≤ 8) {bit : Nat → Bool} {n : Nat}
    {r : Shifter} (hr : r.Follows s.width s.symAt bit n) {y : Byte} (hy : y.toNat = bitsValue bit n 8) :
    (s.packByte r y).Follows s.width s.symAt bit (n + 8) := by
  obtain ⟨hnbits, hacc, hout⟩ := hr
  have hlt := Nat.mod_lt n h1
  have hle := Nat.mod_le n s.width
  have hnext : (n % s.width + 8) % s.width = (n + 8) % s.width := Nat.mod_add_mod ..
  have hrest := Nat.mod_le (n % s.width + 8) s.width
  have hload : ((r.acc <<< 8) ||| y.setWidth 15).toNat = bitsValue bit (n - n % s.width) (n % s.width + 8) := by
    refine toNat_shift_or hacc ?_ (by omega)
    rw [BitVec.toNat_setWidth, Nat.mod_eq_of_lt (y.isLt.trans (by decide)), hy, Nat.sub_add_cancel hle]
  have hgroups : (n + 8) / s.width = n / s.width + (n % s.width + 8) / s.width := by
    rw [← Nat.mul_add_div h1, ← Nat.add_assoc, Nat.div_add_mod]
  have hbase : n - n % s.width = n / s.width * s.width := by
    have := Nat.div_add_mod' n s.width
    omega
  simp only [State.packByte, hnbits, emitGroups_eq h1 bit (n := n % s.width + 8) (by omega) hload _ _ _ le_rfl le_rfl]
  refine ⟨hnext, ?_, ?_⟩
  · rw [toNat_mask_last hload (by omega) hrest, hnext]
    congr 1
    omega
  · rw [hout, hgroups, bitGroups_add, List.map_append, List.map_map, Nat.sub_self, Nat.add_zero, hbase]
    rfl

/-- The pack shifter follows the stream of its input. -/
theorem State.foldl_packByte_follows {s : State} (h1 : 1 ≤ s.width) (h8 : s.width ≤ 8) (x : List Byte) {k : Nat}
    (hk : k ≤ x.length) :
    ((x.take k).foldl s.packByte Shifter.start).Follows s.width s.symAt (streamBit x) (8 * k) := by
  induction k with
  | zero => exact Shifter.follows_start ..
  | succ k ih =>
    rw [List.take_add_one, List.getElem?_eq_getElem hk, Option.toList_some, List.foldl_append]
    exact s.packByte_follows h1 h8 (ih (by omega)) (bitsValue_streamBit x k hk).symm

/-- Where the groups fill the stream none is left incomplete. -/
theorem groupCount_of_mod_eq_zero {b n : Nat} (hb : 0 < b) (h : 8 * n % b = 0) : groupCount b n = 8 * n / b := by
  have hdiv := Nat.div_add_mod' (8 * n) b
  refine Nat.div_eq_of_lt_le (by omega) ?_
  rw [Nat.succ_mul (8 * n / b)]
  omega

/-- Otherwise the last group is incomplete. -/
theorem groupCount_of_mod_ne_zero {b n : Nat} (hb : 0 < b) (h : 8 * n % b ≠ 0) : groupCount b n = 8 * n / b + 1 := by
  have hdiv := Nat.div_add_mod' (8 * n) b
  have hmod := Nat.mod_lt (8 * n) hb
  refine Nat.div_eq_of_lt_le ?_ ?_
  · rw [Nat.succ_mul (8 * n / b)]
    omega
  · rw [Nat.succ_mul (8 * n / b + 1), Nat.succ_mul (8 * n / b)]
    omega

/-- Flushing the pack shifter completes the symbols of the groups: the last one is padded with zero bits (R134). -/
theorem State.flush_eq {s : State} (h1 : 1 ≤ s.width) (h8 : s.width ≤ 8) {x : List Byte} {r : Shifter}
    (hr : r.Follows s.width s.symAt (streamBit x) (8 * x.length)) :
    (if 0 < r.nbits then r.out ++ [s.symAt ((r.acc <<< (s.width - r.nbits)) &&& groupMask 15 s.width).toNat] else r.out) =
      (bitGroups s.width (streamBit x) (groupCount s.width x.length)).map s.symAt := by
  obtain ⟨hnbits, hacc, hout⟩ := hr
  have hlt := Nat.mod_lt (8 * x.length) h1
  have hbase := Nat.div_add_mod' (8 * x.length) s.width
  rw [hnbits]
  split
  · rename_i hpos
    have hzero : (0#15).toNat = bitsValue (streamBit x) (8 * x.length - 8 * x.length % s.width + 8 * x.length % s.width)
        (s.width - 8 * x.length % s.width) :=
      (bitsValue_eq_zero fun k _ => streamBit_past x _ (by omega)).symm
    have hload := toNat_shift_or hacc hzero (by omega)
    rw [BitVec.or_zero, Nat.add_sub_cancel' hlt.le] at hload
    rw [toNat_mask_last hload (by omega) le_rfl, groupCount_of_mod_ne_zero h1 hpos.ne', bitGroups_add, hout,
      List.map_append, Nat.sub_self, Nat.add_zero, show 8 * x.length - 8 * x.length % s.width =
        8 * x.length / s.width * s.width by omega]
    simp
  · rw [groupCount_of_mod_eq_zero h1 (by omega), hout]

/-- The serial shifter computes `BPEncode` (R134). -/
theorem State.Ready.bpEncodeSerial_eq {s : State} (h : s.Ready .bpc) (x : List Byte) :
    s.bpEncodeSerial x = s.bpEncode x := by
  obtain ⟨h1, h8, -⟩ := h.width
  have hfollows := s.foldl_packByte_follows h1 h8 x le_rfl
  rw [List.take_length] at hfollows
  have hQ := blockSymbols_pos h1
  simp only [State.bpEncodeSerial, State.flush_eq h1 h8 hfollows]
  rw [State.bpEncode_eq h1, padCount_eq h1 h8]
  split
  · rw [padOutput_eq hQ _ _ _ (Nat.mod_lt _ hQ).le, List.length_map, length_bitGroups]
  · rw [List.replicate_zero, List.append_nil]

/-! ### Unpacking (R141) -/

/-- One value into the unpack shifter, as the body of R141's loop does it. -/
def State.pushValue (s : State) (r : Shifter) (v : Nat) : Shifter :=
  let acc := (r.acc <<< s.width) ||| BitVec.ofNat 15 v
  let nbits := r.nbits + s.width
  if 8 ≤ nbits then
    { acc := acc &&& groupMask 15 (nbits - 8), nbits := nbits - 8, out := r.out ++ [(acc >>> (nbits - 8)).setWidth 8] }
  else { r with acc := acc, nbits := nbits }

theorem State.unpackSerial_cons {s : State} {c : Byte} {v : Nat} (hc : s.cls c = .data v) (cs : List Byte) (i : Nat)
    (r : Shifter) : s.unpackSerial (c :: cs) i r = s.unpackSerial cs (i + 1) (s.pushValue r v) := by
  simp only [State.unpackSerial, hc, State.pushValue]
  split <;> rfl

/-- The loop of R141 classifies as R136 does and pushes the values. -/
theorem State.unpackSerial_eq (s : State) (text : List Byte) (i : Nat) (r : Shifter) :
    s.unpackSerial text i r = (s.mapSymbols text i).map (List.foldl s.pushValue r) := by
  induction text generalizing i r with
  | nil => rfl
  | cons c cs ih =>
    cases hc : s.cls c with
    | pad => simp only [State.unpackSerial, State.mapSymbols, hc, Except.map]
    | invalid => simp only [State.unpackSerial, State.mapSymbols, hc, Except.map]
    | data v =>
      rw [State.unpackSerial_cons hc, ih]
      simp only [State.mapSymbols, hc]
      cases s.mapSymbols cs (i + 1) <;> rfl

/-- One value into the unpack shifter is `b` bits of the stream. -/
theorem State.pushValue_follows {s : State} (h8 : s.width ≤ 8) {bit : Nat → Bool} {n : Nat} {r : Shifter}
    (hr : r.Follows 8 (BitVec.ofNat 8) bit n) {v : Nat} (hv : v = bitsValue bit n s.width) :
    (s.pushValue r v).Follows 8 (BitVec.ofNat 8) bit (n + s.width) := by
  obtain ⟨hnbits, hacc, hout⟩ := hr
  have hvlt : v < 2 ^ 15 := hv ▸ (bitsValue_lt ..).trans_le (Nat.pow_le_pow_right (by decide) (by omega))
  have hload : ((r.acc <<< s.width) ||| BitVec.ofNat 15 v).toNat = bitsValue bit (n - n % 8) (n % 8 + s.width) := by
    refine toNat_shift_or hacc ?_ (by omega)
    rw [BitVec.toNat_ofNat, Nat.mod_eq_of_lt hvlt, hv, Nat.sub_add_cancel (Nat.mod_le n 8)]
  have hbase : n - n % 8 = n / 8 * 8 := by omega
  simp only [State.pushValue, hnbits]
  split
  · have hnext : n % 8 + s.width - 8 = (n + s.width) % 8 := by omega
    have hshift := bitsValue_shiftRight bit (n - n % 8) 8 (n % 8 + s.width - 8)
    rw [show 8 + (n % 8 + s.width - 8) = n % 8 + s.width by omega] at hshift
    have hbyte : (((r.acc <<< s.width) ||| BitVec.ofNat 15 v) >>> (n % 8 + s.width - 8)).setWidth 8 =
        BitVec.ofNat 8 (bitsValue bit (n / 8 * 8 + 0 * 8) 8) := by
      refine BitVec.eq_of_toNat_eq ?_
      rw [BitVec.toNat_setWidth, BitVec.toNat_ushiftRight, hload, hshift, hbase, BitVec.toNat_ofNat, Nat.zero_mul,
        Nat.add_zero]
    refine ⟨hnext, ?_, ?_⟩
    · rw [toNat_mask_last hload (by omega) (by omega), hnext]
      congr 1
      omega
    · rw [hout, hbyte, show (n + s.width) / 8 = n / 8 + 1 by omega, bitGroups_add, List.map_append]
      rfl
  · have hnext : n % 8 + s.width = (n + s.width) % 8 := by omega
    refine ⟨hnext, ?_, ?_⟩
    · rw [hload, hnext, show n - n % 8 = n + s.width - (n + s.width) % 8 by omega]
    · rw [hout, show (n + s.width) / 8 = n / 8 by omega]

/-- Value `j` is the `b` bits of the values' stream from bit j·b. -/
theorem bitsValue_valueBit {b j : Nat} {vs : List Nat} (hj : j < vs.length) (h : vs[j] < 2 ^ b) :
    bitsValue (valueBit b vs) (j * b) b = vs[j] := by
  conv_rhs => rw [← bitsValue_testBit vs[j] b h]
  refine bitsValue_congr fun k hk => ?_
  have hdiv : (j * b + k) / b = j := Nat.div_eq_of_lt_le (by omega) (by rw [Nat.succ_mul]; omega)
  have hmod : (j * b + k) % b = k := by rw [Nat.mul_comm, Nat.mul_add_mod, Nat.mod_eq_of_lt hk]
  rw [valueBit, hdiv, hmod, List.getD_eq_getElem _ _ hj, Nat.zero_add]

/-- The unpack shifter follows the stream of the values. -/
theorem State.foldl_pushValue_follows {s : State} (h8 : s.width ≤ 8) {vs : List Nat}
    (h : ∀ v ∈ vs, v < 2 ^ s.width) {k : Nat} (hk : k ≤ vs.length) :
    ((vs.take k).foldl s.pushValue Shifter.start).Follows 8 (BitVec.ofNat 8) (valueBit s.width vs) (k * s.width) := by
  induction k with
  | zero =>
    rw [Nat.zero_mul]
    exact Shifter.follows_start ..
  | succ k ih =>
    rw [List.take_add_one, List.getElem?_eq_getElem hk, Option.toList_some, List.foldl_append, Nat.succ_mul]
    exact s.pushValue_follows h8 (ih (by omega)) (bitsValue_valueBit hk (h _ (List.getElem_mem hk))).symm

/-- The trailing bits of a list of `b`-bit values as a number: the stretch of their stream after its whole bytes (R139). -/
def trailingBits (b : Nat) (vs : List Nat) : Nat :=
  bitsValue (valueBit b vs) (vs.length * b - vs.length * b % 8) (vs.length * b % 8)

/-- Steps 3 and 4 of R136 on the stream of the values: the stretch after its whole bytes is checked, the bytes are cut. -/
theorem unpackValues_eq {b : Nat} {vs : List Nat} (hb : 0 < b) (h : ∀ v ∈ vs, v < 2 ^ b) (lenient : Bool) :
    unpackValues b lenient vs =
      if trailingBits b vs ≠ 0 ∧ lenient = false then
        .error { kind := .trailingBits, pos := 0 }
      else .ok ((bitGroups 8 (valueBit b vs) (vs.length * b / 8)).map (BitVec.ofNat 8)) := by
  split
  · rename_i hbad
    obtain ⟨hne, hstrict⟩ := hbad
    rw [Ne, trailingBits, bitsValue_eq_zero_iff, not_forall] at hne
    obtain ⟨k, hk⟩ := hne
    rw [Classical.not_imp, Bool.not_eq_false] at hk
    rw [hstrict]
    exact unpackValues_error hb h (by omega) (by omega) hk.2
  · rename_i hgood
    rw [unpackValues_ok hb h, bitGroups, List.map_map]
    · simp only [Nat.mul_comm 8]
      rfl
    · by_contra hbad
      rw [not_or, Bool.not_eq_true] at hbad
      refine hbad.2 fun t ht ht' => ?_
      have hzero := bitsValue_eq_zero_iff.1 (not_not.1 fun hne => hgood ⟨hne, hbad.1⟩)
        (t - (vs.length * b - vs.length * b % 8)) (by omega)
      rwa [Nat.add_sub_cancel' (by omega)] at hzero

/-- The values of a classified text are below 2^b. -/
theorem State.Ready.mapSymbols_lt {s : State} (h : s.Ready .bpc) {text : List Byte} {i : Nat} {vs : List Nat}
    (hvs : s.mapSymbols text i = .ok vs) : ∀ v ∈ vs, v < 2 ^ s.width := by
  obtain ⟨-, -, hradix⟩ := h.width
  exact hradix ▸ (h.spells_iff.2 (State.mapSymbols_eq_ok.1 hvs)).lt_radix

/-- The serial unpack shifter computes `BPDecode` (R141). -/
theorem State.Ready.bpDecodeSerial_eq {s : State} (h : s.Ready .bpc) (text : List Byte) :
    s.bpDecodeSerial text = s.bpDecode text := by
  obtain ⟨h1, h8, -⟩ := h.width
  simp only [State.bpDecodeSerial, State.bpDecode, State.unpackSerial_eq]
  split
  · rfl
  · cases hvs : s.mapSymbols (text.take (text.length - s.trailingPads text)) 0 with
    | error e => rfl
    | ok vs =>
      have hlt := h.mapSymbols_lt hvs
      have hfollows := s.foldl_pushValue_follows h8 hlt le_rfl
      rw [List.take_length] at hfollows
      obtain ⟨-, hacc, hout⟩ := hfollows
      simp only [Except.map, unpackValues_eq h1 hlt, trailingBits, ← hacc, ← hout, ← BitVec.toNat_inj, ne_eq]
      rfl

end Sys2Proof.Machine
end

section
/-! SUPPORT. The lanes of spec/41_bitpack.md R135 and R142: what lane `i` of block `k` emits is what position k·Q + i, or byte
k·G + i, of the whole result is; so the blocks one after the other are the result. -/

namespace Sys2Proof.Machine

/-! ### Lists of pieces -/

/-- A range visited in blocks of `q`. -/
theorem flatMap_range_mul {α : Type} (f : Nat → List α) (m q : Nat) :
    (List.range m).flatMap (fun k => (List.range q).flatMap (fun j => f (k * q + j))) =
      (List.range (m * q)).flatMap f := by
  induction m with
  | zero => simp
  | succ m ih =>
    rw [List.range_succ, List.flatMap_append, ih, Nat.succ_mul, List.range_add, List.flatMap_append, List.flatMap_map]
    simp

/-- A range whose first `d` pieces are single elements. -/
theorem flatMap_range_cut {α : Type} {d m : Nat} (h : d ≤ m) (f : Nat → α) (g : List α) :
    (List.range m).flatMap (fun i => if i < d then [f i] else g) =
      (List.range d).map f ++ (List.range (m - d)).flatMap (fun _ => g) := by
  obtain ⟨e, rfl⟩ := Nat.exists_eq_add_of_le h
  rw [List.range_add, List.flatMap_append, List.flatMap_map, Nat.add_sub_cancel_left, List.map_eq_flatMap]
  congr 1
  · exact List.flatMap_congr fun i hi => if_pos (List.mem_range.1 hi)
  · exact List.flatMap_congr fun i _ => if_neg (by omega)

/-! ### Blocks -/

theorem length_blockAt {α : Type} (g : Nat) (x : List α) (k : Nat) :
    (blockAt g x k).length = min g (x.length - k * g) := by
  simp [blockAt]

theorem getD_blockAt {α : Type} {g i : Nat} (x : List α) (k : Nat) (a : α) (h : i < g) :
    (blockAt g x k).getD i a = x.getD (k * g + i) a := by
  simp [blockAt, List.getD_eq_getElem?_getD, h]

/-- The stream of a block is a stretch of the stream of the whole, to the block's full width. -/
theorem streamBit_blockAt {g t : Nat} (x : List Byte) (k : Nat) (h : t < 8 * g) :
    streamBit (blockAt g x k) t = streamBit x (k * (8 * g) + t) := by
  have hdiv : (k * (8 * g) + t) / 8 = k * g + t / 8 := by
    rw [Nat.mul_left_comm, Nat.mul_add_div (by decide)]
  have hmod : (k * (8 * g) + t) % 8 = t % 8 := by rw [Nat.mul_left_comm, Nat.mul_add_mod]
  rw [streamBit, streamBit, hdiv, hmod, getD_blockAt x k 0 (by omega)]

theorem valueBit_blockAt {b q t : Nat} (vs : List Nat) (k : Nat) (h : t < q * b) :
    valueBit b (blockAt q vs k) t = valueBit b vs (k * (q * b) + t) := by
  have hb : 0 < b := Nat.pos_of_mul_pos_left (Nat.zero_lt_of_lt h)
  have hassoc : k * (q * b) = b * (k * q) := by ring
  have hdiv : (k * (q * b) + t) / b = k * q + t / b := by rw [hassoc, Nat.mul_add_div hb]
  have hmod : (k * (q * b) + t) % b = t % b := by rw [hassoc, Nat.mul_add_mod]
  rw [valueBit, valueBit, hdiv, hmod, getD_blockAt vs k 0 ((Nat.div_lt_iff_lt_mul hb).2 h)]

/-- Lane `i` of a window that holds a stretch of a stream cuts out its `w` bits from bit w·i. -/
theorem lane_eq_bitsValue_from {l w start i : Nat} {win : BitVec 56} {bit : Nat → Bool} (hl : l ≤ 56)
    (hwin : win.toNat = bitsValue bit start l) (hi : w * (i + 1) ≤ l) :
    lane l w win i = bitsValue bit (start + w * i) w := by
  have hshift : ∀ a n, bitsValue (fun t => bit (start + t)) a n = bitsValue bit (start + a) n := fun a n =>
    bitsValue_congr fun t _ => by rw [Nat.add_assoc]
  rw [lane_eq_bitsValue hl (hwin.trans (hshift 0 l).symm) hi, hshift]

/-- The bits before block `k` are those of `k` times G bytes. -/
theorem mul_blockBits (k b : Nat) : k * blockBits b = 8 * (k * blockBytes b) := by
  rw [← mul_blockBytes, Nat.mul_left_comm]

/-! ### Packing (R135) -/

/-- The window of block `k` of the bytes is the block's stretch of their stream. -/
theorem window_blockAt_bytes {b : Nat} (h1 : 1 ≤ b) (h8 : b ≤ 8) (x : List Byte) (k : Nat) :
    (window (blockBits b) 8 ((blockAt (blockBytes b) x k).map BitVec.toNat)).toNat =
      bitsValue (streamBit x) (k * blockBits b) (blockBits b) := by
  have hlen : 8 * ((blockAt (blockBytes b) x k).map BitVec.toNat).length ≤ blockBits b := by
    rw [List.length_map, length_blockAt, ← mul_blockBytes]
    exact Nat.mul_le_mul_left 8 (Nat.min_le_left ..)
  have hlt : ∀ v ∈ (blockAt (blockBytes b) x k).map BitVec.toNat, v < 2 ^ 8 := by
    intro v hv
    obtain ⟨c, -, rfl⟩ := List.mem_map.1 hv
    exact c.isLt
  rw [window_eq_bitsValue (blockBits_le h1 h8) (by decide) hlt hlen]
  refine bitsValue_congr fun t ht => ?_
  rw [← streamBit_eq_valueBit, Nat.zero_add, streamBit_blockAt x k (by rwa [mul_blockBytes]), mul_blockBytes]

/-- What stands at position `i` of the blocks' text: the symbol of a group, a pad where padding is on, or nothing. -/
def State.textPiece (s : State) (x : List Byte) (i : Nat) : List Byte :=
  if i < groupCount s.width x.length then [s.symAt (bitsValue (streamBit x) (i * s.width) s.width)]
  else if cfgPadEn s.cfg = true then [s.padsym] else []

/-- Lane `j` of the pack shifter over block `k` (R135). -/
theorem State.packLane_blockAt {s : State} (h1 : 1 ≤ s.width) (h8 : s.width ≤ 8) (x : List Byte) (k : Nat) {j : Nat}
    (hj : j < blockSymbols s.width) :
    s.packLane (blockAt (blockBytes s.width) x k) j = s.textPiece x (k * blockSymbols s.width + j) := by
  have hlen := length_blockAt (blockBytes s.width) x k
  have hbits := mul_blockBits k s.width
  have hbytes := mul_blockBytes s.width
  have hstart : (k * blockSymbols s.width + j) * s.width = k * blockBits s.width + s.width * j := by
    rw [Nat.add_mul, Nat.mul_assoc, blockSymbols_mul, Nat.mul_comm j]
  have hroom : s.width * (j + 1) ≤ blockBits s.width := by
    rw [← blockSymbols_mul, Nat.mul_comm]
    exact Nat.mul_le_mul_right _ hj
  have hbefore : j * s.width < blockBits s.width := by
    rw [← blockSymbols_mul]
    exact Nat.mul_lt_mul_of_pos_right hj h1
  have hdata : j < ceilDiv (8 * (blockAt (blockBytes s.width) x k).length) s.width ↔
      k * blockSymbols s.width + j < groupCount s.width x.length := by
    rw [groupCount, lt_ceilDiv_iff h1, lt_ceilDiv_iff h1, hstart, Nat.mul_comm s.width]
    omega
  simp only [State.packLane, State.textPiece, hdata]
  split
  · rw [lane_eq_bitsValue_from (blockBits_le h1 h8) (window_blockAt_bytes h1 h8 x k) hroom, hstart]
  · rename_i hpast
    have hpartial : (blockAt (blockBytes s.width) x k).length < blockBytes s.width := by
      rw [← hdata, lt_ceilDiv_iff h1] at hpast
      omega
    simp only [hpartial, and_true]

/-- The blocks of an input have room for its groups, and the last of them is needed (R135). -/
theorem ceilDiv_blockBytes_mul {b : Nat} (hb : 1 ≤ b) (n : Nat) :
    groupCount b n ≤ ceilDiv n (blockBytes b) * blockSymbols b ∧
    ceilDiv n (blockBytes b) * blockSymbols b < groupCount b n + blockSymbols b := by
  have hG := blockBytes_pos hb
  have hQ := blockSymbols_pos hb
  have hbits : ∀ m, m * blockSymbols b * b = 8 * (m * blockBytes b) := fun m => by
    rw [Nat.mul_assoc, blockSymbols_mul, mul_blockBits]
  have hend : ¬ ceilDiv n (blockBytes b) * blockBytes b < n := (lt_ceilDiv_iff hG).not.1 (lt_irrefl _)
  constructor
  · rw [← Nat.not_lt, groupCount, lt_ceilDiv_iff hb, hbits]
    omega
  · rcases Nat.eq_zero_or_pos (ceilDiv n (blockBytes b)) with hz | hpos
    · rw [hz]
      omega
    · obtain ⟨m, hm⟩ := Nat.exists_eq_add_one.2 hpos
      have hlast : m * blockBytes b < n := (lt_ceilDiv_iff hG).1 (by omega)
      have hgroup : m * blockSymbols b < groupCount b n := by
        rw [groupCount, lt_ceilDiv_iff hb, hbits]
        omega
      rw [hm, Nat.succ_mul]
      omega

/-- The pack lanes compute `BPEncode` (R135). -/
theorem State.Ready.bpEncodeLanes_eq {s : State} (h : s.Ready .bpc) (x : List Byte) :
    s.bpEncodeLanes x = s.bpEncode x := by
  obtain ⟨h1, h8, -⟩ := h.width
  obtain ⟨hle, hlt⟩ := ceilDiv_blockBytes_mul h1 x.length
  have hlanes : s.bpEncodeLanes x = (List.range (ceilDiv x.length (blockBytes s.width) * blockSymbols s.width)).flatMap
      (s.textPiece x) := by
    rw [← flatMap_range_mul]
    exact List.flatMap_congr fun k _ => List.flatMap_congr fun j hj =>
      State.packLane_blockAt h1 h8 x k (List.mem_range.1 hj)
  rw [hlanes, State.bpEncode_eq h1, padCount_eq h1 h8, pads_eq_sub hle hlt, bitGroups, List.map_map]
  refine (flatMap_range_cut hle _ _).trans (congrArg _ ?_)
  cases cfgPadEn s.cfg with
  | false => simp
  | true => exact List.map_eq_flatMap.symm.trans (by simp)

/-! ### Unpacking (R142) -/

/-- What stands at byte `i` of the blocks' result: a whole byte of the values' stream, or nothing. -/
def bytePiece (b : Nat) (vs : List Nat) (i : Nat) : List Byte :=
  if i < vs.length * b / 8 then [BitVec.ofNat 8 (bitsValue (valueBit b vs) (i * 8) 8)] else []

/-- A block of values fits in the window. -/
theorem mul_length_blockAt_le (b : Nat) (vs : List Nat) (k : Nat) : b * (blockAt (blockSymbols b) vs k).length ≤ blockBits b := by
  rw [length_blockAt, ← blockSymbols_mul, Nat.mul_comm]
  exact Nat.mul_le_mul_right b (Nat.min_le_left ..)

section
variable {b : Nat} (h1 : 1 ≤ b) (h8 : b ≤ 8) {vs : List Nat} (h : ∀ v ∈ vs, v < 2 ^ b)
include h1 h8 h

/-- The window of block `k` is the block's stretch of the values' stream. -/
theorem window_blockAt (k : Nat) : (window (blockBits b) b (blockAt (blockSymbols b) vs k)).toNat =
    bitsValue (valueBit b vs) (k * blockBits b) (blockBits b) := by
  have hlt : ∀ v ∈ blockAt (blockSymbols b) vs k, v < 2 ^ b := fun v hv =>
    h v (List.mem_of_mem_drop (List.mem_of_mem_take hv))
  rw [window_eq_bitsValue (blockBits_le h1 h8) h1 hlt (mul_length_blockAt_le b vs k)]
  refine bitsValue_congr fun t ht => ?_
  rw [Nat.zero_add, valueBit_blockAt vs k (by rwa [blockSymbols_mul]), blockSymbols_mul]

/-- Lane `i` of the unpack shifter over block `k` is byte k·G + i of the values' stream (R142). -/
theorem unpackBlock_blockAt (k : Nat) : unpackBlock b (blockAt (blockSymbols b) vs k) =
    (List.range (blockBytes b)).flatMap (fun i => bytePiece b vs (k * blockBytes b + i)) := by
  have hbytes := mul_blockBytes b
  have hbits := mul_blockBits k b
  have hlen : b * (blockAt (blockSymbols b) vs k).length = min (blockBits b) (vs.length * b - k * blockBits b) := by
    rw [length_blockAt, Nat.mul_comm, ← Nat.mul_min_mul_right, blockSymbols_mul, Nat.sub_mul, Nat.mul_assoc,
      blockSymbols_mul]
  have hpiece : ∀ i ∈ List.range (blockBytes b), bytePiece b vs (k * blockBytes b + i) =
      if i < b * (blockAt (blockSymbols b) vs k).length / 8 then
        [BitVec.ofNat 8 (lane (blockBits b) 8 (window (blockBits b) b (blockAt (blockSymbols b) vs k)) i)] else [] := by
    intro i hi
    have hi := List.mem_range.1 hi
    have hiff : k * blockBytes b + i < vs.length * b / 8 ↔ i < b * (blockAt (blockSymbols b) vs k).length / 8 := by omega
    rw [lane_eq_bitsValue_from (blockBits_le h1 h8) (window_blockAt h1 h8 h k) (by omega),
      show k * blockBits b + 8 * i = (k * blockBytes b + i) * 8 by omega]
    simp only [bytePiece, hiff]
  rw [List.flatMap_congr hpiece, flatMap_range_cut (by omega)]
  simp [unpackBlock]

/-- The trailing bits of a block that ends with the values are the trailing bits of the values. -/
theorem trailing_of_last_block {k : Nat} (hk : k * blockSymbols b ≤ vs.length)
    (hlast : (blockAt (blockSymbols b) vs k).length = vs.length - k * blockSymbols b) :
    b * (blockAt (blockSymbols b) vs k).length % 8 = vs.length * b % 8 ∧
    (blockTrailing b (blockAt (blockSymbols b) vs k)).toNat = trailingBits b vs := by
  have hle := mul_length_blockAt_le b vs k
  set len := (blockAt (blockSymbols b) vs k).length
  have hend : k * blockBits b + b * len = vs.length * b := by
    rw [hlast, ← blockSymbols_mul, ← Nat.mul_assoc, Nat.mul_comm b, ← Nat.add_mul, Nat.add_sub_cancel' hk]
  have hmod : b * len % 8 = vs.length * b % 8 := by
    rw [← hend, mul_blockBits, Nat.mul_add_mod]
  have hshift := bitsValue_shiftRight (valueBit b vs) (k * blockBits b) (b * len) (blockBits b - b * len)
  have hlow := bitsValue_mod (valueBit b vs) (k * blockBits b) (b * len - b * len % 8) (b * len % 8)
  rw [Nat.add_sub_cancel' hle] at hshift
  rw [Nat.sub_add_cancel (Nat.mod_le ..)] at hlow
  refine ⟨hmod, ?_⟩
  rw [blockTrailing, toNat_and_groupMask (by omega), BitVec.toNat_ushiftRight, window_blockAt h1 h8 h, hshift, hlow, hmod,
    trailingBits]
  congr 1
  omega

/-- Some block has a set trailing bit exactly when the values have: a block before the last fills whole bytes (R142). -/
theorem any_blockTrailing_iff :
    (∃ k < ceilDiv vs.length (blockSymbols b), 0 < b * (blockAt (blockSymbols b) vs k).length % 8 ∧
      blockTrailing b (blockAt (blockSymbols b) vs k) ≠ 0) ↔ trailingBits b vs ≠ 0 := by
  have hQ := blockSymbols_pos h1
  have hne : ∀ k, blockTrailing b (blockAt (blockSymbols b) vs k) ≠ 0 ↔
      (blockTrailing b (blockAt (blockSymbols b) vs k)).toNat ≠ 0 := fun _ => not_congr (BitVec.toNat_inj (y := 0)).symm
  constructor
  · rintro ⟨k, hk, hpos, htrail⟩
    have hkQ := (lt_ceilDiv_iff hQ).1 hk
    have hlen := length_blockAt (blockSymbols b) vs k
    have hlast : (blockAt (blockSymbols b) vs k).length = vs.length - k * blockSymbols b := by
      by_contra hfull
      rw [show (blockAt (blockSymbols b) vs k).length = blockSymbols b by omega, Nat.mul_comm, blockSymbols_mul,
        ← mul_blockBytes, Nat.mul_mod_right] at hpos
      exact lt_irrefl 0 hpos
    rw [← (trailing_of_last_block h1 h8 h hkQ.le hlast).2]
    exact (hne k).1 htrail
  · intro htrail
    have hdiv := Nat.div_add_mod' vs.length (blockSymbols b)
    have hlt := Nat.mod_lt vs.length hQ
    have hlen := length_blockAt (blockSymbols b) vs (vs.length / blockSymbols b)
    obtain ⟨hmod, hvalue⟩ := trailing_of_last_block h1 h8 h (k := vs.length / blockSymbols b) (by omega) (by omega)
    have hpos : 0 < vs.length * b % 8 :=
      Nat.pos_of_ne_zero fun hz => htrail (by rw [trailingBits, hz, bitsValue_zero])
    rw [← hmod] at hpos
    have hnonempty : (blockAt (blockSymbols b) vs (vs.length / blockSymbols b)).length ≠ 0 := fun hz => by
      rw [hz] at hpos
      exact lt_irrefl 0 hpos
    exact ⟨_, (lt_ceilDiv_iff hQ).2 (by omega), hpos, (hne _).2 (hvalue ▸ htrail)⟩

/-- The unpack lanes do what steps 3 and 4 of R136 do (R142). -/
theorem unpackLanes_eq (lenient : Bool) : unpackLanes b lenient vs = unpackValues b lenient vs := by
  have hQ := blockSymbols_pos h1
  have hroom : vs.length * b / 8 ≤ ceilDiv vs.length (blockSymbols b) * blockBytes b := by
    have hend : ¬ ceilDiv vs.length (blockSymbols b) * blockSymbols b < vs.length :=
      (lt_ceilDiv_iff hQ).not.1 (lt_irrefl _)
    have hbits := Nat.mul_le_mul_right b (Nat.not_lt.1 hend)
    rw [Nat.mul_assoc, blockSymbols_mul, mul_blockBits] at hbits
    omega
  have hbytes : ((List.range (ceilDiv vs.length (blockSymbols b))).map (blockAt (blockSymbols b) vs)).flatMap
      (unpackBlock b) = (bitGroups 8 (valueBit b vs) (vs.length * b / 8)).map (BitVec.ofNat 8) := by
    rw [List.flatMap_map, List.flatMap_congr fun k _ => unpackBlock_blockAt h1 h8 h k, flatMap_range_mul]
    refine (flatMap_range_cut hroom _ _).trans ?_
    simp [bitGroups, Function.comp_def]
  have hany : ((List.range (ceilDiv vs.length (blockSymbols b))).map (blockAt (blockSymbols b) vs)).any
      (fun c => decide (0 < b * c.length % 8 ∧ blockTrailing b c ≠ 0)) = true ↔
      trailingBits b vs ≠ 0 := by
    rw [← any_blockTrailing_iff h1 h8 h]
    simp
  rw [unpackValues_eq h1 h]
  simp only [unpackLanes, hany, hbytes]

end

/-- The unpack lanes compute `BPDecode` (R142). -/
theorem State.Ready.bpDecodeLanes_eq {s : State} (h : s.Ready .bpc) (text : List Byte) :
    s.bpDecodeLanes text = s.bpDecode text := by
  obtain ⟨h1, h8, -⟩ := h.width
  simp only [State.bpDecodeLanes, State.bpDecode]
  split
  · rfl
  · cases hvs : s.mapSymbols (text.take (text.length - s.trailingPads text)) 0 with
    | error e => rfl
    | ok vs => exact unpackLanes_eq h1 h8 (h.mapSymbols_lt hvs) _

end Sys2Proof.Machine
end

section
/-! SUPPORT. The statements about the BPC unit as a function and as a command (spec/41_bitpack.md R131 to R146). -/

namespace Sys2Proof.Machine

/-! ### The round trip -/

/-- Settles O31: `BPEncode` spells the groups of the input's stream, whose whole bytes are the input. -/
theorem bpcRoundTrip : Obligations.BpcRoundTrip := fun _ x h => h.bpDecode_bpEncode x

/-- Settles O34: either unit's decoder inverts its encoder, the text of a successful ENCODE stands in `OBUF`, and what DECODE
reads besides its text ENCODE has left as it was. -/
theorem commandsRoundTrip : Obligations.CommandsRoundTrip := by
  intro s hinv hv
  have hready := hinv.ready hv
  refine ⟨hready.decodeText_encodeText, fun t n ib ht hok hfit hn hib => ?_⟩
  have hsame := sameButResult_execEncode ht
  obtain ⟨hlen, hholds⟩ := execEncode_holds ht hok
  have hinput : State.input { t with ibuf := ib } t.olen.toNat = s.encodeText (s.input n) := by
    rw [hlen]
    exact State.input_eq_of_find fun i hi => (hib i (hlen ▸ hi)).trans (hholds i hi)
  have hdec : State.decodeText { t with ibuf := ib } (s.encodeText (s.input n)) = .ok (s.input n) := by
    obtain ⟨hradix, -, hcfg, hpad, -, -, -, hmode, hbits, hrlut, -⟩ := hsame
    exact (State.decodeText_congr (s := s) (t := { t with ibuf := ib }) hradix hcfg hpad hmode hbits hrlut _).trans
      (hready.decodeText_encodeText _)
  have hexec := execDecode_ok (hready.after_result hsame ib) hfit (hinput.symm ▸ hdec)
  obtain ⟨u, hu, hsucc, huholds, -⟩ := (State.deliver_ends hexec).1 (by rwa [State.length_input])
  exact ⟨u, hu, hsucc, huholds⟩

/-! ### The encoder -/

/-- Settles O21: the text is the groups' symbols and the pads, and delivery has its two ends. -/
theorem encodeBpcWritesBitGroups : Obligations.EncodeBpcWritesBitGroups := by
  intro s n h hn b d p text
  obtain ⟨h1, h8, -⟩ := h.width
  have htext : s.encodeText (s.input n) = text := by
    rw [h.encodeText_bpc, State.bpEncode_eq h1, State.length_input, padCount_eq_padsAfter h1 h8, bitGroups, List.map_map]
    rfl
  have hlen : text.length = d + p := by simp [text]
  have hends := State.deliver_ends (execEncode_ready h hn)
  rw [htext, hlen] at hends
  exact hends

/-- Settles O22: the one formula by the lemma about it, and the least completion because a completing count reaches the
next multiple of Q. -/
theorem padCountIsLeastCompletion : Obligations.PadCountIsLeastCompletion := by
  intro b n h1 h8
  have heq := padCount_eq h1 h8 true n
  rw [if_pos rfl] at heq
  have hiff := groupCount_mod_blockSymbols h1 h8 n
  have hQ := blockSymbols_pos h1
  refine ⟨padCount_eq h1 h8 false n, padCount_eq_padsAfter h1 h8 true n, heq, fun h => ?_, fun h => ?_⟩
  · rw [heq, hiff.2 h, Nat.sub_zero, Nat.mod_self]
  · have hne : groupCount b n % blockSymbols b ≠ 0 := mt hiff.1 h
    have hlt := Nat.mod_lt (groupCount b n) hQ
    rw [heq, Nat.mod_eq_of_lt (Nat.sub_lt hQ (Nat.pos_of_ne_zero hne))]
    refine ⟨by omega, ?_, fun p hp hmul => ?_⟩
    · rw [← Nat.mod_add_mod]
      exact (congrArg (· % blockSymbols b) (Nat.add_sub_cancel' hlt.le)).trans (Nat.mod_self _)
    · rw [← Nat.mod_add_mod] at hmul
      have := Nat.le_of_dvd (by omega) (Nat.dvd_of_mod_eq_zero hmul)
      exact Nat.sub_le_iff_le_add'.2 this

/-! ### The decoder -/

/-- Settles O24: the values' whole bytes are the result, and delivery has its two ends. -/
theorem decodeBpcWritesBytes : Obligations.DecodeBpcWritesBytes := by
  intro s vs p h hn hs hp b m hcount htrail
  obtain ⟨h1, -, hradix⟩ := h.width
  have hlt : ∀ v ∈ vs, v < 2 ^ s.width := hradix ▸ hs.lt_radix
  have hdec := (h.decodeText_input_spelled hs hp hcount).trans (unpackValues_ok h1 hlt htrail)
  have hends := State.deliver_ends (execDecode_ok h hn hdec)
  rw [List.length_map, List.length_range] at hends
  exact hends

/-- Settles O25: `checkpad` comes before the symbols are looked at. -/
theorem decodeBpcRejectsWrongPadCount : Obligations.DecodeBpcRejectsWrongPadCount := by
  intro s d p h hn hen hstrict hp hl hne
  have hbad : s.padCountOk (s.input d).length (s.inputFrom d p).length = false := by
    rw [State.length_input, State.length_inputFrom, Bool.eq_false_iff, Ne, State.padCountOk_iff]
    exact fun hcount => hne (hcount hen hstrict)
  have hdec := State.bpDecode_of_padCount_bad (fun c hc => h.cls_pad.2 (State.isPad_inputFrom hp c hc))
    (h.input_last_not_pad hl) hbad
  rw [← State.input_add, ← h.decodeText_bpc, State.length_input] at hdec
  exact execDecode_error h hn hdec

/-- Settles O26: the classification stops at the leftmost code that is no symbol. -/
theorem decodeBpcRejectsLeftmostBadSymbol : Obligations.DecodeBpcRejectsLeftmostBadSymbol := by
  intro s d p i h hn hp hl hcount hi hgood
  have hlen : i < (s.input d).length := by rwa [State.length_input]
  have hok : s.padCountOk (s.input d).length (s.inputFrom d p).length = true := by
    rw [State.length_input, State.length_inputFrom]
    exact State.padCountOk_iff.2 hcount
  have hdata : ∀ j, ∀ hj : j < i, ∃ v, s.cls ((s.input d)[j]'(hj.trans hlen)) = .data v := by
    intro j hj
    obtain ⟨v, hv⟩ := hgood j hj
    exact ⟨v, by rw [State.getElem_input]; exact h.cls_eq_data.2 hv⟩
  have hfails : ∀ e : ErrCode,
      (s.cls (s.ibufAt i) = .pad ∧ e = .invalidPadding) ∨ (s.cls (s.ibufAt i) = .invalid ∧ e = .invalidSymbol) →
      exec (.decode (d + p)) s = .next (s.failed e i) := by
    intro e hbad
    rw [← State.getElem_input s d i hlen] at hbad
    have hdec := State.bpDecode_of_symbol_bad (fun c hc => h.cls_pad.2 (State.isPad_inputFrom hp c hc))
      (h.input_last_not_pad hl) hok (State.mapSymbols_bad hlen hdata hbad)
    rw [← State.input_add, ← h.decodeText_bpc, Nat.zero_add] at hdec
    exact execDecode_error h hn hdec
  exact ⟨fun hpad => hfails _ (.inl ⟨h.cls_pad.2 hpad, rfl⟩),
    fun hnp hns => hfails _ (.inr ⟨h.cls_eq_invalid (fun _ => hnp) hns, rfl⟩)⟩

/-- Settles O27: a trailing bit that is 1 ends the cutting into bytes, before any delivery. -/
theorem decodeBpcRejectsTrailingBits : Obligations.DecodeBpcRejectsTrailingBits := by
  intro s vs p t h hn hs hp hcount hlen ht ht' hbit
  obtain ⟨h1, -, hradix⟩ := h.width
  have hlt : ∀ v ∈ vs, v < 2 ^ s.width := hradix ▸ hs.lt_radix
  have hdec := h.decodeText_input_spelled hs hp hcount
  rw [hlen, unpackValues_error h1 hlt ht ht' hbit] at hdec
  exact execDecode_error h hn hdec

/-! ### The datapaths -/

/-- Settles O40: the shifter follows the input's stream, and its padding loop is the formula of R132. -/
theorem serialPackComputesBpEncode : Obligations.SerialPackComputesBpEncode := fun _ x h => h.bpEncodeSerial_eq x

/-- Settles O41: lane `j` of block `k` emits what stands at position k·Q + j of the text. -/
theorem packLanesComputeBpEncode : Obligations.PackLanesComputeBpEncode := fun _ x h => h.bpEncodeLanes_eq x

/-- Settles O42: the shifter follows the stream of the values, and `ACC` ends as their trailing bits. -/
theorem serialUnpackComputesBpDecode : Obligations.SerialUnpackComputesBpDecode := fun _ text h =>
  h.bpDecodeSerial_eq text

/-- Settles O43: lane `i` of block `k` is byte k·G + i of the result, and the trailing bits stand in the last block. -/
theorem unpackLanesComputeBpDecode : Obligations.UnpackLanesComputeBpDecode := fun _ text h => h.bpDecodeLanes_eq text

/-! ### Empty input, letter case, texts that are not canonical -/

/-- Settles O30: each function of the empty sequence is the empty sequence, and an empty result always fits. -/
theorem emptyInputGivesEmptyOutput : Obligations.EmptyInputGivesEmptyOutput := by
  intro s m i h hi
  have hexec : exec i s = .next (s.deliver []) := by
    rcases hi with rfl | rfl
    · have henc := execEncode_ready h (Nat.zero_le _)
      rwa [show s.input 0 = [] from rfl, s.encodeText_nil] at henc
    · exact execDecode_ok h (Nat.zero_le _) s.decodeText_nil
  obtain ⟨t, ht, hsucc, ⟨holen, -⟩, hsame⟩ := (State.deliver_ends hexec).1 (Nat.zero_le _)
  exact ⟨⟨t, ht, hsucc, BitVec.eq_of_toNat_eq holen, hsame⟩, s.bpEncode_nil, s.bpDecode_nil, s.brEncode_nil,
    s.brDecode_nil⟩

/-- Settles O39: the encoders do not normalise, and the decoders see the classes of the codes alone. -/
theorem caseNormalisation : Obligations.CaseNormalisation := by
  refine ⟨fun s cfg x hpad => ?_, fun s cfg x => rfl, fun s text text' hci hfold => ?_⟩
  · simp only [State.bpEncode, hpad]
    rfl
  · have hcls := State.map_cls_congr_fold hci hfold
    exact ⟨State.bpDecode_congr_classes hcls, State.brDecode_congr_classes hcls⟩

section
variable {s : State} (h : s.Ready .bpc)
include h

theorem State.Ready.width_eq {b : Nat} (hr : s.radix.toNat = 2 ^ b) : s.width = b := by
  obtain ⟨-, -, hradix⟩ := h.width
  exact Nat.pow_right_injective (le_refl 2) (hradix.symm.trans hr)

theorem State.Ready.cls_replicate_padsym (hen : cfgPadEn s.cfg = true) (k : Nat) :
    ∀ c ∈ List.replicate k s.padsym, s.cls c = .pad := by
  intro c hc
  rw [(List.mem_replicate.1 hc).2]
  exact h.cls_padsym hen

/-- Hexadecimal "de0": four zero bits are left over after the one byte (R146). -/
theorem State.Ready.bpDecode_de0 (h16 : s.radix = 16) :
    s.bpDecode [s.symAt 13, s.symAt 14, s.symAt 0] = .ok [0xDE#8] := by
  have hradix : s.radix.toNat = 16 := congrArg BitVec.toNat h16
  have hw : s.width = 4 := h.width_eq hradix
  have hspell : s.Spells ([13, 14, 0].map s.symAt) [13, 14, 0] := State.spells_map_symAt (by rw [hradix]; decide)
  have hdec := h.bpDecode_spelled hspell (pads := []) (by simp) fun _ _ => by rw [hw]; rfl
  rw [hw] at hdec
  exact hdec.trans (by cases cfgLenient s.cfg <;> rfl)

/-- One base-32 symbol of value 0, with the pads its length asks for, is no whole byte (R146). -/
theorem State.Ready.bpDecode_single_zero (h32 : s.radix = 32) :
    s.bpDecode (s.symAt 0 :: List.replicate (if cfgPadEn s.cfg = true then 7 else 0) s.padsym) = .ok [] := by
  have hradix : s.radix.toNat = 32 := congrArg BitVec.toNat h32
  have hw : s.width = 5 := h.width_eq hradix
  have hspell : s.Spells ([0].map s.symAt) [0] := State.spells_map_symAt (by rw [hradix]; decide)
  have hpads : ∀ c ∈ List.replicate (if cfgPadEn s.cfg = true then 7 else 0) s.padsym, s.IsPad c := by
    intro c hc
    obtain ⟨hne, rfl⟩ := List.mem_replicate.1 hc
    exact ⟨by_contra fun hen => hne (if_neg hen), rfl⟩
  have hdec := h.bpDecode_spelled hspell hpads fun hen _ => by
    rw [List.length_replicate, if_pos hen, hw]
    rfl
  rw [hw] at hdec
  exact hdec.trans (by cases cfgLenient s.cfg <;> rfl)

/-- Where b divides 8 the strict policy takes no pad (R137, spec/90_conflicts.md C7). -/
theorem State.Ready.bpDecode_pads_rejected (hdiv : 8 % s.width = 0) (hen : cfgPadEn s.cfg = true)
    (hstrict : cfgPadStrict s.cfg = true) {vs : List Nat} (hvs : ∀ v ∈ vs, v < s.radix.toNat) {k : Nat} (hk : 0 < k) :
    s.bpDecode (vs.map s.symAt ++ List.replicate k s.padsym) =
      .error { kind := .invalidPadding, pos := vs.length } := by
  have hbad : s.padCountOk (vs.map s.symAt).length (List.replicate k s.padsym).length = false := by
    rw [Bool.eq_false_iff, Ne, State.padCountOk_iff, padsAfter_eq_zero hdiv, List.length_replicate]
    exact fun hcount => hk.ne' (hcount hen hstrict)
  have hdec := State.bpDecode_of_padCount_bad (h.cls_replicate_padsym hen k)
    (h.last_not_pad (State.spells_map_symAt hvs)) hbad
  rwa [List.length_map] at hdec

end

/-- Settles O59: further pads are not counted where the policy is not strict; the two small texts and the rejected one are a
spelled part and its pads. -/
theorem nonCanonicalTextsDecode : Obligations.NonCanonicalTextsDecode := fun _ h =>
  ⟨fun hen hns text k => State.bpDecode_append_of_not_strict hns (h.cls_replicate_padsym hen k) text, h.bpDecode_de0,
    h.bpDecode_single_zero, fun hdiv hen hstrict _ _ hvs hk => h.bpDecode_pads_rejected hdiv hen hstrict hvs hk⟩

end Sys2Proof.Machine
end

section
/-! SUPPORT. The two directions of the BRC unit on zeros and the digits after them: a sequence cut behind its leading zeros,
the digits of a number and its minimal bytes as inverses of each other (spec/42_bigradix.md R161, R164, R170, R173). -/

namespace Sys2Proof.Machine

/-! ### A sequence and its leading zeros -/

/-- A sequence whose rest does not start with `a` has `a` at its first `z` places and something else right behind them. -/
theorem getD_replicate_append {α : Type} {a : α} {z : Nat} {l r : List α} (hl : l = List.replicate z a ++ r)
    (hr : r.head? ≠ some a) :
    z ≤ l.length ∧ (∀ i < z, l.getD i a = a) ∧ (z < l.length → l.getD z a ≠ a) := by
  subst hl
  refine ⟨by simp, fun i hi => ?_, fun hz => ?_⟩
  · rw [List.getD_append _ _ _ _ (by simpa using hi), List.getD_replicate _ hi]
  · rw [List.getD_append_right _ _ _ _ (by simp)]
    cases r with
    | nil => simp at hz
    | cons b r => simpa using hr

/-- Every list of digits is zeros and then a rest that does not start with one (R164). -/
theorem exists_replicate_zero_append (vs : List Nat) : ∃ z ds, vs = List.replicate z 0 ++ ds ∧ ds.head? ≠ some 0 :=
  ⟨_, _, (replicate_leadingZeros_append vs).symm, head?_drop_leadingZeros vs⟩

/-! ### Bytes as digits in base 256 -/

theorem head?_map_toNat_iff {y : List Byte} : (y.map BitVec.toNat).head? ≠ some 0 ↔ y.head? ≠ some 0 := by
  cases y <;> simp [BitVec.toNat_eq]

theorem map_toNat_map_ofNat {ds : List Nat} (hd : ∀ d ∈ ds, d < 256) :
    (ds.map (BitVec.ofNat 8)).map BitVec.toNat = ds := by
  rw [List.map_map]
  refine (List.map_congr_left fun d hmem => ?_).trans (List.map_id _)
  exact Nat.mod_eq_of_lt (hd d hmem)

/-- Every byte sequence is zero bytes and then a rest that does not start with one (R161). -/
theorem exists_replicate_zero_append_bytes (x : List Byte) :
    ∃ z y, x = List.replicate z 0 ++ y ∧ y.head? ≠ some 0 := by
  refine ⟨_, _, (replicate_leadingZeros_append_bytes x).symm, head?_map_toNat_iff.1 ?_⟩
  rw [List.map_drop]
  exact head?_drop_leadingZeros _

theorem leadingZeros_replicate_append_bytes {z : Nat} {y : List Byte} (h : y.head? ≠ some 0) :
    leadingZeros ((List.replicate z 0 ++ y).map BitVec.toNat) = z := by
  rw [List.map_append, List.map_replicate]
  exact leadingZeros_replicate_append (head?_map_toNat_iff.2 h)

/-- Bytes whose first is not 0 are determined by the number they write (R164). -/
theorem bytesValue_inj {x y : List Byte} (hx : x.head? ≠ some 0) (hy : y.head? ≠ some 0)
    (h : bytesValue x = bytesValue y) : x = y := by
  have hbytes : ∀ w : List Byte, ∀ d ∈ w.map BitVec.toNat, d < 256 := by
    intro w d hd
    obtain ⟨b, -, rfl⟩ := List.mem_map.1 hd
    exact b.isLt
  rw [bytesValue_eq_digitsValue, bytesValue_eq_digitsValue] at h
  exact List.map_injective_iff.2 (fun _ _ => BitVec.eq_of_toNat_eq) (digitsValue_inj (by decide) (hbytes x) (hbytes y)
    (head?_map_toNat_iff.2 hx) (head?_map_toNat_iff.2 hy) h)

/-! ### The minimal bytes of a number -/

/-- Turns of the loop of R161 past the last digit change nothing. -/
theorem digits_fuel_add {base : Nat} (hb : 0 < base) {fuel n : Nat} (h : n < base ^ fuel) (extra : Nat) :
    digits base (fuel + extra) n = digits base fuel n := by
  induction fuel generalizing n with
  | zero =>
    obtain rfl : n = 0 := by simpa using h
    cases extra <;> rfl
  | succ fuel ih =>
    have hlt : n / base < base ^ fuel := (Nat.div_lt_iff_lt_mul hb).2 (by rwa [← Nat.pow_succ])
    rw [Nat.succ_add, digits, digits, ih hlt]

/-- The bytes that `BRDecode` writes for the digits after the leading zero-symbols (R164). -/
def State.numberBytes (s : State) (ds : List Nat) : List Byte :=
  (digits 256 ds.length (digitsValue s.base ds)).reverse.map (BitVec.ofNat 8)

theorem State.length_numberBytes_le (s : State) (ds : List Nat) : (s.numberBytes ds).length ≤ ds.length := by
  simpa [State.numberBytes] using length_digits_le 256 ds.length _

/-- `BRDecode` of zeros and digits gives as many zero bytes and the bytes of the digits (R164). -/
theorem State.digitBytes_eq (s : State) {z : Nat} {ds : List Nat} (h0 : ds.head? ≠ some 0) :
    s.digitBytes (List.replicate z 0 ++ ds) = List.replicate z 0 ++ s.numberBytes ds :=
  s.digitBytes_replicate_append h0

/-- Each further leading zero-symbol is one further zero byte (R170). -/
theorem State.digitBytes_replicate_zero_append (s : State) (z : Nat) (vs : List Nat) :
    s.digitBytes (List.replicate z 0 ++ vs) = List.replicate z 0 ++ s.digitBytes vs := by
  obtain ⟨k, ds, rfl, h0⟩ := exists_replicate_zero_append vs
  rw [← List.append_assoc, List.replicate_append_replicate, s.digitBytes_eq h0, s.digitBytes_eq h0, ← List.append_assoc,
    List.replicate_append_replicate]

/-- `BREncode` of zero bytes and a rest spells as many zeros and the digits of the rest (R161). -/
theorem State.brEncode_eq (s : State) {z : Nat} {y : List Byte} (h0 : y.head? ≠ some 0) :
    s.brEncode (List.replicate z 0 ++ y) = List.replicate z (s.symAt 0) ++ (s.bytesDigits y).map s.symAt := by
  simp only [State.brEncode, leadingZeros_replicate_append_bytes h0, List.drop_left' List.length_replicate]
  rfl

/-- Each further leading zero byte is one further zero-symbol (R170). -/
theorem State.brEncode_replicate_zero_append (s : State) (z : Nat) (x : List Byte) :
    s.brEncode (List.replicate z 0 ++ x) = List.replicate z (s.symAt 0) ++ s.brEncode x := by
  obtain ⟨k, y, rfl, h0⟩ := exists_replicate_zero_append_bytes x
  rw [← List.append_assoc, List.replicate_append_replicate, s.brEncode_eq h0, s.brEncode_eq h0, ← List.append_assoc,
    List.replicate_append_replicate]

theorem State.length_bytesDigits_le (s : State) (y : List Byte) : (s.bytesDigits y).length ≤ 8 * y.length := by
  simpa [State.bytesDigits] using length_digits_le s.base (8 * y.length) _

/-- A decoded text is one whose codes are all symbols, and its bytes are those of the values (R164). -/
theorem State.brDecode_eq_ok {s : State} {text y : List Byte} :
    s.brDecode text = .ok y ↔ ∃ vs : List Nat, text.map s.cls = vs.map SymClass.data ∧ s.digitBytes vs = y := by
  unfold State.brDecode
  cases hd : s.mapDigits text 0 with
  | error e =>
    simp only [reduceCtorEq, false_iff]
    rintro ⟨vs, hvs, -⟩
    rw [State.mapDigits_eq_ok.2 hvs] at hd
    cases hd
  | ok vs =>
    refine ⟨fun h => ⟨vs, State.mapDigits_eq_ok.1 hd, Except.ok.inj h⟩, fun ⟨ws, hws, hy⟩ => ?_⟩
    obtain rfl : ws = vs := Except.ok.inj ((State.mapDigits_eq_ok.2 hws).symm.trans hd)
    exact congrArg _ hy

section
variable {s : State} (h : s.Ready .brc)
include h

theorem State.Ready.lt_byte_of_lt_base {ds : List Nat} (hd : ∀ d ∈ ds, d < s.base) : ∀ d ∈ ds, d < 256 := by
  obtain ⟨-, h255⟩ := h.base
  exact fun d hmem => (hd d hmem).trans_le (h255.trans (by decide))

theorem State.Ready.digitsValue_lt_bytes {ds : List Nat} (hd : ∀ d ∈ ds, d < s.base) :
    digitsValue s.base ds < 256 ^ ds.length := by
  obtain ⟨-, h255⟩ := h.base
  exact (digitsValue_lt hd).trans_le (Nat.pow_le_pow_left (h255.trans (by decide)) _)

theorem State.Ready.digitsValue_lt_two_pow {ds : List Nat} (hd : ∀ d ∈ ds, d < s.base) :
    digitsValue s.base ds < 2 ^ (8 * ds.length) := by
  rw [pow_mul]
  exact h.digitsValue_lt_bytes hd

/-- One byte per digit is room enough (R167), so the bytes are those of as many turns as the lemmas on `digits` ask for. -/
theorem State.Ready.map_toNat_numberBytes {ds : List Nat} (hd : ∀ d ∈ ds, d < s.base) :
    (s.numberBytes ds).map BitVec.toNat = (digits 256 (8 * ds.length) (digitsValue s.base ds)).reverse := by
  have hfuel := digits_fuel_add (by decide) (h.digitsValue_lt_bytes hd) (7 * ds.length)
  rw [show ds.length + 7 * ds.length = 8 * ds.length by omega] at hfuel
  rw [State.numberBytes, ← hfuel]
  exact map_toNat_map_ofNat fun d hmem => digits_lt (by decide) _ _ d (List.mem_reverse.1 hmem)

/-- The bytes of the digits write the number of the digits (R164). -/
theorem State.Ready.bytesValue_numberBytes {ds : List Nat} (hd : ∀ d ∈ ds, d < s.base) :
    bytesValue (s.numberBytes ds) = digitsValue s.base ds := by
  rw [bytesValue_eq_digitsValue, h.map_toNat_numberBytes hd]
  exact digitsValue_digits (by decide) _ _ (h.digitsValue_lt_two_pow hd)

/-- The bytes of the digits are minimal (R164). -/
theorem State.Ready.head?_numberBytes {ds : List Nat} (hd : ∀ d ∈ ds, d < s.base) :
    (s.numberBytes ds).head? ≠ some 0 := by
  rw [← head?_map_toNat_iff, h.map_toNat_numberBytes hd]
  exact head?_reverse_digits (by decide) _ _ (h.digitsValue_lt_two_pow hd)

/-- The digits of the bytes of digits are those digits: both write one number and neither starts with 0 (R173). -/
theorem State.Ready.bytesDigits_numberBytes {ds : List Nat} (hd : ∀ d ∈ ds, d < s.base) (h0 : ds.head? ≠ some 0) :
    s.bytesDigits (s.numberBytes ds) = ds := by
  obtain ⟨h2, -⟩ := h.base
  exact digitsValue_inj (by omega) (h.bytesDigits_lt _) hd (h.head?_bytesDigits _) h0
    ((h.digitsValue_bytesDigits _).trans (h.bytesValue_numberBytes hd))

/-- `BREncode` of the bytes that values decode to spells the values (R173). -/
theorem State.Ready.brEncode_digitBytes {vs : List Nat} (hv : ∀ v ∈ vs, v < s.base) :
    s.brEncode (s.digitBytes vs) = vs.map s.symAt := by
  obtain ⟨z, ds, rfl, h0⟩ := exists_replicate_zero_append vs
  have hd : ∀ d ∈ ds, d < s.base := fun d hmem => hv d (List.mem_append_right _ hmem)
  rw [s.digitBytes_eq h0, s.brEncode_eq (h.head?_numberBytes hd), h.bytesDigits_numberBytes hd h0, List.map_append,
    List.map_replicate]

/-- Zero bytes and one byte below the radix are as many zero-symbols and that byte's own symbol. -/
theorem State.Ready.brEncode_zeros_singleton (z : Nat) {b : Byte} (h0 : b ≠ 0) (hb : b.toNat < s.base) :
    s.brEncode (List.replicate z 0 ++ [b]) = List.replicate z (s.symAt 0) ++ [s.symAt b.toNat] := by
  have hdigits : s.bytesDigits [b] = [b.toNat] := by
    obtain ⟨h2, -⟩ := h.base
    refine digitsValue_inj (by omega) (h.bytesDigits_lt _) (by simpa using hb) (h.head?_bytesDigits _)
      (by simpa [BitVec.toNat_eq] using h0) ((h.digitsValue_bytesDigits _).trans ?_)
    simp [bytesValue, digitsValue]
  rw [s.brEncode_eq (by simpa using h0), hdigits, List.map_singleton]

/-- The zero-symbol is of class DATA(0). -/
theorem State.Ready.cls_symAt_zero : s.cls (s.symAt 0) = .data 0 := by
  obtain ⟨h2, -⟩ := h.base
  exact h.cls_eq_data.2 (State.isSymbol_symAt (lt_of_lt_of_le (by decide) h2))

theorem State.Ready.encodeText_brc (x : List Byte) : s.encodeText x = s.brEncode x := by
  obtain ⟨-, hmode, -⟩ := h
  unfold State.encodeText
  rw [hmode]

theorem State.Ready.decodeText_brc (text : List Byte) : s.decodeText text = s.brDecode text := by
  obtain ⟨-, hmode, -⟩ := h
  unfold State.decodeText
  rw [hmode]

end

end Sys2Proof.Machine
end

section
/-! SUPPORT. The divider and the multiplier compute the digits and the minimal bytes (spec/42_bigradix.md R163, R165). -/

namespace Sys2Proof.Machine

theorem State.base16_toNat (s : State) : s.base16.toNat = s.base :=
  BitVec.toNat_setWidth_of_le (by decide)

/-- The multiplier's passes over a list of digits (R165). -/
def State.foldDigits (s : State) (ds : List Nat) : List Byte :=
  ds.foldl (fun a v => mulPass s.base16 (BitVec.ofNat 8 v) a) []

theorem State.foldDigits_append_singleton (s : State) (ds : List Nat) (d : Nat) :
    s.foldDigits (ds ++ [d]) = mulPass s.base16 (BitVec.ofNat 8 d) (s.foldDigits ds) := by
  simp [State.foldDigits]

section
variable {s : State} (h : s.Ready .brc)
include h

/-- After every pass the limbs write the number of the digits so far, and the top limb is not 0. -/
theorem State.Ready.foldDigits_spec {ds : List Nat} (hd : ∀ d ∈ ds, d < s.base) :
    limbsValue (s.foldDigits ds) = digitsValue s.base ds ∧ (s.foldDigits ds).getLast? ≠ some 0 := by
  obtain ⟨h2, h255⟩ := h.base
  rw [← s.base16_toNat] at h2 h255
  induction ds using List.reverseRecOn with
  | nil => exact ⟨rfl, by simp [State.foldDigits]⟩
  | append_singleton ds d ih =>
    obtain ⟨hval, hlast⟩ := ih fun e he => hd e (List.mem_append_left _ he)
    have hbyte : (BitVec.ofNat 8 d).toNat = d := Nat.mod_eq_of_lt (h.lt_byte_of_lt_base hd d (by simp))
    obtain ⟨hpass, htop⟩ := mulPass_spec (by omega) h255 (BitVec.ofNat 8 d) (s.foldDigits ds) hlast
    rw [hval, hbyte, s.base16_toNat] at hpass
    rw [s.foldDigits_append_singleton]
    refine ⟨?_, htop⟩
    rw [hpass, digitsValue_append]
    simp [digitsValue]

/-- The limbs read from the top down are the minimal bytes of the number (R165). -/
theorem State.Ready.reverse_foldDigits {ds : List Nat} (hd : ∀ d ∈ ds, d < s.base) :
    (s.foldDigits ds).reverse = s.numberBytes ds := by
  obtain ⟨hval, htop⟩ := h.foldDigits_spec hd
  exact bytesValue_inj (by rwa [List.head?_reverse]) (h.head?_numberBytes hd)
    (hval.trans (h.bytesValue_numberBytes hd).symm)

/-- The values of a classified text are below the radix. -/
theorem State.Ready.mapDigits_lt {text : List Byte} {i : Nat} {vs : List Nat} (hvs : s.mapDigits text i = .ok vs) :
    ∀ v ∈ vs, v < s.base :=
  (h.spells_iff.2 (State.mapDigits_eq_ok.1 hvs)).lt_radix

/-- The iterative multiplier computes `BRDecode`, errors included (R165). -/
theorem State.Ready.brDecodeMultiplier_eq (text : List Byte) : s.brDecodeMultiplier text = s.brDecode text := by
  unfold State.brDecodeMultiplier State.brDecode
  cases hvs : s.mapDigits text 0 with
  | error e => rfl
  | ok vs =>
    have hrest : ∀ d ∈ vs.drop (leadingZeros vs), d < s.base := fun d hd => h.mapDigits_lt hvs d (List.mem_of_mem_drop hd)
    have hbytes := h.reverse_foldDigits hrest
    exact congrArg (fun bs => Except.ok (List.replicate (leadingZeros vs) 0 ++ bs)) hbytes

/-- The iterative divider computes `BREncode` (R163). -/
theorem State.Ready.brEncodeDivider_eq (x : List Byte) : s.brEncodeDivider x = s.brEncode x := by
  obtain ⟨h2, h255⟩ := h.base
  rw [← s.base16_toNat] at h2 h255
  obtain ⟨z, y, rfl, h0⟩ := exists_replicate_zero_append_bytes x
  have hstack : (divPasses s.base16 (8 * y.length) y []).map BitVec.toNat = s.bytesDigits y := by
    rw [divPasses_eq h2 h255 _ _ _ h0, s.base16_toNat, List.map_nil, List.append_nil, State.bytesDigits]
  rw [s.brEncode_eq h0, ← hstack, List.map_map]
  simp only [State.brEncodeDivider, leadingZeros_replicate_append_bytes h0, List.drop_left' List.length_replicate]
  rfl

end

end Sys2Proof.Machine
end

section
/-! SUPPORT. ENCODE and DECODE in BRC mode with another padding policy (spec/42_bigradix.md R160, R171). -/

namespace Sys2Proof.Machine

/-- The block with another `CFG` and another `PADSYM`. -/
def State.withPolicy (s : State) (cfg : BitVec 6) (pad : Byte) : State := { s with cfg := cfg, padsym := pad }

/-- Delivery neither reads nor writes `CFG` and `PADSYM`. -/
theorem State.deliver_withPolicy (s : State) (cfg : BitVec 6) (pad : Byte) (t : List Byte) :
    (s.withPolicy cfg pad).deliver t = (s.deliver t).withPolicy cfg pad := by
  rcases s.deliver_cases t with ⟨h, hd⟩ | ⟨h, hd⟩ <;> rw [hd]
  · exact State.deliver_overflow h
  · exact State.deliver_fits h

section
variable {s : State} (hmode : s.status.mode = .brc) {cfg : BitVec 6} {pad : Byte}
include hmode

/-- In BRC mode no code is a pad, so the class of a code depends on its normalisation alone (R105). -/
theorem State.cls_withPolicy (hci : cfgCaseIns cfg = cfgCaseIns s.cfg) : (s.withPolicy cfg pad).cls = s.cls := by
  have hnorm : norm cfg = norm s.cfg := by
    funext c
    rw [norm, norm, hci]
  have hpad : s.padActive = false := by simp [State.padActive, hmode]
  have hpad' : (s.withPolicy cfg pad).padActive = false := by simp [State.padActive, State.withPolicy, hmode]
  funext c
  simp only [State.cls, hpad, hpad', Bool.false_eq_true, false_and, if_false]
  rw [State.withPolicy, hnorm]

theorem State.encodeText_withPolicy (x : List Byte) : (s.withPolicy cfg pad).encodeText x = s.encodeText x := by
  simp only [State.encodeText, State.withPolicy, hmode]
  rfl

theorem State.decodeText_withPolicy (hci : cfgCaseIns cfg = cfgCaseIns s.cfg) (text : List Byte) :
    (s.withPolicy cfg pad).decodeText text = s.decodeText text := by
  have hdigits := State.mapDigits_congr (State.cls_withPolicy hmode (pad := pad) hci) text 0
  have hmode' : (s.withPolicy cfg pad).status.mode = .brc := hmode
  simp only [State.decodeText, hmode, hmode', State.brDecode, hdigits]
  rfl

theorem execEncode_withPolicy (n : Nat) :
    execEncode n (s.withPolicy cfg pad) = onNext (·.withPolicy cfg pad) (execEncode n s) := by
  have hpre : (s.withPolicy cfg pad).preCheck n = s.preCheck n := rfl
  have hin : (s.withPolicy cfg pad).input n = s.input n := rfl
  unfold execEncode
  rw [hpre, hin, State.encodeText_withPolicy hmode, State.deliver_withPolicy]
  cases s.preCheck n <;> rfl

theorem execDecode_withPolicy (hci : cfgCaseIns cfg = cfgCaseIns s.cfg) (n : Nat) :
    execDecode n (s.withPolicy cfg pad) = onNext (·.withPolicy cfg pad) (execDecode n s) := by
  have hpre : (s.withPolicy cfg pad).preCheck n = s.preCheck n := rfl
  have hin : (s.withPolicy cfg pad).input n = s.input n := rfl
  unfold execDecode
  rw [hpre, hin, State.decodeText_withPolicy hmode hci]
  cases s.preCheck n with
  | some e => rfl
  | none =>
    cases s.decodeText (s.input n) with
    | error e => rfl
    | ok y => exact congrArg Host.Outcome.next (s.deliver_withPolicy cfg pad y)

end

end Sys2Proof.Machine
end

section
/-! SUPPORT. The statements about the BRC unit as a function and as a command (spec/42_bigradix.md R160 to R173). -/

namespace Sys2Proof.Machine

/-! ### The two directions -/

/-- Settles O32: `BREncode` spells zeros and the digits of a number, whose minimal bytes are the input's. -/
theorem brcRoundTrip : Obligations.BrcRoundTrip := fun _ x h => h.brDecode_brEncode x

/-- Settles O33: a text decodes by its values alone, and the digits of the bytes they decode to are the values again. -/
theorem brcTextsAreCanonical : Obligations.BrcTextsAreCanonical := fun _ _ _ h hs =>
  ⟨_, h.brDecode_spelled hs, h.brDecode_spelled (State.spells_map_symAt hs.lt_radix), h.brEncode_digitBytes hs.lt_radix⟩

/-! ### The commands -/

/-- Settles O23: the input is its leading zero bytes and a rest, whose digits write the same number; and delivery has its two
ends. -/
theorem encodeBrcWritesDigits : Obligations.EncodeBrcWritesDigits := by
  intro s n h hn
  obtain ⟨z, y, hx, h0⟩ := exists_replicate_zero_append_bytes (s.input n)
  obtain ⟨hz, hzeros, hfirst⟩ := getD_replicate_append hx h0
  have hlen : z + y.length = n := by simpa [State.length_input] using (congrArg List.length hx).symm
  rw [State.length_input] at hz hfirst
  have hvalue : bytesValue (s.input n) = bytesValue y := by
    rw [hx, bytesValue_eq_digitsValue, List.map_append, List.map_replicate, bytesValue_eq_digitsValue]
    exact digitsValue_replicate_zero ..
  have hends := State.deliver_ends (execEncode_ready h hn)
  rw [h.encodeText_brc, hx, s.brEncode_eq h0, List.length_append, List.length_replicate, List.length_map] at hends
  refine ⟨z, s.bytesDigits y, hz, fun i hi => ?_, fun hlt => ?_, h.bytesDigits_lt y, h.head?_bytesDigits y,
    (h.digitsValue_bytesDigits y).trans hvalue.symm, ?_, hends⟩
  · rw [← s.getD_input n i (hi.trans_le hz)]
    exact hzeros i hi
  · rw [← s.getD_input n z hlt]
    exact hfirst hlt
  · rw [← hlen, Nat.add_sub_cancel_left]
    exact s.length_bytesDigits_le y

/-- Settles O28: the values are their leading zeros and a rest, whose minimal bytes write the same number; and delivery has
its two ends. -/
theorem decodeBrcWritesBytes : Obligations.DecodeBrcWritesBytes := by
  intro s vs h hn hs
  obtain ⟨z, ds, hvs, h0⟩ := exists_replicate_zero_append vs
  obtain ⟨hz, hzeros, hfirst⟩ := getD_replicate_append hvs h0
  have hd : ∀ d ∈ ds, d < s.base := fun d hmem => hs.lt_radix d (hvs ▸ List.mem_append_right _ hmem)
  have hvalue : digitsValue s.base vs = digitsValue s.base ds := by rw [hvs, digitsValue_replicate_zero]
  have hlen : vs.length = z + ds.length := by rw [hvs, List.length_append, List.length_replicate]
  have hdec : s.decodeText (s.input vs.length) = .ok (List.replicate z 0 ++ s.numberBytes ds) := by
    rw [h.decodeText_brc, h.brDecode_spelled hs, ← s.digitBytes_eq h0, ← hvs]
  have hends := State.deliver_ends (execDecode_ok h hn hdec)
  rw [List.length_append, List.length_replicate] at hends
  have hle := s.length_numberBytes_le ds
  exact ⟨z, s.numberBytes ds, hz, hzeros, hfirst, h.head?_numberBytes hd, (h.bytesValue_numberBytes hd).trans hvalue.symm,
    by omega, hends⟩

/-- Settles O29: the classification stops at the leftmost code that is no symbol. -/
theorem decodeBrcRejectsLeftmostUnknown : Obligations.DecodeBrcRejectsLeftmostUnknown := by
  intro s n i h hn hi hgood hbad
  have hlen : i < (s.input n).length := by rwa [State.length_input]
  have hdata : ∀ j, ∀ hj : j < i, ∃ v, s.cls ((s.input n)[j]'(hj.trans hlen)) = .data v := by
    intro j hj
    obtain ⟨v, hv⟩ := hgood j hj
    exact ⟨v, by rw [State.getElem_input]; exact h.cls_eq_data.2 hv⟩
  have hunknown : ∀ v, s.cls (s.input n)[i] ≠ .data v := by
    intro v hv
    rw [State.getElem_input] at hv
    exact hbad ⟨v, h.cls_eq_data.1 hv⟩
  have hdec : s.decodeText (s.input n) = .error { kind := .invalidSymbol, pos := i } := by
    rw [h.decodeText_brc, State.brDecode, State.mapDigits_bad hlen hdata hunknown, Nat.zero_add]
  exact execDecode_error h hn hdec

/-! ### Laws of the unit -/

/-- Settles O35: leading zeros pass through either direction one for one; the vector's text is its encoding, so the round
trip decodes it. -/
theorem leadingZerosArePreserved : Obligations.LeadingZerosArePreserved := by
  intro s h
  have henc : s.brEncode [0x00#8, 0x00#8, 0x01#8] = [s.symAt 0, s.symAt 0, s.symAt 1] :=
    h.brEncode_zeros_singleton 2 (b := 0x01#8) (by decide) h.base.1
  refine ⟨henc, henc ▸ h.brDecode_brEncode _, s.brEncode_replicate_zero_append, fun z text y hdec => ?_⟩
  obtain ⟨vs, hvs, rfl⟩ := State.brDecode_eq_ok.1 hdec
  refine State.brDecode_eq_ok.2 ⟨List.replicate z 0 ++ vs, ?_, s.digitBytes_replicate_zero_append z vs⟩
  simp only [List.map_append, List.map_replicate, hvs, h.cls_symAt_zero]

/-- `BPEncode` with radix 16 writes each byte as its two hexadecimal digits, and no pad. -/
theorem State.Ready.bpEncode_hex {s : State} (h : s.Ready .bpc) (h16 : s.radix = 16) (x : List Byte) :
    s.bpEncode x = (bitGroups 4 (streamBit x) (2 * x.length)).map s.symAt := by
  have hw : s.width = 4 := h.width_eq (congrArg BitVec.toNat h16)
  have hcount : groupCount 4 x.length = 2 * x.length := by
    unfold groupCount ceilDiv
    omega
  have hpads : padCount (cfgPadEn s.cfg) 4 x.length (2 * x.length) = 0 := by
    rw [← hcount, padCount_eq_padsAfter (by decide) (by decide), padsAfter_eq_zero (by decide), ite_self]
  rw [State.bpEncode_eq (by omega), hw, hcount, hpads, List.replicate_zero, List.append_nil]

/-- Settles O36: the hexadecimal digits of every byte on one side, the digits of the number behind its zero bytes on the
other; and both units decode what they encode. -/
theorem unitsDifferOnRadixSixteen : Obligations.UnitsDifferOnRadixSixteen := by
  intro s s' h h' h16 h16'
  have hbase : s'.base = 16 := congrArg BitVec.toNat h16'
  have hF : (0x0F#8).toNat < s'.base := by rw [hbase]; decide
  have hbp : s.bpEncode [0x0F#8] = [s.symAt 0, s.symAt 15] := h.bpEncode_hex h16 _
  have hbr : s'.brEncode [0x00#8, 0x0F#8] = [s'.symAt 0, s'.symAt 15] := h'.brEncode_zeros_singleton 1 (by decide) hF
  exact ⟨h.bpEncode_hex h16 _, h'.brEncode_zeros_singleton 1 (b := 0x01#8) (by decide) h'.base.1, hbp,
    h'.brEncode_zeros_singleton 0 (by decide) hF, hbp ▸ h.bpDecode_bpEncode _, hbr ▸ h'.brDecode_brEncode _⟩

/-- Settles O38: neither the text, nor the classes of the codes, nor delivery depends on the policy. -/
theorem brcIgnoresPaddingPolicy : Obligations.BrcIgnoresPaddingPolicy := fun _ n _ _ hmode hci =>
  ⟨execEncode_withPolicy hmode n, execDecode_withPolicy hmode hci n⟩

/-! ### The datapaths -/

/-- Settles O44: each pass divides the number by R and pushes its remainder, which is the loop of R161. -/
theorem dividerComputesBrEncode : Obligations.DividerComputesBrEncode := fun _ x h => h.brEncodeDivider_eq x

/-- Settles O45: the limbs and `BRDecode`'s bytes write one number, and neither starts with 0. -/
theorem multiplierComputesBrDecode : Obligations.MultiplierComputesBrDecode := fun _ text h =>
  h.brDecodeMultiplier_eq text

end Sys2Proof.Machine
end

section
/-! SUPPORT. Why a command reports the error it reports (spec/60_exceptions.md R191 to R200): one inversion lemma over all
commands, and what their result registers hold afterwards whatever the state before (R28, R29). -/

namespace Sys2Proof.Machine

/-! ### The checks of CONFIGURE -/

/-- The four results of the checks, each with all that leads to it (R102, R201). -/
theorem State.construct_cases (s : State) :
    (cfgCodec s.cfg = .reserved ∧ s.construct = .error .illegalCommand) ∨
    (RadixRejected s.radix.toNat (cfgCodec s.cfg) ∧ s.construct = .error .invalidRadix) ∨
    (cfgCodec s.cfg ≠ .reserved ∧ ¬ RadixRejected s.radix.toNat (cfgCodec s.cfg) ∧ s.AlphabetRejected ∧
      s.construct = .error .invalidAlphabet) ∨
    ∃ c, s.construct = .ok c := by
  by_cases hc : cfgCodec s.cfg = .reserved
  · exact .inl ⟨hc, State.construct_of_reserved hc⟩
  by_cases hr : RadixRejected s.radix.toNat (cfgCodec s.cfg)
  · exact .inr (.inl ⟨hr, State.construct_of_radixRejected hr⟩)
  by_cases ha : s.AlphabetRejected
  · exact .inr (.inr (.inl ⟨hc, hr, ha, State.construct_of_alphabetRejected hc hr ha⟩))
  cases hsel : select s.radix.toNat (cfgCodec s.cfg) with
  | none => exact absurd ((select_eq_none hc).1 hsel) hr
  | some u =>
    obtain ⟨t, ht, -⟩ := State.construct_of_accepted (select_eq_some.1 hsel) ha
    exact .inr (.inr (.inr ⟨_, ht⟩))

/-- CONFIGURE reports the error of its checks (R102). -/
theorem err_configure_of_error {s t : State} {e : ErrCode} (hcon : s.construct = .error e)
    (h : exec .configure s = .next t) : t.status.err = e := by
  obtain ⟨u, hu, hstatus, -⟩ := exec_configure_of_error hcon
  rw [← next_inj (hu.symm.trans h), hstatus]

/-! ### The content errors of DECODE -/

/-- The content errors that DECODE can find, each with the unit and the policy it needs (R194 to R196). -/
inductive State.ContentError (s : State) : ErrCode → Prop where
  | symbol : s.ContentError .invalidSymbol
  | padding (hm : s.status.mode = .bpc) (hen : cfgPadEn s.cfg = true) : s.ContentError .invalidPadding
  | trailing (hm : s.status.mode = .bpc) (hl : cfgLenient s.cfg = false) : s.ContentError .trailingBits

theorem State.contentError_mapSymbols {s : State} {text : List Byte} {i : Nat} {e : CmdError}
    (h : s.mapSymbols text i = .error e) : s.ContentError e.kind := by
  induction text generalizing i with
  | nil => cases h
  | cons c cs ih =>
    simp only [State.mapSymbols] at h
    split at h
    · rename_i hpad
      obtain ⟨hm, hen, -⟩ := State.cls_eq_pad.1 hpad
      cases h
      exact .padding hm hen
    · cases h; exact .symbol
    · split at h
      · cases h; exact ih ‹_›
      · cases h

theorem State.contentError_mapDigits {s : State} {text : List Byte} {i : Nat} {e : CmdError}
    (h : s.mapDigits text i = .error e) : s.ContentError e.kind := by
  induction text generalizing i with
  | nil => cases h
  | cons c cs ih =>
    simp only [State.mapDigits] at h
    split at h
    · split at h
      · cases h; exact ih ‹_›
      · cases h
    · cases h; exact .symbol
    · cases h; exact .symbol

theorem State.contentError_unpackValues {s : State} {vs : List Nat} {e : CmdError} (hm : s.status.mode = .bpc)
    (h : unpackValues s.width (cfgLenient s.cfg) vs = .error e) : s.ContentError e.kind := by
  simp only [unpackValues] at h
  split at h
  · rename_i hset
    obtain ⟨-, -, hl⟩ := hset
    cases h
    exact .trailing hm hl
  · cases h

theorem State.contentError_bpDecode {s : State} {text : List Byte} {e : CmdError} (hm : s.status.mode = .bpc)
    (h : s.bpDecode text = .error e) : s.ContentError e.kind := by
  simp only [State.bpDecode] at h
  split at h
  · rename_i hbad
    have hen : cfgPadEn s.cfg = true := by
      by_contra hen
      rw [State.padCountOk_iff.2 fun h => absurd h hen] at hbad
      cases hbad
    cases h
    exact .padding hm hen
  · split at h
    · cases h; exact State.contentError_mapSymbols ‹_›
    · exact State.contentError_unpackValues hm h

/-- Every error of decoding a text is a content error with its policy. -/
theorem State.contentError_decodeText {s : State} {text : List Byte} {e : CmdError}
    (h : s.decodeText text = .error e) : s.ContentError e.kind := by
  unfold State.decodeText at h
  split at h
  · exact State.contentError_bpDecode ‹_› h
  · unfold State.brDecode at h
    split at h
    · cases h; exact State.contentError_mapDigits ‹_›
    · cases h

/-! ### Every command -/

/-- Which outcome each command can report in a state, with what it takes (R191 to R200). -/
inductive State.Reports (s : State) : Instr → ErrCode → Prop where
  | success (i : Instr) : s.Reports i .noError
  | reservedCodec (hc : cfgCodec s.cfg = .reserved) : s.Reports .configure .illegalCommand
  | radix (hr : RadixRejected s.radix.toNat (cfgCodec s.cfg)) : s.Reports .configure .invalidRadix
  | alphabet (hc : cfgCodec s.cfg ≠ .reserved) (hr : ¬ RadixRejected s.radix.toNat (cfgCodec s.cfg))
      (ha : s.AlphabetRejected) : s.Reports .configure .invalidAlphabet
  | unconfigured (i : Instr) (n : Nat) (hi : i = .encode n ∨ i = .decode n) (hv : s.status.cfgValid = false) :
      s.Reports i .notConfigured
  | tooLong (i : Instr) (n : Nat) (hi : i = .encode n ∨ i = .decode n) (hv : s.status.cfgValid = true)
      (hn : s.ibufBytes < n) : s.Reports i .inputLength
  | content (n : Nat) (e : ErrCode) (he : s.ContentError e) : s.Reports (.decode n) e
  | encodeOverflow (n : Nat) (hv : s.status.cfgValid = true) (hn : n ≤ s.ibufBytes)
      (ho : s.obufBytes < (s.encodeText (s.input n)).length) : s.Reports (.encode n) .outputOverflow
  | decodeOverflow (n : Nat) (y : List Byte) (hv : s.status.cfgValid = true) (hn : n ≤ s.ibufBytes)
      (hy : s.decodeText (s.input n) = .ok y) (ho : s.obufBytes < y.length) : s.Reports (.decode n) .outputOverflow

theorem reports_configure {s t : State} (h : exec .configure s = .next t) : s.Reports .configure t.status.err := by
  rcases s.construct_cases with ⟨hc, hcon⟩ | ⟨hr, hcon⟩ | ⟨hc, hr, ha, hcon⟩ | ⟨c, hcon⟩
  · exact err_configure_of_error hcon h ▸ .reservedCodec hc
  · exact err_configure_of_error hcon h ▸ .radix hr
  · exact err_configure_of_error hcon h ▸ .alphabet hc hr ha
  · obtain rfl := next_inj ((exec_configure_eq s).symm.trans h)
    rw [hcon]
    exact .success _

theorem reports_encode {s t : State} {n : Nat} (h : exec (.encode n) s = .next t) :
    s.Reports (.encode n) t.status.err := by
  rcases execEncode_cases n s with ⟨hv, hx⟩ | ⟨hv, hn, hx⟩ | ⟨hv, hn, hx⟩ <;> obtain rfl := next_inj (hx.symm.trans h)
  · exact .unconfigured _ n (.inl rfl) hv
  · exact .tooLong _ n (.inl rfl) hv hn
  · rcases s.deliver_cases (s.encodeText (s.input n)) with ⟨ho, hd⟩ | ⟨-, hd⟩ <;> rw [hd]
    · exact .encodeOverflow n hv hn ho
    · exact .success _

theorem reports_decode {s t : State} {n : Nat} (h : exec (.decode n) s = .next t) :
    s.Reports (.decode n) t.status.err := by
  rcases execDecode_cases n s with ⟨hv, hx⟩ | ⟨hv, hn, hx⟩ | ⟨-, -, e, he, hx⟩ | ⟨hv, hn, y, hy, hx⟩ <;>
    obtain rfl := next_inj (hx.symm.trans h)
  · exact .unconfigured _ n (.inr rfl) hv
  · exact .tooLong _ n (.inr rfl) hv hn
  · exact .content n e.kind (State.contentError_decodeText he)
  · rcases s.deliver_cases y with ⟨ho, hd⟩ | ⟨-, hd⟩ <;> rw [hd]
    · exact .decodeOverflow n y hv hn hy ho
    · exact .success _

/-- Whatever a command reports has its cause. -/
theorem exec_reports {i : Instr} {s t : State} (h : exec i s = .next t) : s.Reports i t.status.err := by
  cases i with
  | configure => exact reports_configure h
  | encode n => exact reports_encode h
  | decode n => exact reports_decode h
  | clear =>
    obtain rfl := next_inj ((execClear_eq s).symm.trans h)
    exact .success _

/-- The outcomes of each command, as the table of R191 lists them. -/
def outcomesOf : Instr → List ErrCode
  | .configure => [.noError, .invalidRadix, .invalidAlphabet, .illegalCommand]
  | .encode _ => [.noError, .notConfigured, .inputLength, .outputOverflow]
  | .decode _ =>
    [.noError, .invalidSymbol, .invalidPadding, .trailingBits, .notConfigured, .inputLength, .outputOverflow]
  | .clear => [.noError]

/-- The causes give the table of R191. -/
theorem State.Reports.mem_outcomes {s : State} {i : Instr} {e : ErrCode} (h : s.Reports i e) :
    e ∈ outcomesOf i := by
  cases h with
  | success => cases i <;> simp [outcomesOf]
  | unconfigured _ n hi | tooLong _ n hi => rcases hi with rfl | rfl <;> simp [outcomesOf]
  | content n e he => cases he <;> simp [outcomesOf]
  | reservedCodec | radix | alphabet | encodeOverflow | decodeOverflow => simp [outcomesOf]

/-! ### The result registers after a command -/

/-- Every command leaves the result registers as R28 and R29 say, whatever they held before. -/
theorem exec_resultInv {i : Instr} {s t : State} (h : exec i s = .next t) : t.ResultInv := by
  cases i with
  | configure =>
    obtain rfl := next_inj ((exec_configure_eq s).symm.trans h)
    exact State.resultInv_of_olen_eq_zero (by simp) fun _ _ => by simp
  | encode n =>
    rcases execEncode_cases n s with ⟨-, hx⟩ | ⟨-, -, hx⟩ | ⟨-, -, hx⟩ <;> obtain rfl := next_inj (hx.symm.trans h)
    · exact State.resultInv_of_olen_eq_zero rfl fun _ _ => rfl
    · exact State.resultInv_of_olen_eq_zero rfl fun _ _ => rfl
    · exact s.resultInv_deliver _
  | decode n =>
    rcases execDecode_cases n s with ⟨-, hx⟩ | ⟨-, -, hx⟩ | ⟨-, -, e, he, hx⟩ | ⟨-, -, y, -, hx⟩ <;>
      obtain rfl := next_inj (hx.symm.trans h)
    · exact State.resultInv_of_olen_eq_zero rfl fun _ _ => rfl
    · exact State.resultInv_of_olen_eq_zero rfl fun _ _ => rfl
    · exact State.resultInv_of_olen_eq_zero rfl fun hs hp =>
        congrArg (BitVec.ofNat 24) (State.posJustified_decodeText he hs hp)
    · exact s.resultInv_deliver _
  | clear =>
    obtain rfl := next_inj ((execClear_eq s).symm.trans h)
    exact State.resultInv_done_zero _

/-- So does every word written to `CMD`. -/
theorem issue_resultInv {w : Word} {s t : State} (h : issue w s = .next t) : t.ResultInv := by
  rcases issue_cases w s with ⟨i, -, hx⟩ | ⟨e, -, hx⟩
  · exact exec_resultInv (hx.symm.trans h)
  · obtain rfl := next_inj (hx.symm.trans h)
    exact State.resultInv_of_olen_eq_zero rfl fun _ _ => rfl

/-- Only InvalidSymbol and InvalidPadding record a position (R29). -/
theorem exec_errpos {i : Instr} {s t : State} {e : ErrCode} (h : exec i s = .next t) (he : t.status.err = e)
    (hs : e ≠ .invalidSymbol) (hp : e ≠ .invalidPadding) : t.errpos = 0 := by
  obtain ⟨-, hpos, -⟩ := exec_resultInv h
  exact hpos (he ▸ hs) (he ▸ hp)

/-- An empty result holds exactly no byte. -/
theorem State.holds_nil {s : State} (h : s.olen = 0) : s.Holds [] :=
  ⟨by rw [h]; rfl, fun _ hi => absurd hi (Nat.not_lt_zero _)⟩

/-- A DECODE that succeeded has found no content error and delivered its bytes whole. -/
theorem execDecode_holds {s t : State} {n : Nat} (h : execDecode n s = .next t) (ht : t.status.err = .noError) :
    ∃ y, s.decodeText (s.input n) = .ok y ∧ t.Holds y := by
  rcases execDecode_cases n s with ⟨-, hx⟩ | ⟨-, -, hx⟩ | ⟨-, -, e, he, hx⟩ | ⟨-, -, y, hy, hx⟩ <;>
    obtain rfl := next_inj (hx.symm.trans h)
  · cases ht
  · cases ht
  · have hcontent := State.contentError_decodeText he
    rw [show e.kind = .noError from ht] at hcontent
    cases hcontent
  · rcases s.deliver_cases y with ⟨-, hd⟩ | ⟨hfit, hd⟩ <;> rw [hd] at ht ⊢
    · cases ht
    · exact ⟨y, hy, State.holds_done hfit⟩

end Sys2Proof.Machine
end

section
/-! SUPPORT. How long a result can be: at most eight symbols per byte (spec/41_bitpack.md R133, spec/42_bigradix.md R162) and
at most one byte per symbol (R140, R167). -/

namespace Sys2Proof.Machine

/-! ### Encoding -/

/-- Completing `d` to a multiple of `q` does not pass a multiple of `q` that `d` does not pass. -/
theorem add_pads_le {q d m : Nat} (hq : q ∣ m) (hd : d ≤ m) : d + (q - d % q) % q ≤ m := by
  obtain ⟨k, rfl⟩ := hq
  have hdiv := Nat.div_add_mod d q
  rcases Nat.eq_zero_or_pos (d % q) with h0 | hpos
  · rwa [h0, Nat.sub_zero, Nat.mod_self, Nat.add_zero]
  · have hlt : d / q < k := Nat.lt_of_mul_lt_mul_left (a := q) (by omega)
    have hnext : q * (d / q) + q ≤ q * k := Nat.mul_le_mul_left q hlt
    have hle := Nat.mod_le (q - d % q) q
    omega

/-- The symbols of a block are 1, 2, 4 or 8 (R130). -/
theorem blockSymbols_dvd {b : Nat} (hb : 0 < b) : blockSymbols b ∣ 8 :=
  Nat.dvd_of_mul_dvd_mul_right hb (blockSymbols_mul b ▸ Nat.lcm_dvd_mul 8 b)

theorem groupCount_le {b : Nat} (hb : 0 < b) (n : Nat) : groupCount b n ≤ 8 * n :=
  Nat.not_lt.1 fun h => Nat.not_lt.2 (Nat.le_mul_of_pos_right _ hb) ((lt_ceilDiv_iff hb).1 h)

/-- Eight symbols per byte are enough for the groups and the pads: Q divides 8n (R133). -/
theorem State.Ready.length_bpEncode_le {s : State} (h : s.Ready .bpc) (x : List Byte) :
    (s.bpEncode x).length ≤ 8 * x.length := by
  obtain ⟨h1, h8, -⟩ := h.width
  have hcount := groupCount_le h1 x.length
  rw [State.length_bpEncode, padCount_eq h1 h8]
  split
  · exact add_pads_le ((blockSymbols_dvd h1).mul_right _) hcount
  · exact hcount

/-- So are they for the encoding of either unit (R133, R162). -/
theorem State.Ready.length_encodeText_le {s : State} {m : Mode} (h : s.Ready m) (x : List Byte) :
    (s.encodeText x).length ≤ 8 * x.length := by
  cases m with
  | bpc => exact h.encodeText_bpc x ▸ h.length_bpEncode_le x
  | brc =>
    obtain ⟨z, y, rfl, h0⟩ := exists_replicate_zero_append_bytes x
    have hdigits := s.length_bytesDigits_le y
    rw [h.encodeText_brc, s.brEncode_eq h0]
    simp only [List.length_append, List.length_replicate, List.length_map]
    omega

/-! ### Decoding -/

/-- Values of at most eight bits make at most one byte each (R140). -/
theorem length_unpackValues_le {b : Nat} {lenient : Bool} {vs : List Nat} {y : List Byte} (h8 : b ≤ 8)
    (h : unpackValues b lenient vs = .ok y) : y.length ≤ vs.length := by
  simp only [unpackValues] at h
  split at h
  · cases h
  · cases h
    rw [List.length_map, List.length_range]
    exact Nat.div_le_of_le_mul (Nat.mul_comm 8 vs.length ▸ Nat.mul_le_mul_left _ h8)

/-- A text has as many codes as values. -/
theorem length_eq_of_map_cls {s : State} {text : List Byte} {vs : List Nat}
    (h : text.map s.cls = vs.map SymClass.data) : vs.length = text.length := by
  simpa using (congrArg List.length h).symm

theorem State.length_bpDecode_le {s : State} {text y : List Byte} (h8 : s.width ≤ 8) (h : s.bpDecode text = .ok y) :
    y.length ≤ text.length := by
  simp only [State.bpDecode] at h
  split at h
  · cases h
  · split at h
    · cases h
    · rename_i vs hvs
      calc y.length ≤ vs.length := length_unpackValues_le h8 h
        _ = (text.take _).length := length_eq_of_map_cls (State.mapSymbols_eq_ok.1 hvs)
        _ ≤ text.length := List.length_take_le' ..

/-- Zeros become as many zero bytes, and the digits after them at most one byte each (R167). -/
theorem State.length_digitBytes_le (s : State) (vs : List Nat) : (s.digitBytes vs).length ≤ vs.length := by
  obtain ⟨z, ds, rfl, h0⟩ := exists_replicate_zero_append vs
  have hbytes := s.length_numberBytes_le ds
  rw [s.digitBytes_eq h0]
  simpa using hbytes

theorem State.length_brDecode_le {s : State} {text y : List Byte} (h : s.brDecode text = .ok y) :
    y.length ≤ text.length := by
  obtain ⟨vs, hvs, rfl⟩ := State.brDecode_eq_ok.1 h
  exact length_eq_of_map_cls hvs ▸ s.length_digitBytes_le vs

/-- Neither unit decodes a text to more bytes than it has codes. -/
theorem State.Ready.length_decodeText_le {s : State} {m : Mode} (h : s.Ready m) {text y : List Byte}
    (hy : s.decodeText text = .ok y) : y.length ≤ text.length := by
  cases m with
  | bpc =>
    obtain ⟨-, h8, -⟩ := h.width
    exact State.length_bpDecode_le h8 (h.decodeText_bpc text ▸ hy)
  | brc => exact State.length_brDecode_le (h.decodeText_brc text ▸ hy)

/-! ### OutputOverflow (R200) -/

/-- ENCODE that passes its pre-checks with eight bytes of `OBUF` per byte of input does not overflow. -/
theorem State.Inv.encode_not_overflow {s : State} (h : s.Inv) {n : Nat}
    (hcap : n ≤ s.ibufBytes → 8 * n ≤ s.obufBytes) : ¬ s.Reports (.encode n) .outputOverflow := by
  intro hrep
  cases hrep with
  | encodeOverflow _ hv hn ho =>
    have hlen := (h.ready hv).length_encodeText_le (s.input n)
    rw [s.length_input] at hlen
    exact absurd (hlen.trans (hcap hn)) (Nat.not_le.2 ho)

/-- DECODE that passes its pre-checks with a byte of `OBUF` per code of its text does not overflow. -/
theorem State.Inv.decode_not_overflow {s : State} (h : s.Inv) {n : Nat}
    (hcap : n ≤ s.ibufBytes → n ≤ s.obufBytes) : ¬ s.Reports (.decode n) .outputOverflow := by
  intro hrep
  cases hrep with
  | content _ _ he => cases he
  | decodeOverflow _ y hv hn hy ho =>
    have hlen := (h.ready hv).length_decodeText_le hy
    rw [s.length_input] at hlen
    exact absurd (hlen.trans (hcap hn)) (Nat.not_le.2 ho)

end Sys2Proof.Machine
end

section
/-! SUPPORT. The statements about errors and their reports (spec/60_exceptions.md R190 to R209). -/

namespace Sys2Proof.Machine

/-- Settles O6: every command ends, and leaves the result registers as R28 and R29 say. -/
theorem everyCommandEndsAndReports : Obligations.EveryCommandEndsAndReports := by
  intro i s
  obtain ⟨t, h⟩ := exec_next i s
  obtain ⟨holen, hpos, -⟩ := exec_resultInv h
  exact ⟨t, h, holen, hpos⟩

/-- Settles O7: the causes of what a command reports give the table of R191, and an illegal word is only reported. -/
theorem errorsOfEachCommand : Obligations.ErrorsOfEachCommand := by
  refine ⟨rfl, fun e => by cases e <;> decide, fun s t h => (exec_reports h).mem_outcomes,
    fun s t n h => (exec_reports h).mem_outcomes, fun s t n h => (exec_reports h).mem_outcomes,
    fun s t h => List.mem_singleton.1 (exec_reports h).mem_outcomes, fun s t w h hw => ?_⟩
  obtain ⟨e, he⟩ := hw
  rw [← next_inj ((issue_of_error he s).symm.trans h)]
  rfl

/-- Settles O8: the only cause of either error is the content of a text, under its policy. -/
theorem contentErrorsNeedTheirPolicy : Obligations.ContentErrorsNeedTheirPolicy := by
  intro i s t h
  have hrep := exec_reports h
  refine ⟨fun herr => ?_, fun herr => ?_⟩ <;> rw [herr] at hrep
  · cases hrep with
    | content n e he =>
      cases he with
      | padding hm hen => exact ⟨⟨n, rfl⟩, hm, hen⟩
  · cases hrep with
    | content n e he =>
      cases he with
      | trailing hm hl => exact ⟨⟨n, rfl⟩, hm, hl, exec_errpos h herr nofun nofun⟩

/-- Settles O9: a success has delivered the function value whole, CONFIGURE and CLEAR deliver nothing, and an error leaves
no length. -/
theorem noSilentFailure : Obligations.NoSilentFailure := by
  intro s t n
  refine ⟨execEncode_holds, execDecode_holds, fun h => State.holds_nil ?_, fun w h herr => ?_⟩
  · rcases h with h | h
    · rw [← next_inj ((exec_configure_eq s).symm.trans h), State.configureWith_olen]
    · rw [← next_inj ((execClear_eq s).symm.trans h)]
      rfl
  · obtain ⟨holen, -⟩ := issue_resultInv h
    exact holen herr

/-- Settles O14: the radix is the one cause of InvalidRadix, and where it applies the checks answer with it. -/
theorem invalidRadixExactly : Obligations.InvalidRadixExactly := by
  intro i s t h
  refine ⟨⟨fun herr => ?_, ?_⟩, fun herr => exec_errpos h herr nofun nofun⟩
  · have hrep := exec_reports h
    rw [herr] at hrep
    cases hrep with
    | radix hr => exact ⟨rfl, hr⟩
    | content _ _ he => cases he
  · rintro ⟨rfl, hr⟩
    exact err_configure_of_error (State.construct_of_radixRejected hr) h

/-- Settles O15: the alphabet is the one cause of InvalidAlphabet, after the earlier errors. -/
theorem invalidAlphabetExactly : Obligations.InvalidAlphabetExactly := by
  intro i s t h
  refine ⟨⟨fun herr => ?_, ?_⟩, fun herr => exec_errpos h herr nofun nofun⟩
  · have hrep := exec_reports h
    rw [herr] at hrep
    cases hrep with
    | alphabet hc hr ha => exact ⟨rfl, hc, hr, ha⟩
    | content _ _ he => cases he
  · rintro ⟨rfl, hc, hr, ha⟩
    exact err_configure_of_error (State.construct_of_alphabetRejected hc hr ha) h

/-- Settles O37: a result that is too long is longer than R133, R140, R162 and R167 allow for a `LEN` that passes the
pre-checks. -/
theorem overflowNeedsSmallBuffer : Obligations.OverflowNeedsSmallBuffer := by
  intro s t n hinv
  refine ⟨fun h hcap herr => ?_, fun h hcap herr => ?_, fun hcap i h herr => ?_⟩ <;>
    have hrep := herr ▸ exec_reports h
  · exact hinv.encode_not_overflow (fun _ => hcap) hrep
  · exact hinv.decode_not_overflow (fun _ => hcap) hrep
  · cases i with
    | configure | clear => simpa [outcomesOf] using hrep.mem_outcomes
    | encode k => exact hinv.encode_not_overflow (fun hk => by omega) hrep
    | decode k => exact hinv.decode_not_overflow (fun hk => by omega) hrep

/-- Settles O19: a failed pre-check is reported and nothing else happens. -/
theorem preChecksReportAndStop : Obligations.PreChecksReportAndStop := by
  refine fun s n i hi => ⟨fun hv => exec_of_preCheck_some hi ?_, fun hv hn => exec_of_preCheck_some hi ?_⟩
  · rw [State.preCheck, if_pos hv]
  · rw [State.preCheck, if_neg (by simp [hv]), if_pos hn]

end Sys2Proof.Machine
end

section
/-! SUPPORT. The statement about how long a result lasts (spec/70_reset_and_hazards.md R227, spec/60_exceptions.md R203). -/

namespace Sys2Proof.Machine

/-- Two states hold the same result of the last command: its error code, `OLEN`, `ERRPOS` and every entry of `OBUF`. -/
def State.SameResult (s t : State) : Prop :=
  t.status.err = s.status.err ∧ t.olen = s.olen ∧ t.errpos = s.errpos ∧ t.obuf = s.obuf

/-- A write to a configuration register drops the configuration and keeps `ERR` (R33); the other registers ignore it. -/
theorem State.sameResult_writeReg (s : State) (r : RegName) (w : Word) : s.SameResult (s.writeReg r w) := by
  cases r <;> exact ⟨rfl, rfl, rfl, rfl⟩

/-- A write to `OBUF` is ignored (R40), and one to `SYM` or `IBUF` stores elsewhere. -/
theorem State.sameResult_writeByte (s : State) (sp : Space) (i : Nat) (b : Byte) : s.SameResult (s.writeByte sp i b) := by
  cases sp <;> exact ⟨rfl, rfl, rfl, rfl⟩

/-- Of the effects a host operation can have, only a command's and a reset's reach the result. -/
theorem HostEffect.sameResult {s t : State} {op : HostOp} (h : HostEffect s op t)
    (hcmd : ∀ w, op ≠ .regWrite 0x10 w) (hbus : ∀ d, op ≠ .busWrite 0x10#32 d)
    (hreset : op ≠ .reset) (hduring : ∀ w, op ≠ .resetDuring w) : s.SameResult t := by
  cases h with
  | nothing r d => exact ⟨rfl, rfl, rfl, rfl⟩
  | command w u hop hu => exact (hop.elim (hcmd w) (hbus (.word w))).elim
  | register r w hr => exact s.sameResult_writeReg r w
  | entry sp i b hi hop => exact s.sameResult_writeByte sp i b
  | reset hop =>
    rcases hop with rfl | ⟨w, rfl⟩
    · exact absurd rfl hreset
    · exact absurd rfl (hduring w)

/-- Settles O48: a step is idle or has the effect of the next operation, which is no write to `CMD` and no reset. -/
theorem resultsLastUntilNextCommand : Obligations.ResultsLastUntilNextCommand := by
  intro s t hstep hcmd hbus hreset hduring
  rcases step_cases hstep with ⟨-, rfl⟩ | ⟨op, rest, hop, heff⟩
  · exact ⟨rfl, rfl, rfl, rfl⟩
  · rw [hop] at hcmd hbus hreset hduring
    exact heff.sameResult (fun w h => hcmd w rest (h ▸ rfl)) (fun d h => hbus d rest (h ▸ rfl))
      (fun h => hreset rest (h ▸ rfl)) (fun w h => hduring w rest (h ▸ rfl))

end Sys2Proof.Machine
end
